-- ==== Sys2Proof/Word.lean ====
section
/-! DEFINITION. The word types of the block: every register is 32 bits wide (R61), MIIM data and
expander registers are 16 bits wide (R43, R87), and the port masks are 64 bits wide (R80). -/

namespace Sys2Proof

/-- An 8-bit field of the request record (R80). -/
abbrev Byte := BitVec 8

/-- MIIM data, and the content of one expander register (R43, R87). -/
abbrev Half := BitVec 16

/-- One register of the window (R22, R61). -/
abbrev Word := BitVec 32

/-- A port bitmask, bit p for port p (R80, D40). -/
abbrev PortMask := BitVec 64

/-- The 5-bit addresses of the MIIM bus: a target or a sub-register (R84). -/
abbrev BusAddr := BitVec 5

end Sys2Proof
end

