-- ==== Sys2Proof/Config.lean ====
section
/-! DEFINITION. The parameters of R6, as plain data that State carries (the spec makes the layout a
part of the controller's state, R38), and the free values: what the spec calls "any value". -/

namespace Sys2Proof

/-- The two chip generations (R2): A the older one, B the richer one. -/
inductive Family where
  | A
  | B
deriving DecidableEq, Repr

/-- The place of a 1-bit field: a window offset and a bit number (R6). -/
structure BitLoc where
  off : Nat
  bit : Nat
deriving DecidableEq, Repr

/-- The place of a field: a window offset, the number of its lowest bit and its width (R6, R90). -/
structure FieldLoc where
  off : Nat
  lsb : Nat
  width : Nat
deriving DecidableEq, Repr

/-- The bit positions of the five fields of the MIIM command word; their widths 1, 1, 5, 5 and 16
are the source's (R6, R87). -/
structure CmdLayout where
  cmdLsb : Nat
  rwopLsb : Nat
  phyLsb : Nat
  regLsb : Nat
  dataLsb : Nat
deriving DecidableEq, Repr

/-- The register layout of one family, the parameters of R6 under its names. An absent field is
none: MIIM_CLK (D5), PL_ACTIVE where HAS_ACTIVATE = 0, LOAD where SW_MIRROR_LOAD = 0 (D4). The
fields that only one family uses stand in both records and are read for that family alone. -/
structure Layout where
  miimEn : BitLoc
  miimClk : Option FieldLoc
  plActive : Option BitLoc
  sysLedEn : BitLoc
  miimCmd : Nat
  cmd : CmdLayout
  /-- MODE_A -/
  modeA : Nat
  /-- FL_A(0), FL_A(1), … ; a missing entry is D16's default 5 -/
  flA : List Nat
  dupOffA : Nat
  /-- MODE_B[0] -/
  modeB0 : Nat
  /-- MODE_B[1] -/
  modeB1 : Nat
  hasPsetSel : Bool
  selCopper : Nat
  selFibre : Nat
  pmaskCopper : Nat
  pmaskFibre : Nat
  /-- how many PMASK registers each plane has; the rules give no number (log entry 12) -/
  pmaskRegs : Nat
  swBase : Nat
  swMirrorOff : Nat
  enaBase : Nat
  enaPpr : Nat
  enaFl : Nat
  load : Option BitLoc
  modeMax : Nat
  /-- SW_MAP: entry k is the raw code of logical mode k, none where it is undefined (R161) -/
  swMap : List (Option (BitVec 3))
deriving DecidableEq, Repr

/-- What COMPAT_TABLE answers for a listed string (R180): a family, or a placeholder without a
layout table. A string that is not listed has no match. -/
inductive CompatEntry where
  | family (f : Family)
  | placeholder
deriving DecidableEq, Repr

/-- The parameters of R6: one layout for each family and the values that are not per family. A
compatible string is held as its bytes. N_CALLERS is the number of callers State holds. -/
structure Params where
  layoutA : Layout
  layoutB : Layout
  psetMaxA : Nat
  mode10G : Nat
  pollMax : Nat
  windowSize : Nat
  compatTable : List (List Byte × CompatEntry)
  /-- EXPANDER: the expander registers (numbered 32 * target + sub-register) that change on their
  own and whose reads are any value (R125, I2); empty is D11's memory semantics -/
  expVolatile : List Nat
deriving DecidableEq, Repr

/-- LAYOUT[f] (R180). -/
def Params.layout (P : Params) : Family → Layout
  | .A => P.layoutA
  | .B => P.layoutB

namespace Config

/-- The widths the source fixes (R6): ports per selector register, selector field length, Family
B's mode field length, software-LED field length. -/
def selPpr : Nat := 16
def selFl : Nat := 2
def modeFlB : Nat := 5
def swFl : Nat := 3

/-- A 32-bit value the spec calls unspecified: the read of an offset without a register, and what a
write there leaves (R76, I11). Free; DESIGN CHOICE of the form, log entry 5. -/
opaque anyWord : Nat → Word

/-- A 16-bit value the spec calls any value: the data of a tainted transaction, the expander cells
its commands write, a volatile expander register (R117, R119, I1, I2, I4). Free; log entry 5. -/
opaque anyHalf : Nat → Half

/-- The read value of the LOAD bit (R36, I5). Free; log entry 5. -/
opaque anyBit : Nat → Bool

end Config

end Sys2Proof
end

