-- ==== Sys2Proof/Machine/Bits.lean ====
section
/-! DEFINITION. The bit and index arithmetic of R8 and R9, and the fields of the MIIM command word
(R87) at the positions a layout gives them. -/

namespace Sys2Proof.Machine

/-- mask(lsb, w) of R8: w one bits from bit lsb up, in 32 bits. -/
def mask (lsb w : Nat) : Word := (((1 : Word) <<< w) - 1) <<< lsb

/-- fld(v, lsb, w) of R8: the w bits of v from bit lsb up. -/
def fld (v : Word) (lsb w : Nat) : Word := (v >>> lsb) &&& (((1 : Word) <<< w) - 1)

/-- What RMW stores (R10, R102): the bits of `m` from `v`, every other bit from `old`. -/
def mergeBits (old m v : Word) : Word := (old &&& ~~~m) ||| (v &&& m)

/-- A 32-bit word with bit `n` set to `b` and the other bits as they were. -/
def putBit (w : Word) (n : Nat) (b : Bool) : Word :=
  mergeBits w (mask n 1) (if b then mask n 1 else 0)

/-- ceil_div(a, b) of R9, for b > 0. -/
def ceilDiv (a b : Nat) : Nat := (a + b - 1) / b

/-- D7's default positions of the command-word fields. -/
def defaultCmdLayout : CmdLayout :=
  { cmdLsb := 0, rwopLsb := 1, phyLsb := 6, regLsb := 11, dataLsb := 16 }

/-- The five fields of the command word, each with its lowest bit and width (R87). -/
def cmdFields (L : CmdLayout) : List (Nat × Nat) :=
  [(L.cmdLsb, 1), (L.rwopLsb, 1), (L.phyLsb, 5), (L.regLsb, 5), (L.dataLsb, 16)]

/-- The bits of the five fields; the other bits of the word are reserved (R89). -/
def cmdFieldsMask (L : CmdLayout) : Word :=
  mask L.cmdLsb 1 ||| mask L.rwopLsb 1 ||| mask L.phyLsb 5 ||| mask L.regLsb 5 ||| mask L.dataLsb 16

/-- The fields fit in 32 bits and no two of them overlap (R7). -/
def cmdLayoutOk (L : CmdLayout) : Bool :=
  (cmdFields L).all (fun f => f.1 + f.2 ≤ 32) &&
    decide ((cmdFields L).Pairwise fun f g => f.1 + f.2 ≤ g.1 ∨ g.1 + g.2 ≤ f.1)

/-- The CMD bit of a command word: the execute strobe (R29). -/
def cmdBit (L : CmdLayout) (w : Word) : Bool := fld w L.cmdLsb 1 == 1

/-- The RWOP bit of a command word: 1 is a write (R28). -/
def rwopBit (L : CmdLayout) (w : Word) : Bool := fld w L.rwopLsb 1 == 1

/-- The PHY field of a command word: the target (R28). -/
def phyField (L : CmdLayout) (w : Word) : BusAddr := (fld w L.phyLsb 5).setWidth 5

/-- The REG field of a command word: the sub-register (R28). -/
def regField (L : CmdLayout) (w : Word) : BusAddr := (fld w L.regLsb 5).setWidth 5

/-- The DATA field of a command word (R28). -/
def dataField (L : CmdLayout) (w : Word) : Half := (fld w L.dataLsb 16).setWidth 16

/-- The reserved bits of a command word, in their places (R89). -/
def reservedBits (L : CmdLayout) (w : Word) : Word := w &&& ~~~cmdFieldsMask L

/-- The word with its DATA field replaced. -/
def putData (L : CmdLayout) (w : Word) (d : Half) : Word :=
  (w &&& ~~~mask L.dataLsb 16) ||| (d.setWidth 32 <<< L.dataLsb)

/-- The word with its strobe cleared (R118). -/
def clearCmd (L : CmdLayout) (w : Word) : Word := w &&& ~~~mask L.cmdLsb 1

/-- The little-endian bytes of a number, `n` of them. -/
def leBytes : Nat → Nat → List Byte
  | 0, _ => []
  | n + 1, v => BitVec.ofNat 8 v :: leBytes n (v / 256)

/-- The number whose little-endian bytes stand in `bs` at position `k`, `n` of them; a byte past the
end of the list counts as 0. -/
def leAt (bs : List Byte) (k : Nat) : Nat → Nat
  | 0 => 0
  | n + 1 => (bs.getD k 0).toNat + 256 * leAt bs (k + 1) n

end Sys2Proof.Machine
end

