-- ==== Sys2Proof/Syntax.lean ====
section
/-! DEFINITION. The syntax: the request record of R80, and one constructor of Instr for each row of
the opcode table: the 18 operations of R82 and the two MIIM command words of R87. -/

namespace Sys2Proof

/-- The request record (R80). A field an operation does not use is ignored. `compat` is the
compatible string as its bytes. -/
structure Request where
  opsel : Byte
  pset : Byte := 0
  led : Byte := 0
  port : Byte := 0
  mode : Byte := 0
  media : Byte := 0
  pmask : PortMask := 0
  tgt : Byte := 0
  sub : Byte := 0
  data : Half := 0
  flag : Bool := false
  off : Word := 0
  val : Word := 0
  msk : Word := 0
  nports : Byte := 0
  nleds : Byte := 0
  vmask : PortMask := 0
  compat : List Byte := []
deriving DecidableEq, Repr

/-- The operations of R82, executed by a caller, and the two command words of R87, executed by the
MIIM engine (R118). `rsv` holds the command word's reserved bits in their places (R89). -/
inductive Instr where
  | plActivate
  | plSetPset (pset : Byte) (pmask : PortMask) (media : Byte)
  | plGetPset (pset : Byte) (media : Byte)
  | plSetMode (pset led mode : Byte)
  | plGetMode (pset led : Byte)
  | plInitAll
  | plRegisterUserLed (port led : Byte) (flag : Bool)
  | plSetUserMode (port led mode : Byte)
  | miimEnable
  | miimSetClock (mode : Byte)
  | miimRead (tgt sub : Byte)
  | miimWrite (tgt sub : Byte) (data : Half)
  | regBind (port led : Byte) (asUser : Bool)
  | regUnbind (port led : Byte)
  | ctlConstruct (compat : List Byte) (nports nleds : Byte) (vmask : PortMask)
  | raRead32 (off : Word)
  | raWrite32 (off val : Word)
  | raRmw32 (off msk val : Word)
  | miimCmdRead (data : Half) (reg phy : BusAddr) (rsv : Word)
  | miimCmdWrite (data : Half) (reg phy : BusAddr) (rsv : Word)
deriving DecidableEq, Repr

end Sys2Proof
end

