-- ==== Sys2Proof/WellFormed.lean ====
section
/-! DEFINITION. Which instructions have an encoding. Argument values are checked by the operation's
rule and never by the decoder (R99), so every argument value is well formed; two things are not
encodable: reserved bits of a command word that lie inside its fields (R89), and a compatible string
too long for the length byte of the model's byte layout (log entry 2). -/

namespace Sys2Proof

/-- The longest compatible string of the byte layout (log entry 2). -/
def maxCompat : Nat := 255

/-- `i` has an encoding, with the command-word fields where `L` puts them. -/
def Instr.wellFormed (L : CmdLayout) : Instr → Bool
  | .plActivate => true
  | .plSetPset _ _ _ => true
  | .plGetPset _ _ => true
  | .plSetMode _ _ _ => true
  | .plGetMode _ _ => true
  | .plInitAll => true
  | .plRegisterUserLed _ _ _ => true
  | .plSetUserMode _ _ _ => true
  | .miimEnable => true
  | .miimSetClock _ => true
  | .miimRead _ _ => true
  | .miimWrite _ _ _ => true
  | .regBind _ _ _ => true
  | .regUnbind _ _ => true
  | .ctlConstruct compat _ _ _ => compat.length ≤ maxCompat
  | .raRead32 _ => true
  | .raWrite32 _ _ => true
  | .raRmw32 _ _ _ => true
  | .miimCmdRead _ _ _ rsv => rsv &&& Machine.cmdFieldsMask L == 0
  | .miimCmdWrite _ _ _ rsv => rsv &&& Machine.cmdFieldsMask L == 0

end Sys2Proof
end

