-- ==== Sys2Proof/Decode.lean ====
section
/-! DEFINITION. Decoding, total (R99), and encoding. A request record decodes by its opsel alone to an
operation of R82 or to the reserved verdict of R83; a word of MIIM_CMD decodes to idle, a read command
or a write command (R87). The byte layout of a request is the model's (log entry 2): the spec gives
the record's fields and widths and no bytes. -/

namespace Sys2Proof

/-- Why a record or a word is no instruction, by name. -/
inductive Reject where
  /-- an opsel outside R82's map: it spells no operation (R83) -/
  | reservedOpsel (op : Byte)
  /-- a command word with CMD = 0: idle or completed, nothing to execute (R87) -/
  | idleWord (w : Word)
deriving DecidableEq, Repr

/-- What decoding answers. -/
abbrev Decoded := Except Reject Instr

/-- R82 and R83: the opsel selects the operation, the other fields are its arguments. -/
def decodeRequest (r : Request) : Decoded :=
  match r.opsel.toNat with
  | 0x01 => .ok .plActivate
  | 0x02 => .ok (.plSetPset r.pset r.pmask r.media)
  | 0x03 => .ok (.plGetPset r.pset r.media)
  | 0x04 => .ok (.plSetMode r.pset r.led r.mode)
  | 0x05 => .ok (.plGetMode r.pset r.led)
  | 0x06 => .ok .plInitAll
  | 0x07 => .ok (.plRegisterUserLed r.port r.led r.flag)
  | 0x08 => .ok (.plSetUserMode r.port r.led r.mode)
  | 0x10 => .ok .miimEnable
  | 0x11 => .ok (.miimSetClock r.mode)
  | 0x12 => .ok (.miimRead r.tgt r.sub)
  | 0x13 => .ok (.miimWrite r.tgt r.sub r.data)
  | 0x20 => .ok (.regBind r.port r.led r.flag)
  | 0x21 => .ok (.regUnbind r.port r.led)
  | 0x30 => .ok (.ctlConstruct r.compat r.nports r.nleds r.vmask)
  | 0xF0 => .ok (.raRead32 r.off)
  | 0xF1 => .ok (.raWrite32 r.off r.val)
  | 0xF2 => .ok (.raRmw32 r.off r.msk r.val)
  | _ => .error (.reservedOpsel r.opsel)

/-- R87: what the MIIM engine reads in MIIM_CMD, the fields where `L` puts them. -/
def decodeCommand (L : CmdLayout) (w : Word) : Decoded :=
  if Machine.cmdBit L w then
    if Machine.rwopBit L w then
      .ok (.miimCmdWrite (Machine.dataField L w) (Machine.regField L w) (Machine.phyField L w)
        (Machine.reservedBits L w))
    else
      .ok (.miimCmdRead (Machine.dataField L w) (Machine.regField L w) (Machine.phyField L w)
        (Machine.reservedBits L w))
  else .error (.idleWord w)

/-- The request record that spells an operation: its opsel and the fields it uses, every other field
0 (R80, R82). The two command words are no requests. -/
def encodeRequest : Instr → Option Request
  | .plActivate => some { opsel := 0x01 }
  | .plSetPset pset pmask media => some { opsel := 0x02, pset, pmask, media }
  | .plGetPset pset media => some { opsel := 0x03, pset, media }
  | .plSetMode pset led mode => some { opsel := 0x04, pset, led, mode }
  | .plGetMode pset led => some { opsel := 0x05, pset, led }
  | .plInitAll => some { opsel := 0x06 }
  | .plRegisterUserLed port led flag => some { opsel := 0x07, port, led, flag }
  | .plSetUserMode port led mode => some { opsel := 0x08, port, led, mode }
  | .miimEnable => some { opsel := 0x10 }
  | .miimSetClock mode => some { opsel := 0x11, mode }
  | .miimRead tgt sub => some { opsel := 0x12, tgt, sub }
  | .miimWrite tgt sub data => some { opsel := 0x13, tgt, sub, data }
  | .regBind port led flag => some { opsel := 0x20, port, led, flag }
  | .regUnbind port led => some { opsel := 0x21, port, led }
  | .ctlConstruct compat nports nleds vmask => some { opsel := 0x30, compat, nports, nleds, vmask }
  | .raRead32 off => some { opsel := 0xF0, off }
  | .raWrite32 off val => some { opsel := 0xF1, off, val }
  | .raRmw32 off msk val => some { opsel := 0xF2, off, msk, val }
  | .miimCmdRead _ _ _ _ => none
  | .miimCmdWrite _ _ _ _ => none

/-- The command word with the given fields (R87). -/
def commandWord (L : CmdLayout) (wr : Bool) (data : Half) (reg phy : BusAddr) (rsv : Word) : Word :=
  Machine.mask L.cmdLsb 1 ||| (if wr then Machine.mask L.rwopLsb 1 else 0) |||
    (phy.setWidth 32 <<< L.phyLsb) ||| (reg.setWidth 32 <<< L.regLsb) |||
    (data.setWidth 32 <<< L.dataLsb) ||| rsv

/-- The word of MIIM_CMD that spells a command (R87); the operations of R82 are no command words. -/
def encodeCommand (L : CmdLayout) : Instr → Option Word
  | .plActivate => none
  | .plSetPset _ _ _ => none
  | .plGetPset _ _ => none
  | .plSetMode _ _ _ => none
  | .plGetMode _ _ => none
  | .plInitAll => none
  | .plRegisterUserLed _ _ _ => none
  | .plSetUserMode _ _ _ => none
  | .miimEnable => none
  | .miimSetClock _ => none
  | .miimRead _ _ => none
  | .miimWrite _ _ _ => none
  | .regBind _ _ _ => none
  | .regUnbind _ _ => none
  | .ctlConstruct _ _ _ _ => none
  | .raRead32 _ => none
  | .raWrite32 _ _ => none
  | .raRmw32 _ _ _ => none
  | .miimCmdRead data reg phy rsv => some (commandWord L false data reg phy rsv)
  | .miimCmdWrite data reg phy rsv => some (commandWord L true data reg phy rsv)

/-- The bytes of a request (log entry 2, DESIGN CHOICE): the fields in R80's order, each little-endian
in whole bytes, the opsel first and the string last behind its length. -/
def Request.toBytes (r : Request) : List Byte :=
  [r.opsel, r.pset, r.led, r.port, r.mode, r.media] ++ Machine.leBytes 8 r.pmask.toNat ++
    [r.tgt, r.sub] ++ Machine.leBytes 2 r.data.toNat ++ [if r.flag then 1 else 0] ++
    Machine.leBytes 4 r.off.toNat ++ Machine.leBytes 4 r.val.toNat ++
    Machine.leBytes 4 r.msk.toNat ++ [r.nports, r.nleds] ++ Machine.leBytes 8 r.vmask.toNat ++
    [BitVec.ofNat 8 r.compat.length] ++ r.compat

/-- The request that stands in a list of bytes, a missing byte counting as 0 (log entry 2). -/
def Request.ofBytes (bs : List Byte) : Request where
  opsel := bs.getD 0 0
  pset := bs.getD 1 0
  led := bs.getD 2 0
  port := bs.getD 3 0
  mode := bs.getD 4 0
  media := bs.getD 5 0
  pmask := BitVec.ofNat 64 (Machine.leAt bs 6 8)
  tgt := bs.getD 14 0
  sub := bs.getD 15 0
  data := BitVec.ofNat 16 (Machine.leAt bs 16 2)
  flag := (bs.getD 18 0).getLsbD 0
  off := BitVec.ofNat 32 (Machine.leAt bs 19 4)
  val := BitVec.ofNat 32 (Machine.leAt bs 23 4)
  msk := BitVec.ofNat 32 (Machine.leAt bs 27 4)
  nports := bs.getD 31 0
  nleds := bs.getD 32 0
  vmask := BitVec.ofNat 64 (Machine.leAt bs 33 8)
  compat := (List.range (bs.getD 41 0).toNat).map fun k => bs.getD (42 + k) 0

/-- Decoding of a request's bytes, total (R99). -/
def decodeBytes (bs : List Byte) : Decoded := decodeRequest (Request.ofBytes bs)

/-- The bytes of an operation's request. -/
def encodeBytes (i : Instr) : Option (List Byte) := (encodeRequest i).map Request.toBytes

/-- What an answer holds when it is an instruction. -/
def Decoded.instr? : Decoded → Option Instr
  | .ok i => some i
  | .error _ => none

/-- The request whose bytes are the little-endian bytes of the number `w` of `nbits` bits. -/
def tableRequest (nbits w : Nat) : Request := Request.ofBytes (Machine.leBytes ((nbits + 7) / 8) w)

/-- The host's reading of an opcode-table row: the two rows of 32 bits are command words at D7's
default positions, every other row is a request record whose first byte is the opsel. -/
def decodeTableWord (nbits w : Nat) : Option Instr :=
  if nbits = 32 then (decodeCommand Machine.defaultCmdLayout (BitVec.ofNat 32 w)).instr?
  else (decodeRequest (tableRequest nbits w)).instr?

end Sys2Proof
end

