-- ==== Sys2Proof/Machine/Example.lean ====
section
/-! DEFINITION. EX, the spec's example configuration (the EX column of R6, the map of R76 and the maps
of R161): the values State.reset carries. It is the spec's own choice and no chip's (log entry 3). -/

namespace Sys2Proof.Machine

/-- The bytes of an ASCII string given by its character codes. -/
def ascii (codes : List Nat) : List Byte := codes.map (BitVec.ofNat 8)

/-- The bytes of `ex,family-` (R6, COMPAT_TABLE). -/
def exFamilyBytes : List Byte := ascii [101, 120, 44, 102, 97, 109, 105, 108, 121, 45]

/-- `ex,family-a` -/
def exCompatA : List Byte := exFamilyBytes ++ ascii [97]

/-- `ex,family-b` -/
def exCompatB : List Byte := exFamilyBytes ++ ascii [98]

/-- `ex,family-c`, the placeholder -/
def exCompatC : List Byte := exFamilyBytes ++ ascii [99]

/-- Family A's layout under EX (R6, R76). -/
def exLayoutA : Layout where
  miimEn := { off := 0x000, bit := 0 }
  miimClk := some { off := 0x000, lsb := 1, width := 2 }
  plActive := none
  sysLedEn := { off := 0x000, bit := 15 }
  miimCmd := 0x004
  cmd := defaultCmdLayout
  modeA := 0x010
  flA := [5, 5, 5, 5]
  dupOffA := 16
  modeB0 := 0x010
  modeB1 := 0x014
  hasPsetSel := false
  selCopper := 0x020
  selFibre := 0x030
  pmaskCopper := 0x040
  pmaskFibre := 0x048
  pmaskRegs := 2
  swBase := 0x100
  swMirrorOff := 16
  enaBase := 0x200
  enaPpr := 10
  enaFl := 3
  load := none
  modeMax := 15
  swMap := [some 0, some 1, some 2, some 3, some 4, some 5, some 6, some 7]

/-- Family B's layout under EX (R6, R76). -/
def exLayoutB : Layout :=
  { exLayoutA with
    miimClk := none
    plActive := some { off := 0x000, bit := 8 }
    hasPsetSel := true
    load := some { off := 0x220, bit := 0 }
    modeMax := 31
    swMap := [some 0, some 1, some 2, some 3, some 4, some 5, none, some 6] }

/-- EX (R6). -/
def exParams : Params where
  layoutA := exLayoutA
  layoutB := exLayoutB
  psetMaxA := 0
  mode10G := 7
  pollMax := 300
  windowSize := 0x400
  compatTable := [(exCompatA, .family .A), (exCompatB, .family .B), (exCompatC, .placeholder)]
  expVolatile := []

end Sys2Proof.Machine
end

