-- ==== Sys2Proof/Machine/Store.lean ====
section
/-! DEFINITION. Sparse memories: a list of (address, content) pairs in ONE canonical form, addresses
strictly rising and no entry equal to what an unlisted address reads as. The register window, the
software-LED latches, the expander and the binding registry are each one of these. -/

namespace Sys2Proof.Machine

/-- A sparse memory with contents in α. -/
abbrev Store (α : Type) := List (Nat × α)

/-- The content at address `a`; an unlisted address reads as `d`. -/
def Store.read {α : Type} (d : α) : Store α → Nat → α
  | [], _ => d
  | (b, v) :: rest, a => if a = b then v else Store.read d rest a

/-- The list with an entry for `a`, in its place by address. -/
def Store.insert {α : Type} : Store α → Nat → α → Store α
  | [], a, v => [(a, v)]
  | (b, w) :: rest, a, v =>
    if a < b then (a, v) :: (b, w) :: rest
    else if a = b then (a, v) :: rest
    else (b, w) :: Store.insert rest a v

/-- Address `a` holds `v` afterwards; writing what an unlisted address reads as removes the entry. -/
def Store.write {α : Type} [DecidableEq α] (d : α) (m : Store α) (a : Nat) (v : α) : Store α :=
  if v = d then m.filter (fun e => e.1 ≠ a) else Store.insert m a v

/-- The canonical form. -/
abbrev Store.Canonical {α : Type} (d : α) (m : Store α) : Prop :=
  m.Pairwise (fun x y => x.1 < y.1) ∧ ∀ x ∈ m, x.2 ≠ d

end Sys2Proof.Machine
end

