-- ==== Sys2Proof/Machine/State.lean ====
section
/-! DEFINITION. The state of the block (file 10_state.md) as plain data, its reset, and the reasons a
step can stop. INVENTORY.md lists every field with its rule. -/

namespace Sys2Proof.Machine

/-- The ControllerState of R38: what construction fixes once. `validMask` is VALID_PORT_MASK,
`lay` the family's layout. -/
structure Ctl where
  family : Family
  lay : Layout
  portCount : Nat
  ledCount : Nat
  validMask : PortMask
  psetMax : Nat
deriving DecidableEq, Repr

/-- A registration mode of the binding registry (R39). -/
inductive BindMode where
  | none
  | asic
  | user
deriving DecidableEq, Repr

/-- The three lock domains (R41). -/
inductive Domain where
  | global
  | portled
  | miim
deriving DecidableEq, Repr

/-- The phases of an MIIM operation other than IDLE (R40). -/
inductive Phase where
  | latch
  | issueRd
  | issueWr
  | poll
deriving DecidableEq, Repr

/-- The captured operands of an MIIM operation in progress (R40); they exist only while it runs
(R20). A field not captured yet is 0. `sub` is none for NONE. -/
structure Tx where
  phase : Phase
  tgt : BusAddr
  sub : Option BusAddr
  wr : Bool
  dat : Half
  cur : Word := 0
  m : Word := 0
  v : Word := 0
  old : Word := 0
  k : Nat := 0
  last : Word := 0
  tainted : Bool := false
deriving DecidableEq, Repr

/-- ph[c] of R40 with what it captured: IDLE, an MIIM operation, or a raw RA_RMW32 on MIIM_CMD
between its load and its store (R102, R67; log entry 8). -/
inductive Flight where
  | idle
  | miim (t : Tx)
  | rawRmw (msk val old : Word)
deriving DecidableEq, Repr

/-- The status of a response (R190). -/
inductive Status where
  | ok
  | invalidArgument
  | rangeError
  | unsupportedFamily
  | unsupportedOperation
  | busTimeout
deriving DecidableEq, Repr

/-- A response record (R81). -/
structure Response where
  status : Status
  value : BitVec 64
  limit : Byte
  warn : Bool
deriving DecidableEq, Repr

/-- One caller agent (R200): the request it is executing or waiting with, its phase and captured
operands (R40), the response of its last completed operation (R44), and the requests its program
issues next, which come from outside the block (log entry 4). -/
structure Caller where
  req : Option Request
  flight : Flight
  rsp : Response
  queue : List Request
deriving DecidableEq, Repr

/-- The agents of R200: a caller, or the MIIM engine E. -/
inductive Agent where
  | caller (c : Nat)
  | engine
deriving DecidableEq, Repr

/-- The command miimStale remembers: its (PHY, REG, RWOP) (R42). -/
structure Stale where
  tgt : BusAddr
  reg : BusAddr
  wr : Bool
deriving DecidableEq, Repr

/-- The whole state. `window`, `swLatch`, `exp` and `bind` are sparse and canonical; an unlisted
register, latch or expander register reads 0 and an unlisted pair is not bound. -/
structure State where
  /-- the parameters of R6, which no step changes -/
  params : Params
  /-- Reg[o] of R22: the register window, by byte offset -/
  window : Store Word
  /-- swLatch[p] of R37, by port -/
  swLatch : Store Word
  /-- exp[t][r] of R43, at 32 * t + r -/
  exp : Store Half
  /-- bind[p][i] of R39, at 256 * p + i -/
  bind : Store BindMode
  /-- the ControllerState of R38; none is constructed = 0 -/
  ctl : Option Ctl
  /-- the holder of the GLOBAL lock (R41) -/
  globalOwner : Option Nat
  /-- the holder of the PORTLED lock (R41) -/
  portledOwner : Option Nat
  /-- miimOwner of R40, the holder of the MIIM lock -/
  miimOwner : Option Nat
  /-- the caller agents, N_CALLERS of them (R200) -/
  callers : List Caller
  /-- miimStale of R42 -/
  miimStale : Option Stale
  /-- refused of R44 -/
  refused : Bool
  /-- MODEL: the caller whose step this is -/
  cur : Nat
  /-- MODEL: which agent moves at each coming step, any sequence at all (R201) -/
  sched : List Agent
  /-- MODEL: how many free values have been taken (log entry 5) -/
  free : Nat
deriving DecidableEq, Repr

/-- Why a step can stop with a fault. -/
inductive Fault where
  /-- A platform fault during a register access: "a fatal platform condition" (R103, I14). The spec
  gives the model no step for it and no step raises it; it is named so that a claim can say so.
  Safe: a claim then covers only runs without such a fault. -/
  | platform
deriving DecidableEq, Repr

/-- Why a step can stop without a meaning. -/
inductive Refusal where
  /-- raised by exec's arm of an instruction that has no meaning yet; there is none. Safe. -/
  | notModelled (mnemonic : String)
deriving DecidableEq, Repr

/-- What a meaning answers. -/
abbrev Result := Host.Outcome State Fault Refusal

/-- The response OK(v) (R10, R81). -/
def Response.ok (v : BitVec 64) : Response :=
  { status := .ok, value := v, limit := 0, warn := false }

/-- A caller right after reset: idle, nothing to issue. R46 gives ph = IDLE; the response record has
no initial value in the spec and is OK(0) (log entry 1, DESIGN CHOICE, unsafe). -/
def Caller.initial : Caller :=
  { req := none, flight := .idle, rsp := Response.ok 0, queue := [] }

/-- The machine at power-on (R46, R220): no controller, every lock free, every caller idle. The spec
gives no value for the registers, latches and expander; they are 0 (log entry 1, DESIGN CHOICE,
unsafe). The parameters are EX (log entry 3), with its two callers. -/
def State.reset : State where
  params := exParams
  window := []
  swLatch := []
  exp := []
  bind := []
  ctl := none
  globalOwner := none
  portledOwner := none
  miimOwner := none
  callers := [Caller.initial, Caller.initial]
  miimStale := none
  refused := false
  cur := 0
  sched := []
  free := 0

end Sys2Proof.Machine
end

