-- ==== Sys2Proof/Machine/Operands.lean ====
section
/-! DEFINITION. The operand forms: argument encodings (R84–R86), the composition of a command word
(R88) and the field locators of every LED rule (R90–R96). -/

namespace Sys2Proof.Machine

/-- A media plane (R85). -/
inductive Media where
  | copper
  | fibre
deriving DecidableEq, Repr

/-- R85: 0 is COPPER, 1 is FIBRE, any other value is out of range. -/
def mediaOf (b : Byte) : Option Media :=
  if b = 0 then some .copper else if b = 1 then some .fibre else none

/-- R84: a target in 0..31; any other value is out of range. -/
def tgtOf (b : Byte) : Option BusAddr :=
  if b.toNat < 32 then some (b.setWidth 5) else none

/-- R84: a sub-register in 0..31, or 0xFF for NONE (answered as `some none`); any other value is out
of range. -/
def subOf (b : Byte) : Option (Option BusAddr) :=
  if b.toNat < 32 then some (some (b.setWidth 5)) else if b = 0xFF then some none else none

/-- R86, R161: the raw code of a logical software-LED mode, where the family's map has one. -/
def swRaw (L : Layout) (mode : Byte) : Option (BitVec 3) :=
  if mode.toNat ≤ 7 then (L.swMap.getD mode.toNat none) else none

/-- Which bits the issuing RMW engages (R88). -/
def composeMask (L : CmdLayout) (cur : Word) (tgt : BusAddr) (sub : Option BusAddr) (wr : Bool) : Word :=
  mask L.cmdLsb 1 ||| mask L.rwopLsb 1 ||| mask L.phyLsb 5 |||
    (if sub.isSome || phyField L cur != tgt then mask L.regLsb 5 else 0) |||
    (if wr then mask L.dataLsb 16 else 0)

/-- What the issuing RMW writes into them (R88); REG is forced to 0 when no sub-register is given. -/
def composeValue (L : CmdLayout) (tgt : BusAddr) (sub : Option BusAddr) (wr : Bool) (dat : Half) : Word :=
  ((1 : Word) <<< L.cmdLsb) ||| ((if wr then (1 : Word) else 0) <<< L.rwopLsb) |||
    (tgt.setWidth 32 <<< L.phyLsb) |||
    ((sub.getD 0).setWidth 32 <<< L.regLsb) |||
    (if wr then dat.setWidth 32 <<< L.dataLsb else 0)

/-- FL_A(n) in the layout `L` (R30, D16). -/
def flOf (L : Layout) (n : Nat) : Nat := L.flA.getD n 5

/-- FL: Family A's mode-field length for this LED count (R30, D16). -/
def Ctl.modeFl (c : Ctl) : Nat := flOf c.lay c.ledCount

/-- The fields that hold the mode of LED index `i` of set `s`: both copies on Family A (R91), one
field on Family B (R92). -/
def Ctl.modeLoc (c : Ctl) (s i : Nat) : List FieldLoc :=
  match c.family with
  | .A => [{ off := c.lay.modeA, lsb := c.modeFl * i, width := c.modeFl },
      { off := c.lay.modeA, lsb := c.lay.dupOffA + c.modeFl * i, width := c.modeFl }]
  | .B => [{ off := if s / 2 = 0 then c.lay.modeB0 else c.lay.modeB1,
             lsb := 16 * (s % 2) + Config.modeFlB * i, width := Config.modeFlB }]

/-- The mode register of set `s` (R30, R31). -/
def Ctl.modeReg (c : Ctl) (s : Nat) : Nat :=
  match c.family with
  | .A => c.lay.modeA
  | .B => if s / 2 = 0 then c.lay.modeB0 else c.lay.modeB1

/-- SEL_BASE[m] (R6). -/
def Ctl.selBase (c : Ctl) : Media → Nat
  | .copper => c.lay.selCopper
  | .fibre => c.lay.selFibre

/-- PMASK_BASE[m] (R6). -/
def Ctl.pmaskBase (c : Ctl) : Media → Nat
  | .copper => c.lay.pmaskCopper
  | .fibre => c.lay.pmaskFibre

/-- SEL[m][r] (R32). -/
def Ctl.selReg (c : Ctl) (m : Media) (r : Nat) : Nat := c.selBase m + 4 * r

/-- The bit of port `p`'s selector in its register (R93). -/
def selBit (p : Nat) : Nat := Config.selFl * (p % Config.selPpr)

/-- selLoc(m, p) of R93. -/
def Ctl.selLoc (c : Ctl) (m : Media) (p : Nat) : FieldLoc :=
  { off := c.selReg m (p / Config.selPpr), lsb := selBit p, width := Config.selFl }

/-- nSel of R96: the selector registers of a plane. -/
def Ctl.nSel (c : Ctl) : Nat := ceilDiv c.portCount Config.selPpr

/-- SW(p) (R34). -/
def Ctl.swReg (c : Ctl) (p : Nat) : Nat := c.lay.swBase + 4 * p

/-- The bits of LED index `i` in SW(p): one plane, or two on the SW_MIRROR_LOAD family (R94). -/
def Ctl.swLsbs (c : Ctl) (i : Nat) : List Nat :=
  Config.swFl * i :: (if c.lay.load.isSome then [c.lay.swMirrorOff + Config.swFl * i] else [])

/-- swLoc(p, i) of R94. -/
def Ctl.swLoc (c : Ctl) (p i : Nat) : List FieldLoc :=
  (c.swLsbs i).map fun l => { off := c.swReg p, lsb := l, width := Config.swFl }

/-- ENA(r) (R35). -/
def Ctl.enaReg (c : Ctl) (r : Nat) : Nat := c.lay.enaBase + 4 * r

/-- The enable bit of (p, i) in its register (R95). -/
def Ctl.enaBit (c : Ctl) (p i : Nat) : Nat := (p % c.lay.enaPpr) * c.lay.enaFl + i

/-- enaLoc(p, i) of R95. -/
def Ctl.enaLoc (c : Ctl) (p i : Nat) : BitLoc :=
  { off := c.enaReg (p / c.lay.enaPpr), bit := c.enaBit p i }

/-- nEna of R96. -/
def Ctl.nEna (c : Ctl) : Nat := ceilDiv c.portCount c.lay.enaPpr

/-- The ports of register `r` of a table with `ppr` ports per register (R90), those below
PORT_COUNT. -/
def portsOf (ppr portCount r : Nat) : List Nat :=
  ((List.range ppr).map fun j => ppr * r + j).filter (· < portCount)

/-- Bit `p` of a port mask. -/
def portBit (pm : PortMask) (p : Nat) : Bool := pm.getLsbD p

/-- mr of R141: the selector fields in register `r` of the ports in `pm`. -/
def selMask (pm : PortMask) (portCount r : Nat) : Word :=
  (portsOf Config.selPpr portCount r).foldl
    (fun acc p => if portBit pm p then acc ||| ((0x3 : Word) <<< selBit p) else acc) 0

/-- vr of R141: `pset` in each of those fields. -/
def selValue (pm : PortMask) (portCount r : Nat) (pset : Byte) : Word :=
  (portsOf Config.selPpr portCount r).foldl
    (fun acc p => if portBit pm p then acc ||| (pset.setWidth 32 <<< selBit p) else acc) 0

/-- The ports of register `r` that are valid and whose selector in `w` is `pset` (R142). -/
def selMembers (valid : PortMask) (portCount r : Nat) (w : Word) (pset : Byte) (acc : PortMask) : PortMask :=
  (portsOf Config.selPpr portCount r).foldl
    (fun acc p =>
      if portBit valid p && fld w (selBit p) Config.selFl == pset.setWidth 32
      then acc ||| ((1 : PortMask) <<< p) else acc) acc

/-- The bits of LED index `i` in every plane of SW(p) (R162, R164). -/
def Ctl.swMask (c : Ctl) (i : Nat) : Word :=
  (c.swLsbs i).foldl (fun acc l => acc ||| mask l Config.swFl) 0

/-- The raw code in every plane of SW(p) (R162). -/
def Ctl.swValue (c : Ctl) (i : Nat) (raw : BitVec 3) : Word :=
  (c.swLsbs i).foldl (fun acc l => acc ||| (raw.setWidth 32 <<< l)) 0

/-- Every software-LED field of one SW register (R164). -/
def Ctl.swMaskAll (c : Ctl) : Word :=
  (List.range c.ledCount).foldl (fun acc i => acc ||| c.swMask i) 0

/-- Every enable bit of ENA(r) (R164). -/
def Ctl.enaMaskAll (c : Ctl) (r : Nat) : Word :=
  (portsOf c.lay.enaPpr c.portCount r).foldl
    (fun acc p => (List.range c.ledCount).foldl (fun acc i => acc ||| ((1 : Word) <<< c.enaBit p i)) acc) 0

/-- The key of exp[t][r] (R43). -/
def expKey (t r : BusAddr) : Nat := 32 * t.toNat + r.toNat

/-- The key of bind[p][i] (R39), for a port and an LED index of the request record. -/
def bindKey (port led : Byte) : Nat := 256 * port.toNat + led.toNat

/-- COMPAT_TABLE(s) (R180): none is "no match". -/
def compatLookup (P : Params) (s : List Byte) : Option CompatEntry :=
  (P.compatTable.find? fun e => e.1 == s).map (·.2)

end Sys2Proof.Machine
end

