-- ==== Sys2Proof/Machine/Flags.lean ====
section
/-! DEFINITION. The status codes and responses of R81 and R190, and the flags of R45: busy, the
registration modes and warnings, and what makes a completion tainted. -/

namespace Sys2Proof.Machine

/-- The numeric code of a status (R190). -/
def Status.code : Status → Nat
  | .ok => 0
  | .invalidArgument => 1
  | .rangeError => 2
  | .unsupportedFamily => 3
  | .unsupportedOperation => 4
  | .busTimeout => 5

/-- An error without detail: value, limit and warn are 0 (R190). -/
def Response.error (st : Status) : Response := { status := st, value := 0, limit := 0, warn := false }

/-- RangeError, reported with the offending limit PSET_MAX (R190). -/
def Response.range (psetMax : Nat) : Response :=
  { status := .rangeError, value := 0, limit := BitVec.ofNat 8 psetMax, warn := false }

/-- OK with a warning (R194). -/
def Response.warned : Response := { status := .ok, value := 0, limit := 0, warn := true }

/-- A caller by number; a number past N_CALLERS names no agent and stands for an idle one. -/
def State.caller (s : State) (c : Nat) : Caller := s.callers.getD c Caller.initial

/-- The MIIM lock holder has tx_tainted = 1 (R42, R119). -/
def State.holderTainted (s : State) : Bool :=
  match s.miimOwner with
  | none => false
  | some c =>
    match (s.caller c).flight with
    | .idle => false
    | .miim t => t.tainted
    | .rawRmw _ _ _ => false

/-- An engine completion now is the tainted completion of R119: a stale command may be pending, or the
lock holder is tainted. -/
def State.tainted (s : State) : Bool := s.miimStale.isSome || s.holderTainted

end Sys2Proof.Machine
end

