-- ==== Sys2Proof/Machine/Layout.lean ====
section
/-! DEFINITION. Which registers a constructed controller has and which lock guards each (R23, R41), and
the constraints of R7 that a configuration must satisfy. -/

namespace Sys2Proof.Machine

/-- The registers of the global group (R24–R27); fields may share one. -/
def Ctl.globalRegs (c : Ctl) : List Nat :=
  c.lay.miimEn.off :: c.lay.sysLedEn.off ::
    ((c.lay.miimClk.map (·.off)).toList ++ (c.lay.plActive.map (·.off)).toList)

/-- The mode registers of the family (R30, R31). -/
def Ctl.modeRegs (c : Ctl) : List Nat :=
  match c.family with
  | .A => [c.lay.modeA]
  | .B => [c.lay.modeB0, c.lay.modeB1]

/-- `n` registers from offset `base` up. -/
def regsFrom (base n : Nat) : List Nat := (List.range n).map fun r => base + 4 * r

/-- The registers of the port-LED group but for the load register (R30–R35). -/
def Ctl.ledRegs (c : Ctl) : List Nat :=
  c.modeRegs ++
    (if c.lay.hasPsetSel then regsFrom c.lay.selCopper c.nSel ++ regsFrom c.lay.selFibre c.nSel else []) ++
    (regsFrom c.lay.pmaskCopper c.lay.pmaskRegs ++ regsFrom c.lay.pmaskFibre c.lay.pmaskRegs) ++
    regsFrom c.lay.swBase c.portCount ++ regsFrom c.lay.enaBase c.nEna

/-- The registers of the port-LED group (R30–R36). -/
def Ctl.portledRegs (c : Ctl) : List Nat := c.ledRegs ++ (c.lay.load.map (·.off)).toList

/-- The lock domain of the register at an offset (R23, R41); none where the layout has no register. -/
def Ctl.domainOf (c : Ctl) (o : Nat) : Option Domain :=
  if o ∈ c.globalRegs then some .global
  else if o = c.lay.miimCmd then some .miim
  else if o ∈ c.portledRegs then some .portled
  else none

/-- The layout has a register at this offset (R76, I11; log entry 15). -/
def Ctl.isReg (c : Ctl) (o : Nat) : Bool := (c.domainOf o).isSome

/-- The register that holds the load strobe (R36). -/
def Ctl.isLoad (c : Ctl) (o : Nat) : Bool := c.lay.load.any fun l => l.off == o

/-- Writing `v` at `o` sets the LOAD bit (R65, R101). -/
def Ctl.strobes (c : Ctl) (o : Nat) (v : Word) : Bool :=
  c.lay.load.any fun l => l.off == o && v.getLsbD l.bit

/-- An RMW of `o` under `m` writes the LOAD bit itself, so what that bit reads as is of no consequence. -/
def Ctl.engagesLoad (c : Ctl) (o : Nat) (m : Word) : Bool :=
  c.lay.load.any fun l => l.off == o && m.getLsbD l.bit

/-- An offset that a primitive access may use (R64): a multiple of 4 inside the window. -/
def offsetOk (P : Params) (o : Nat) : Bool := o % 4 == 0 && decide (o < P.windowSize)

/-- The 1-bit and clock fields of the global group lie inside their 32-bit registers and do not
overlap (R24–R27; DEDUCED, log entry 13). -/
def Ctl.globalFields (c : Ctl) : List FieldLoc :=
  { off := c.lay.miimEn.off, lsb := c.lay.miimEn.bit, width := 1 } ::
    { off := c.lay.sysLedEn.off, lsb := c.lay.sysLedEn.bit, width := 1 } ::
    (c.lay.miimClk.toList ++
      (c.lay.plActive.map fun l => { off := l.off, lsb := l.bit, width := 1 }).toList)

/-- Two fields share no bit. -/
abbrev fieldsApart (f g : FieldLoc) : Prop :=
  f.off ≠ g.off ∨ f.lsb + f.width ≤ g.lsb ∨ g.lsb + g.width ≤ f.lsb

/-- R7's constraints on MODE_MAX, of both families whichever is constructed. -/
def modeMaxOk (P : Params) (ledCount : Nat) : Bool :=
  decide (P.layoutA.modeMax < 2 ^ flOf P.layoutA ledCount ∧ P.layoutB.modeMax < 2 ^ Config.modeFlB)

/-- R7's constraints on the counts and on the layout's field widths. -/
def Ctl.widthsOk (P : Params) (c : Ctl) : Bool :=
  decide (3 ≤ c.portCount ∧ c.portCount ≤ 52 ∧ c.ledCount ≤ 3 ∧ P.psetMaxA ≤ 2 ∧ 1 ≤ P.pollMax) &&
    (match c.family with
      | .A => decide (c.modeFl * c.ledCount ≤ c.lay.dupOffA ∧
          c.lay.dupOffA + c.modeFl * c.ledCount ≤ 32)
      | .B => true) &&
    modeMaxOk P c.ledCount &&
    decide (Config.swFl * c.ledCount ≤ c.lay.swMirrorOff ∧
      c.lay.swMirrorOff + Config.swFl * c.ledCount ≤ 32) &&
    decide (c.ledCount ≤ c.lay.enaFl ∧ 1 ≤ c.lay.enaPpr ∧ c.lay.enaPpr * c.lay.enaFl ≤ 32) &&
    cmdLayoutOk c.lay.cmd

/-- R7's constraints on where the registers and the global fields lie. -/
def Ctl.placesOk (P : Params) (c : Ctl) : Bool :=
  (c.globalRegs ++ c.lay.miimCmd :: c.portledRegs).all (offsetOk P) &&
    decide ((c.lay.miimCmd :: c.portledRegs).Nodup) &&
    c.globalRegs.all (fun o => decide (o ∉ c.lay.miimCmd :: c.portledRegs)) &&
    c.globalFields.all (fun f => decide (f.lsb + f.width ≤ 32)) &&
    decide (c.globalFields.Pairwise fieldsApart) &&
    c.lay.load.all (fun l => decide (l.bit < 32))

/-- R7's constraints on SW_MAP: OFF has raw code 0 and no code is used twice. -/
def swMapOk (L : Layout) : Bool :=
  L.swMap.getD 0 none == some 0 && decide ((L.swMap.filterMap id).Nodup)

/-- A controller whose configuration satisfies R7 (log entry 13); SW_MAP is checked for both families. -/
def Ctl.ok (P : Params) (c : Ctl) : Bool :=
  c.widthsOk P && c.placesOk P && (swMapOk P.layoutA && swMapOk P.layoutB)

end Sys2Proof.Machine
end

