-- ==== Sys2Proof/Machine/Ops.lean ====
section
/-! DEFINITION. The named operations over the state: free values, the register window and the three
primitives (R100–R102), the commit (R165), the locks (R41, R66), responses and refusals (R11, R81), and
the frame every operation runs in. The block has no trap (R196): an error is the status an operation
returns, so "taking an exception" here is `respond` with an error status. -/

namespace Sys2Proof.Machine

/-! ### Free values (log entry 5) -/

/-- One free value has been taken. -/
def State.tick (s : State) : State := { s with free := s.free + 1 }

/-- The free 32-bit value a step takes now. -/
def State.freeWord (s : State) : Word := Config.anyWord s.free

/-- The free 16-bit value a step takes now. -/
def State.freeHalf (s : State) : Half := Config.anyHalf s.free

/-- The free bit a step takes now. -/
def State.freeBit (s : State) : Bool := Config.anyBit s.free

/-! ### The register window -/

/-- Reg[o]: what the register at `o` holds (R10). -/
def State.peek (s : State) (o : Nat) : Word := s.window.read 0 o

/-- Reg[o] <- v. -/
def State.poke (s : State) (o : Nat) (v : Word) : State := { s with window := s.window.write 0 o v }

/-- What a read returns where the LOAD bit is not in question: the register, or any value at an
offset without one (R76, I11). -/
def State.plainRead (s : State) (c : Ctl) (o : Nat) : Word := if c.isReg o then s.peek o else s.freeWord

/-- What a read of `o` returns: in the load register the LOAD bit is any value (R36, I5; log
entry 23). -/
def State.readValue (s : State) (c : Ctl) (o : Nat) : Word :=
  match c.lay.load with
  | some l => if l.off = o then putBit (s.peek o) l.bit s.freeBit else s.plainRead c o
  | none => s.plainRead c o

/-- A read has no side effect (R65) but for the free value it may take. -/
def State.afterRead (s : State) (c : Ctl) (o : Nat) : State :=
  if c.isLoad o then s.tick else if c.isReg o then s else s.tick

/-- Every port's latch takes SW(p) (R165). -/
def State.latchAll (s : State) (c : Ctl) : State :=
  { s with
    swLatch := (List.range c.portCount).foldl (fun m p => m.write 0 p (s.peek (c.swReg p))) s.swLatch }

/-- A write stores its value, and one that sets the LOAD bit commits (R65, R101); an offset without
a register then holds any value (I11). -/
def State.writeReg (s : State) (c : Ctl) (o : Nat) (v : Word) : State :=
  if c.isReg o then
    if c.strobes o v then (s.poke o v).latchAll c else s.poke o v
  else (s.poke o s.freeWord).tick

/-- RMW(o, m, v) of R102 as one step: load, merge, store. The LOAD bit that was read is of consequence
only where the mask does not replace it. -/
def State.rmw (s : State) (c : Ctl) (o : Nat) (m v : Word) : State :=
  if c.engagesLoad o m then s.writeReg c o (mergeBits (s.peek o) m v)
  else (s.afterRead c o).writeReg c o (mergeBits (s.readValue c o) m v)

/-- commit() of R165; nothing on the family without the load step. The strobe's write latches. -/
def State.commit (s : State) (c : Ctl) : State :=
  match c.lay.load with
  | none => s
  | some l => s.rmw c l.off (mask l.bit 1) ((1 : Word) <<< l.bit)

/-! ### The callers -/

/-- The caller whose step this is. -/
def State.me (s : State) : Caller := s.caller s.cur

/-- Its record, changed. -/
def State.setMe (s : State) (f : Caller → Caller) : State :=
  { s with callers := s.callers.modify s.cur f }

/-- The operation returns: its caller has the response and is idle again (R10, R44, R196). -/
def State.respond (s : State) (r : Response) : State :=
  s.setMe fun k => { k with req := none, flight := .idle, rsp := r }

/-- The request is refused (R11, R83): the mark is set, no status is returned and nothing else
changes; its caller is done with it (log entry 11). -/
def State.refuse (s : State) : State :=
  { s.setMe (fun k => { k with req := none }) with refused := true }

/-- The operation goes on at its caller's next step, with this captured (R40). -/
def State.continueAs (s : State) (fl : Flight) : State := s.setMe fun k => { k with flight := fl }

/-! ### The locks (R41) -/

/-- The holder of a domain's lock. -/
def State.owner (s : State) : Domain → Option Nat
  | .global => s.globalOwner
  | .portled => s.portledOwner
  | .miim => s.miimOwner

/-- The lock of a domain with another holder. -/
def State.setOwner (s : State) (d : Domain) (o : Option Nat) : State :=
  match d with
  | .global => { s with globalOwner := o }
  | .portled => { s with portledOwner := o }
  | .miim => { s with miimOwner := o }

/-- acquire(L) of R10, when L is free. -/
def State.acquire (s : State) (d : Domain) : State := s.setOwner d (some s.cur)

/-- release(L) of R10. -/
def State.release (s : State) (d : Domain) : State := s.setOwner d none

/-- R66: an operation under a lock is one step, enabled only while the lock is free; a caller whose
lock is held waits, and nothing changes (log entries 18, 19). -/
def State.withLock (s : State) (d : Domain) (body : State → State) : State :=
  match s.owner d with
  | some _ => s
  | none => (body (s.acquire d)).release d

/-- A primitive access takes its register's lock around itself (R104); an offset without a register
has no lock. -/
def State.withLockOf (s : State) (c : Ctl) (o : Nat) (body : State → State) : State :=
  match c.domainOf o with
  | some d => s.withLock d body
  | none => body s

/-! ### What every operation begins with -/

/-- A caller starts an operation when it is idle (R21); before construction every operation but
CTL_CONSTRUCT is refused (R38). A caller inside another operation does not start one. -/
def State.start (s : State) (body : Ctl → State) : State :=
  match s.me.flight with
  | .idle =>
    match s.ctl with
    | none => s.refuse
    | some c => body c
  | .miim _ => s
  | .rawRmw _ _ _ => s

/-! ### The expander (R125) -/

/-- ExpRead(t, r): the stored value, or any value where EXPANDER says the register is volatile. -/
def State.expRead (s : State) (t r : BusAddr) : Half :=
  if expKey t r ∈ s.params.expVolatile then s.freeHalf else s.exp.read 0 (expKey t r)

/-- Reading takes a free value only from a volatile register. -/
def State.afterExpRead (s : State) (t r : BusAddr) : State :=
  if expKey t r ∈ s.params.expVolatile then s.tick else s

/-- ExpWrite(t, r, d). -/
def State.expWrite (s : State) (t r : BusAddr) (d : Half) : State :=
  { s with exp := s.exp.write 0 (expKey t r) d }

/-! ### The registry (R39) -/

/-- bind[p][i]. -/
def State.binding (s : State) (port led : Byte) : BindMode := s.bind.read .none (bindKey port led)

/-- bind[p][i] <- b. -/
def State.setBinding (s : State) (port led : Byte) (b : BindMode) : State :=
  { s with bind := s.bind.write .none (bindKey port led) b }

/-! ### The software-LED observation (R37, R167) -/

/-- Who drives an LED (R167). -/
inductive LedSource where
  | asic
  | user
deriving DecidableEq, Repr

/-- What an observer sees of an LED: the ASIC's own display (I8), a pattern by its raw code, or an
unspecified pattern when the code is not one of the family's (I9). -/
inductive Shown where
  | asic
  | pattern (raw : BitVec 3)
  | unspecified
deriving DecidableEq, Repr

/-- The enable bit of (p, i) (R35). -/
def State.enabled (s : State) (c : Ctl) (p i : Nat) : Bool :=
  fld (s.peek (c.enaLoc p i).off) (c.enaLoc p i).bit 1 == 1

/-- The word whose plane 0 the LEDs of port `p` follow: the latch on the load family, SW(p) on the
other (R37). -/
def State.shownWord (s : State) (c : Ctl) (p : Nat) : Word :=
  if c.lay.load.isSome then s.swLatch.read 0 p else s.peek (c.swReg p)

/-- The state (src, pat) of one software LED (R167). -/
def State.ledState (s : State) (c : Ctl) (p i : Nat) : LedSource × BitVec 3 :=
  (if s.enabled c p i then .user else .asic,
    (fld (s.shownWord c p) (Config.swFl * i) Config.swFl).setWidth 3)

/-- The displayed pattern of (p, i) (R37, R167). -/
def State.shown (s : State) (c : Ctl) (p i : Nat) : Shown :=
  match s.ledState c p i with
  | (.asic, _) => .asic
  | (.user, pat) => if some pat ∈ c.lay.swMap then .pattern pat else .unspecified

end Sys2Proof.Machine
end

