-- ==== Sys2Proof/Machine/Engine.lean ====
section
/-! DEFINITION. The MIIM engine agent (R118, R119): it executes the command word in MIIM_CMD, whatever
MIIM_EN holds (R124). -/

namespace Sys2Proof.Machine

/-- The command the engine would execute now (R87, R118): none before construction (log entry 10) or
while CMD = 0, when the engine has no step. -/
def State.engineCommand (s : State) : Option Instr :=
  s.ctl.bind fun c => (decodeCommand c.lay.cmd (s.peek c.lay.miimCmd)).instr?

/-- R118 for a write command: the expander register takes DATA and the strobe clears. -/
def engineWrite (c : Ctl) (t r : BusAddr) (data : Half) (s : State) : State :=
  (s.expWrite t r data).poke c.lay.miimCmd (clearCmd c.lay.cmd (s.peek c.lay.miimCmd))

/-- R118 for a read command: DATA takes the expander register and the strobe clears. -/
def engineRead (c : Ctl) (t r : BusAddr) (s : State) : State :=
  (s.afterExpRead t r).poke c.lay.miimCmd
    (clearCmd c.lay.cmd (putData c.lay.cmd (s.peek c.lay.miimCmd) (s.expRead t r)))

/-- One cell of the expander becomes any value (R119). -/
def scrambleCell (t r : BusAddr) (s : State) : State := (s.expWrite t r s.freeHalf).tick

/-- The cell of the command in the word becomes any value if it is a write (R119). -/
def scrambleIfWrite (wr : Bool) (t r : BusAddr) (s : State) : State :=
  if wr then scrambleCell t r s else s

/-- The cell the stale command names becomes any value if that is a write (R119). -/
def scrambleStale (s : State) : State :=
  match s.miimStale with
  | none => s
  | some x => scrambleIfWrite x.wr x.tgt x.reg s

/-- MIIM_CMD after a completion whose data is any value: DATA is free and the strobe clear (R119). -/
def anyData (c : Ctl) (s : State) : State :=
  s.tick.poke c.lay.miimCmd (clearCmd c.lay.cmd (putData c.lay.cmd (s.peek c.lay.miimCmd) s.freeHalf))

/-- R119: the tainted completion of the command (wr, t, r). -/
def engineTainted (c : Ctl) (wr : Bool) (t r : BusAddr) (s : State) : State :=
  scrambleStale (scrambleIfWrite wr t r (anyData c s))

/-- How many expander registers there are: 32 targets of 32 sub-registers (R43). Irreducible, so that no
elaboration counts to it. -/
@[irreducible] def expCells : Nat := 1024

/-- Every expander register becomes any value, each its own (I4). -/
def scrambleAll (s : State) : State :=
  { s with
    exp := (List.range expCells).foldl (fun m k => m.write 0 k (Config.anyHalf (s.free + k))) s.exp
    free := s.free + expCells }

/-- I4: a completion with a reserved bit at 1 gives "any data and any expander effect" (log
entry 14). -/
def engineReserved (c : Ctl) (s : State) : State := scrambleAll (anyData c s)

/-- The completion of the command (wr, t, r): `body` where R118 applies as it stands. -/
def engineComplete (c : Ctl) (wr : Bool) (t r : BusAddr) (rsv : Word) (s body : State) : State :=
  if rsv ≠ 0 then engineReserved c s else if s.tainted then engineTainted c wr t r s else body

/-- The engine's step on the command `i`, when MIIM_CMD holds it; the engine has no other step. -/
def State.engineStep (s : State) (i : Instr) (body : Ctl → State) : State :=
  match s.ctl with
  | none => s
  | some c => if s.engineCommand = some i then body c else s

/-- R118, R119. The engine executes a read command (opcode-table row MIIM_CMD_READ). -/
def execMiimCmdRead (data : Half) (reg phy : BusAddr) (rsv : Word) (s : State) : Result :=
  .next <| s.engineStep (.miimCmdRead data reg phy rsv) fun c =>
    engineComplete c false phy reg rsv s (engineRead c phy reg s)

/-- R118, R119. The engine executes a write command (opcode-table row MIIM_CMD_WRITE). -/
def execMiimCmdWrite (data : Half) (reg phy : BusAddr) (rsv : Word) (s : State) : Result :=
  .next <| s.engineStep (.miimCmdWrite data reg phy rsv) fun c =>
    engineComplete c true phy reg rsv s (engineWrite c phy reg data s)

end Sys2Proof.Machine
end

