-- ==== Sys2Proof/Machine/Miim.lean ====
section
/-! DEFINITION. The MIIM transaction controller (41_miim.md): the administrative operations and the
phases of MIIM_READ and MIIM_WRITE, one access of MIIM_CMD a step (R67). -/

namespace Sys2Proof.Machine

/-- R110. MIIM_ENABLE. -/
def execMiimEnable (s : State) : Result :=
  .next <| s.start fun c => s.withLock .global fun s =>
    (s.rmw c c.lay.miimEn.off (mask c.lay.miimEn.bit 1) ((1 : Word) <<< c.lay.miimEn.bit)).respond (.ok 0)

/-- R111. MIIM_SET_CLOCK. -/
def execMiimSetClock (mode : Byte) (s : State) : Result :=
  .next <| s.start fun c => s.withLock .global fun s =>
    match c.lay.miimClk with
    | none => s.respond (.ok 0)
    | some f => (s.rmw c f.off (mask f.lsb f.width) (mode.setWidth 32 <<< f.lsb)).respond (.ok 0)

/-- R112: the invocation step. The arguments are checked before the lock; a valid request waits
while the lock is held (log entry 9). -/
def miimInvoke (tgt sub : Byte) (wr : Bool) (dat : Half) (s : State) : State :=
  match tgtOf tgt with
  | none => s.respond (.error .invalidArgument)
  | some t =>
    match subOf sub with
    | none => s.respond (.error .invalidArgument)
    | some r =>
      match s.owner .miim with
      | some _ => s
      | none => (s.acquire .miim).continueAs (.miim { phase := .latch, tgt := t, sub := r, wr, dat })

/-- R113: the LATCH step. -/
def miimLatch (c : Ctl) (t : Tx) (s : State) : State :=
  let cur := s.peek c.lay.miimCmd
  let tainted := cmdBit c.lay.cmd cur
  let s := if tainted then s else { s with miimStale := none }
  s.continueAs (.miim { t with
    phase := .issueRd, cur, tainted
    m := composeMask c.lay.cmd cur t.tgt t.sub t.wr
    v := composeValue c.lay.cmd t.tgt t.sub t.wr t.dat })

/-- R114: the read of the issuing RMW. -/
def miimIssueRead (c : Ctl) (t : Tx) (s : State) : State :=
  s.continueAs (.miim { t with phase := .issueWr, old := s.peek c.lay.miimCmd })

/-- R114: its write. -/
def miimIssueWrite (c : Ctl) (t : Tx) (s : State) : State :=
  (s.writeReg c c.lay.miimCmd (mergeBits t.old t.m t.v)).continueAs (.miim { t with phase := .poll, k := 0 })

/-- R117: completion; the data of a tainted read is any value. -/
def miimComplete (c : Ctl) (t : Tx) (last : Word) (s : State) : State :=
  if t.wr then (s.release .miim).respond (.ok 0)
  else if t.tainted then (s.tick.release .miim).respond (.ok (s.freeHalf.setWidth 64))
  else (s.release .miim).respond (.ok ((dataField c.lay.cmd last).setWidth 64))

/-- R116: the timeout; the command stays in MIIM_CMD. -/
def miimTimeout (c : Ctl) (last : Word) (s : State) : State :=
  ({ s with miimStale := some {
      tgt := phyField c.lay.cmd last, reg := regField c.lay.cmd last, wr := rwopBit c.lay.cmd last } }.release
    .miim).respond (.error .busTimeout)

/-- R115: one poll. -/
def miimPoll (c : Ctl) (t : Tx) (s : State) : State :=
  let last := s.peek c.lay.miimCmd
  if cmdBit c.lay.cmd last then
    if t.k + 1 = s.params.pollMax then miimTimeout c last s
    else s.continueAs (.miim { t with k := t.k + 1, last })
  else miimComplete c t last s

/-- The step of the phase a transaction is in. -/
def miimPhaseStep (c : Ctl) (t : Tx) (s : State) : State :=
  match t.phase with
  | .latch => miimLatch c t s
  | .issueRd => miimIssueRead c t s
  | .issueWr => miimIssueWrite c t s
  | .poll => miimPoll c t s

/-- The step of a transaction in progress in the direction `wr`. -/
def miimContinue (wr : Bool) (t : Tx) (s : State) : State :=
  match s.ctl with
  | none => s
  | some c => if t.wr = wr then miimPhaseStep c t s else s

/-- R120. MIIM_READ: the invocation, or the next phase of the read in progress. -/
def execMiimRead (tgt sub : Byte) (s : State) : Result :=
  .next <|
    match s.me.flight with
    | .idle => s.start fun _ => miimInvoke tgt sub false 0 s
    | .miim t => miimContinue false t s
    | .rawRmw _ _ _ => s

/-- R121. MIIM_WRITE: the invocation, or the next phase of the write in progress. -/
def execMiimWrite (tgt sub : Byte) (data : Half) (s : State) : Result :=
  .next <|
    match s.me.flight with
    | .idle => s.start fun _ => miimInvoke tgt sub true data s
    | .miim t => miimContinue true t s
    | .rawRmw _ _ _ => s

end Sys2Proof.Machine
end

