-- ==== Sys2Proof/Machine/PortLed.lean ====
section
/-! DEFINITION. The port-LED mode and set-membership mapper (42_port_led.md, R140–R144). Each operation
under PORTLED takes the lock, validates in the order of R192, and makes its accesses in one step. -/

namespace Sys2Proof.Machine

/-- R140. PL_ACTIVATE. -/
def execPlActivate (s : State) : Result :=
  .next <| s.start fun c =>
    match c.lay.plActive with
    | none => s.respond (.ok 0)
    | some l => s.withLock .global fun s =>
      (s.rmw c l.off (mask l.bit 1) ((1 : Word) <<< l.bit)).respond (.ok 0)

/-- The checks PL_SET_PSET_MEMBERSHIP and PL_GET_PSET_MEMBERSHIP share, in R192's order; `body` runs
with the media plane. -/
def psetChecks (c : Ctl) (pset media : Byte) (s : State) (body : Media → State) : State :=
  if c.lay.hasPsetSel then
    if pset.toNat ≤ c.psetMax then
      match mediaOf media with
      | some m => body m
      | none => s.respond (.error .invalidArgument)
    else s.respond (.range c.psetMax)
  else s.respond (.error .unsupportedOperation)

/-- One selector register of R141's loop: an RMW if a port of `pm` lies in it. -/
def setSelReg (c : Ctl) (m : Media) (pm : PortMask) (pset : Byte) (s : State) (r : Nat) : State :=
  if selMask pm c.portCount r = 0 then s
  else s.rmw c (c.selReg m r) (selMask pm c.portCount r) (selValue pm c.portCount r pset)

/-- R141. PL_SET_PSET_MEMBERSHIP. -/
def execPlSetPset (pset : Byte) (pmask : PortMask) (media : Byte) (s : State) : Result :=
  .next <| s.start fun c => s.withLock .portled fun s =>
    psetChecks c pset media s fun m =>
      ((List.range c.nSel).foldl (setSelReg c m (pmask &&& c.validMask) pset) s).respond (.ok 0)

/-- One selector register of R142's loop: read once, its members added to the result. -/
def getSelReg (c : Ctl) (m : Media) (pset : Byte) (acc : State × PortMask) (r : Nat) : State × PortMask :=
  (acc.1.afterRead c (c.selReg m r),
    selMembers c.validMask c.portCount r (acc.1.readValue c (c.selReg m r)) pset acc.2)

/-- R142. PL_GET_PSET_MEMBERSHIP. -/
def execPlGetPset (pset media : Byte) (s : State) : Result :=
  .next <| s.start fun c => s.withLock .portled fun s =>
    psetChecks c pset media s fun m =>
      let res := (List.range c.nSel).foldl (getSelReg c m pset) (s, 0)
      res.1.respond (.ok res.2)

/-- The bits of a mode write: the field, on Family A both copies (R143). -/
def Ctl.modeMask (c : Ctl) (pset led : Nat) : Word :=
  (c.modeLoc pset led).foldl (fun acc f => acc ||| mask f.lsb f.width) 0

/-- The mode in each of those fields (R143). -/
def Ctl.modeValue (c : Ctl) (pset led : Nat) (mode : Byte) : Word :=
  (c.modeLoc pset led).foldl (fun acc f => acc ||| (mode.setWidth 32 <<< f.lsb)) 0

/-- The checks of PL_SET_LED_MODE in R192's order: the 10-gigabit code first on Family A. -/
def setModeError (P : Params) (c : Ctl) (pset led mode : Byte) : Option Response :=
  if c.family = .A ∧ mode.toNat = P.mode10G then some (.error .invalidArgument)
  else if c.psetMax < pset.toNat then some (.range c.psetMax)
  else if c.ledCount ≤ led.toNat then some (.error .invalidArgument)
  else if c.lay.modeMax < mode.toNat then some (.error .invalidArgument)
  else none

/-- R143. PL_SET_LED_MODE. -/
def execPlSetMode (pset led mode : Byte) (s : State) : Result :=
  .next <| s.start fun c => s.withLock .portled fun s =>
    match setModeError s.params c pset led mode with
    | some e => s.respond e
    | none => (s.rmw c (c.modeReg pset.toNat) (c.modeMask pset.toNat led.toNat)
        (c.modeValue pset.toNat led.toNat mode)).respond (.ok 0)

/-- The lowest bit and the width of the field a mode read reports: copy 0 on Family A (R144). -/
def Ctl.modeReadLoc (c : Ctl) (pset led : Nat) : FieldLoc :=
  (c.modeLoc pset led).headD { off := 0, lsb := 0, width := 0 }

/-- The checks of PL_GET_LED_MODE in R192's order. -/
def getModeError (c : Ctl) (pset led : Byte) : Option Response :=
  if c.psetMax < pset.toNat then some (.range c.psetMax)
  else if c.ledCount ≤ led.toNat then some (.error .invalidArgument)
  else none

/-- R144. PL_GET_LED_MODE. -/
def execPlGetMode (pset led : Byte) (s : State) : Result :=
  .next <| s.start fun c => s.withLock .portled fun s =>
    match getModeError c pset led with
    | some e => s.respond e
    | none =>
      let f := c.modeReadLoc pset.toNat led.toNat
      (s.afterRead c f.off).respond (.ok ((fld (s.readValue c f.off) f.lsb f.width).setWidth 64))

end Sys2Proof.Machine
end

