-- ==== Sys2Proof/Machine/RegisterAccess.lean ====
section
/-! DEFINITION. The register access primitives as requests (40_register_access.md, R100–R104; log
entries 8 and 22). -/

namespace Sys2Proof.Machine

/-- R100. RA_READ32. -/
def execRaRead32 (off : Word) (s : State) : Result :=
  .next <| s.start fun c =>
    if offsetOk s.params off.toNat then
      s.withLockOf c off.toNat fun s =>
        (s.afterRead c off.toNat).respond (.ok ((s.readValue c off.toNat).setWidth 64))
    else s.refuse

/-- R101. RA_WRITE32. -/
def execRaWrite32 (off val : Word) (s : State) : Result :=
  .next <| s.start fun c =>
    if offsetOk s.params off.toNat then
      s.withLockOf c off.toNat fun s => (s.writeReg c off.toNat val).respond (.ok 0)
    else s.refuse

/-- The load step of a raw RMW on MIIM_CMD (R102, R67): the lock is taken and kept. -/
def rawRmwLoad (c : Ctl) (msk val : Word) (s : State) : State :=
  match s.owner .miim with
  | some _ => s
  | none => (s.acquire .miim).continueAs (.rawRmw msk val (s.peek c.lay.miimCmd))

/-- Its store step: the lock is released (R104). -/
def rawRmwStore (c : Ctl) (msk val old : Word) (s : State) : State :=
  ((s.writeReg c c.lay.miimCmd (mergeBits old msk val)).release .miim).respond (.ok 0)

/-- R102. RA_RMW32: one step, or on MIIM_CMD a load step and a store step. -/
def execRaRmw32 (off msk val : Word) (s : State) : Result :=
  .next <|
    match s.me.flight with
    | .idle =>
      s.start fun c =>
        if offsetOk s.params off.toNat then
          if c.domainOf off.toNat = some .miim then rawRmwLoad c msk val s
          else s.withLockOf c off.toNat fun s => (s.rmw c off.toNat msk val).respond (.ok 0)
        else s.refuse
    | .miim _ => s
    | .rawRmw m v old =>
      match s.ctl with
      | none => s
      | some c => rawRmwStore c m v old s

end Sys2Proof.Machine
end

