-- ==== Sys2Proof/Machine/UserLed.lean ====
section
/-! DEFINITION. The software-LED engine (43_user_led.md, R160–R167). -/

namespace Sys2Proof.Machine

/-- The range check of the software-LED operations: port, then LED index (R162, R163). -/
def Ctl.inRange (c : Ctl) (port led : Byte) : Bool :=
  decide (port.toNat < c.portCount) && decide (led.toNat < c.ledCount)

/-- R162. PL_SET_USER_MODE: the write and the commit are one step (R166). -/
def execPlSetUserMode (port led mode : Byte) (s : State) : Result :=
  .next <| s.start fun c => s.withLock .portled fun s =>
    if c.inRange port led then
      match swRaw c.lay mode with
      | none => s.respond (.error .invalidArgument)
      | some raw => ((s.rmw c (c.swReg port.toNat) (c.swMask led.toNat)
          (c.swValue led.toNat raw)).commit c).respond (.ok 0)
    else s.respond (.error .invalidArgument)

/-- The write of one enable bit (R163, R182, R183). -/
def State.writeEnable (s : State) (c : Ctl) (port led : Byte) (on : Bool) : State :=
  s.rmw c (c.enaLoc port.toNat led.toNat).off ((1 : Word) <<< (c.enaLoc port.toNat led.toNat).bit)
    ((if on then (1 : Word) else 0) <<< (c.enaLoc port.toNat led.toNat).bit)

/-- R163. PL_REGISTER_USER_LED. -/
def execPlRegisterUserLed (port led : Byte) (flag : Bool) (s : State) : Result :=
  .next <| s.start fun c => s.withLock .portled fun s =>
    if c.inRange port led then (s.writeEnable c port led flag).respond (.ok 0)
    else s.respond (.error .invalidArgument)

/-- One RMW of PL_INIT_ALL that clears the bits `m`; a register with no such bit is not touched. -/
def clearBits (c : Ctl) (o : Nat) (m : Word) (s : State) : State :=
  if m = 0 then s else s.rmw c o m 0

/-- R164's first loop: every port's software-LED fields become 0. -/
def clearLeds (c : Ctl) (s : State) : State :=
  (List.range c.portCount).foldl (fun s p => clearBits c (c.swReg p) c.swMaskAll s) s

/-- R164's second loop: every enable bit becomes 0. -/
def clearEnables (c : Ctl) (s : State) : State :=
  (List.range c.nEna).foldl (fun s r => clearBits c (c.enaReg r) (c.enaMaskAll r) s) s

/-- R164. PL_INIT_ALL. -/
def execPlInitAll (s : State) : Result :=
  .next <| s.start fun c => s.withLock .portled fun s =>
    ((clearEnables c (clearLeds c s)).commit c).respond (.ok 0)

end Sys2Proof.Machine
end

