-- ==== Sys2Proof/Machine/Registry.lean ====
section
/-! DEFINITION. Construction and the binding registry (44_registry.md, R180–R183). -/

namespace Sys2Proof.Machine

/-- PSET_MAX of a family (R180, C6). -/
def familyPsetMax (P : Params) : Family → Nat
  | .A => P.psetMaxA
  | .B => 3

/-- The bits of the ports below `n` (R181). -/
def portsBelow (n : Nat) : PortMask := ((1 : PortMask) <<< n) - 1

/-- The ControllerState construction makes (R180, R181). -/
def newCtl (P : Params) (f : Family) (nports nleds : Byte) (vmask : PortMask) : Ctl where
  family := f
  lay := P.layout f
  portCount := nports.toNat
  ledCount := nleds.toNat
  validMask := vmask &&& portsBelow nports.toNat
  psetMax := familyPsetMax P f

/-- Construction takes effect (R180, the second column of R46): the controller exists, nothing is
bound, every lock is free and every caller idle. No register is written (log entry 16). -/
def State.construct (s : State) (c : Ctl) : State :=
  { s with
    ctl := some c, bind := [], globalOwner := none, portledOwner := none, miimOwner := none
    callers := s.callers.map fun k => { k with flight := .idle }, miimStale := none }

/-- R180. CTL_CONSTRUCT. -/
def execCtlConstruct (compat : List Byte) (nports nleds : Byte) (vmask : PortMask) (s : State) : Result :=
  .next <|
    match s.me.flight with
    | .idle =>
      if s.ctl.isSome then s.refuse
      else
        match compatLookup s.params compat with
        | some (.family f) =>
          if (newCtl s.params f nports nleds vmask).ok s.params then
            (s.construct (newCtl s.params f nports nleds vmask)).respond (.ok 0)
          else s.refuse
        | some .placeholder => s.respond (.error .unsupportedFamily)
        | none => s.respond (.error .unsupportedFamily)
    | .miim _ => s
    | .rawRmw _ _ _ => s

/-- The checks of the registry in R192's order: the range, then the valid port. -/
def Ctl.bindable (c : Ctl) (port led : Byte) : Bool := c.inRange port led && portBit c.validMask port.toNat

/-- R182. REG_BIND. -/
def execRegBind (port led : Byte) (asUser : Bool) (s : State) : Result :=
  .next <| s.start fun c => s.withLock .portled fun s =>
    if c.bindable port led then
      if s.binding port led = .none then
        if asUser then ((s.writeEnable c port led true).setBinding port led .user).respond (.ok 0)
        else (s.setBinding port led .asic).respond (.ok 0)
      else s.respond .warned
    else s.respond (.error .invalidArgument)

/-- R183. REG_UNBIND. -/
def execRegUnbind (port led : Byte) (s : State) : Result :=
  .next <| s.start fun c => s.withLock .portled fun s =>
    if c.bindable port led then
      match s.binding port led with
      | .none => s.respond .warned
      | .asic => (s.setBinding port led .none).respond (.ok 0)
      | .user => ((s.writeEnable c port led false).setBinding port led .none).respond (.ok 0)
    else s.respond (.error .invalidArgument)

end Sys2Proof.Machine
end

