-- ==== Sys2Proof/Machine/Dispatch.lean ====
section
/-! DEFINITION. One arm per instruction. -/

namespace Sys2Proof.Machine

def exec (i : Instr) (s : State) : Host.Outcome State Fault Refusal :=
  match i with
  | .plActivate => Sys2Proof.Machine.execPlActivate s
  | .plSetPset pset pmask media => Sys2Proof.Machine.execPlSetPset pset pmask media s
  | .plGetPset pset media => Sys2Proof.Machine.execPlGetPset pset media s
  | .plSetMode pset led mode => Sys2Proof.Machine.execPlSetMode pset led mode s
  | .plGetMode pset led => Sys2Proof.Machine.execPlGetMode pset led s
  | .plInitAll => Sys2Proof.Machine.execPlInitAll s
  | .plRegisterUserLed port led flag => Sys2Proof.Machine.execPlRegisterUserLed port led flag s
  | .plSetUserMode port led mode => Sys2Proof.Machine.execPlSetUserMode port led mode s
  | .miimEnable => Sys2Proof.Machine.execMiimEnable s
  | .miimSetClock mode => Sys2Proof.Machine.execMiimSetClock mode s
  | .miimRead tgt sub => Sys2Proof.Machine.execMiimRead tgt sub s
  | .miimWrite tgt sub data => Sys2Proof.Machine.execMiimWrite tgt sub data s
  | .regBind port led asUser => Sys2Proof.Machine.execRegBind port led asUser s
  | .regUnbind port led => Sys2Proof.Machine.execRegUnbind port led s
  | .ctlConstruct compat nports nleds vmask => Sys2Proof.Machine.execCtlConstruct compat nports nleds vmask s
  | .raRead32 off => Sys2Proof.Machine.execRaRead32 off s
  | .raWrite32 off val => Sys2Proof.Machine.execRaWrite32 off val s
  | .raRmw32 off msk val => Sys2Proof.Machine.execRaRmw32 off msk val s
  | .miimCmdRead data reg phy rsv => Sys2Proof.Machine.execMiimCmdRead data reg phy rsv s
  | .miimCmdWrite data reg phy rsv => Sys2Proof.Machine.execMiimCmdWrite data reg phy rsv s

end Sys2Proof.Machine
end

