-- ==== Sys2Proof/Machine/Fetch.lean ====
section
/-! DEFINITION. How an agent comes to its next instruction. The block fetches no program (R21, R74): a
caller issues the requests its program holds outside the block, one at a time (R200), and the engine
finds its command in MIIM_CMD (R118). -/

namespace Sys2Proof.Machine

/-- The request caller `c` is executing or waiting with, or else the next it issues (R200). -/
def State.nextRequest (s : State) (c : Nat) : Option Request :=
  match (s.caller c).req with
  | some r => some r
  | none => (s.caller c).queue.head?

/-- A caller that executes the request `r`; a request taken from its program leaves it. -/
def Caller.issue (k : Caller) (r : Request) : Caller :=
  match k.req with
  | some _ => k
  | none => { k with req := some r, queue := k.queue.tail }

/-- The turn of caller `c`, which executes the request `r` (R200). -/
def State.issue (s : State) (c : Nat) (r : Request) : State :=
  { s with cur := c, callers := s.callers.modify c fun k => k.issue r }

/-- The schedule moves on. -/
def State.afterSched (s : State) (rest : List Agent) : State := { s with sched := rest }

/-- Places a request as the next one of caller 0, and its turn next (log entry 4). -/
def State.placeRequest (s : State) (r : Request) : State :=
  { s with
    callers := { s.caller 0 with req := none, flight := .idle, queue := r :: (s.caller 0).queue } ::
      s.callers.tail
    sched := .caller 0 :: s.sched }

/-- EX-B, the controller the spec's vectors use (95_test_vectors.md). -/
def exampleCtl (P : Params) : Ctl := newCtl P .B 28 3 0xFFFFFFFFFFFFFFF0

/-- Places a command word in MIIM_CMD, and the engine's turn next; the engine needs a constructed
controller to find MIIM_CMD, so one is put in place where there is none (log entry 4). -/
def State.placeCommand (s : State) (w : Word) : State :=
  let c := s.ctl.getD (exampleCtl s.params)
  { s.poke c.lay.miimCmd w with ctl := some c, sched := .engine :: s.sched }

end Sys2Proof.Machine
end

