-- ==== Sys2Proof/Machine/Step.lean ====
section
/-! DEFINITION. One step: the agent the schedule names moves (R71, R201). An agent with nothing enabled
leaves the state as it is: a caller with nothing to issue, a waiting caller, an engine with CMD = 0. -/

namespace Sys2Proof.Machine

/-- The engine executes the command in MIIM_CMD, if there is one (R118). -/
def engineTurn (s : State) : Host.Outcome State Fault Refusal :=
  match s.engineCommand with
  | none => .next s
  | some i => exec i s

/-- Caller `c` executes its request; one that spells no operation is refused (R83). -/
def callerTurn (c : Nat) (s : State) : Host.Outcome State Fault Refusal :=
  if c < s.callers.length then
    match s.nextRequest c with
    | none => .next s
    | some r =>
      match decodeRequest r with
      | .ok i => exec i (s.issue c r)
      | .error _ => .next (s.issue c r).refuse
  else .next s

/-- One step of the agent the schedule names. With no agent scheduled nothing moves. -/
def step (s : State) : Host.Outcome State Fault Refusal :=
  match s.sched with
  | [] => .next s
  | .engine :: rest => engineTurn (s.afterSched rest)
  | .caller c :: rest => callerTurn c (s.afterSched rest)

/-- The host's instruction word placed where the next step fetches: a 32-bit word in MIIM_CMD for the
engine, any other as a request of caller 0. -/
def State.withFetchWord (s : State) (nbits w : Nat) : State :=
  if nbits = 32 then s.placeCommand (BitVec.ofNat 32 w) else s.placeRequest (tableRequest nbits w)

end Sys2Proof.Machine
end

