-- ==== Sys2Proof/Safety.lean ====
section
/-! DEFINITION. What counts as a good state and a good run, in the terms the statements use: the
canonical memories, one transaction in flight, a controller that passes the model's check of R7 (log entry 13), and when an operation
can run. -/

namespace Sys2Proof.Machine

/-- A controller that construction can make (R7, R38, R180, R181): it passes Ctl.ok, which asks R7
and what log entries 12 and 13 add, the layout and PSET_MAX are the family's, and the valid ports
exist. -/
abbrev Ctl.Valid (P : Params) (c : Ctl) : Prop :=
  c.ok P = true ∧ c.lay = P.layout c.family ∧ c.psetMax = familyPsetMax P c.family ∧
    c.validMask &&& ~~~portsBelow c.portCount = 0

/-- R7's list of constraints, for a controller over the parameters `P`; MODE_MAX and SW_MAP of both
families. Ctl.ok asks these and what log entry 13 adds. -/
def SatisfiesR7 (P : Params) (c : Ctl) : Prop :=
  (3 ≤ c.portCount ∧ c.portCount ≤ 52) ∧ c.ledCount ≤ 3 ∧ c.validMask >>> c.portCount = 0 ∧
    P.psetMaxA ≤ 2 ∧
    (c.family = .A → c.modeFl * c.ledCount ≤ c.lay.dupOffA ∧
      c.lay.dupOffA + c.modeFl * c.ledCount ≤ 32) ∧
    (P.layoutA.modeMax < 2 ^ flOf P.layoutA c.ledCount ∧ P.layoutB.modeMax < 2 ^ 5) ∧
    (Config.swFl * c.ledCount ≤ c.lay.swMirrorOff ∧
      c.lay.swMirrorOff + Config.swFl * c.ledCount ≤ 32) ∧
    (c.ledCount ≤ c.lay.enaFl ∧ c.lay.enaPpr * c.lay.enaFl ≤ 32) ∧
    Config.selPpr * Config.selFl = 32 ∧ cmdLayoutOk c.lay.cmd = true ∧
    (∀ o, c.isReg o = true → o % 4 = 0 ∧ o < P.windowSize) ∧
    (c.lay.miimCmd :: c.portledRegs).Nodup ∧
    (∀ o ∈ c.globalRegs, o ∉ c.lay.miimCmd :: c.portledRegs) ∧
    ∀ f, (P.layout f).swMap.getD 0 none = some 0 ∧
      ∀ i j raw, (P.layout f).swMap.getD i none = some raw →
        (P.layout f).swMap.getD j none = some raw → i = j

/-- Every memory of the state is in its canonical form. -/
abbrev State.Canonical (s : State) : Prop :=
  Store.Canonical (0 : Word) s.window ∧ Store.Canonical (0 : Word) s.swLatch ∧
    Store.Canonical (0 : Half) s.exp ∧ Store.Canonical BindMode.none s.bind

/-- A constructed controller is a valid one. -/
abbrev State.ControllerValid (s : State) : Prop := ∀ c ∈ s.ctl, c.Valid s.params

/-- Between two steps: GLOBAL and PORTLED are free (R66), and a caller is inside an MIIM_CMD operation
exactly when it holds the MIIM lock (R40, R122). -/
abbrev State.SingleFlight (s : State) : Prop :=
  s.globalOwner = none ∧ s.portledOwner = none ∧
    (∀ k < s.callers.length, (s.caller k).flight ≠ .idle ↔ s.miimOwner = some k) ∧
    (∀ k ∈ s.miimOwner, k < s.callers.length ∧ s.ctl.isSome)

/-- Every transaction has made fewer than POLL_MAX polls (R40, R115). -/
def State.PollsBounded (s : State) : Prop :=
  ∀ k t, (s.caller k).flight = .miim t → t.k < s.params.pollMax

/-- The steps a transaction may still take: POLL_MAX + 4 of its caller's steps in all (R123). -/
def Tx.remaining (pollMax : Nat) (t : Tx) : Nat :=
  match t.phase with
  | .latch => pollMax + 3
  | .issueRd => pollMax + 2
  | .issueWr => pollMax + 1
  | .poll => pollMax - t.k

/-- Caller `s.cur` is an agent and idle, and the controller `c` is constructed. -/
abbrev State.Idle (s : State) (c : Ctl) : Prop :=
  s.cur < s.callers.length ∧ s.me.flight = .idle ∧ s.ctl = some c ∧ c.Valid s.params

/-- An operation under the lock `d` can run now (R66). -/
abbrev State.Ready (s : State) (c : Ctl) (d : Domain) : Prop := s.Idle c ∧ s.owner d = none

/-- The lock of the register at `o`, if it has one, is free (R104). -/
abbrev State.LockFree (s : State) (c : Ctl) (o : Nat) : Prop := ∀ d ∈ c.domainOf o, s.owner d = none

/-- Caller `s.cur` is inside the transaction `t`. -/
abbrev State.Inside (s : State) (c : Ctl) (t : Tx) : Prop :=
  s.cur < s.callers.length ∧ s.me.flight = .miim t ∧ s.ctl = some c ∧ c.Valid s.params

/-- `i` is the operation a transaction in the direction `wr` belongs to. -/
abbrev IsTransaction (wr : Bool) (i : Instr) : Prop :=
  match i with
  | .miimRead _ _ => wr = false
  | .miimWrite _ _ _ => wr = true
  | .plActivate | .plSetPset _ _ _ | .plGetPset _ _ | .plSetMode _ _ _ | .plGetMode _ _ | .plInitAll
  | .plRegisterUserLed _ _ _ | .plSetUserMode _ _ _ | .miimEnable | .miimSetClock _ | .regBind _ _ _
  | .regUnbind _ _ | .ctlConstruct _ _ _ _ | .raRead32 _ | .raWrite32 _ _ | .raRmw32 _ _ _
  | .miimCmdRead _ _ _ _ | .miimCmdWrite _ _ _ _ => False

/-- Of the callers, only the one whose step it is changed, to `k`. -/
def OnlyMe (s t : State) (k : Caller) : Prop :=
  t.callers.length = s.callers.length ∧ t.me = k ∧ ∀ j, j ≠ s.cur → t.caller j = s.caller j

/-- The operation of caller `s.cur` returned the response `r` (R10, R44). -/
def Returned (s t : State) (r : Response) : Prop :=
  OnlyMe s t { s.me with req := none, flight := .idle, rsp := r }

/-- No register but `o` changed, and in `o` only bits of `m`. -/
def OnlyBits (s t : State) (o : Nat) (m : Word) : Prop :=
  (∀ b, m.getLsbD b = false → (t.peek o).getLsbD b = (s.peek o).getLsbD b) ∧
    ∀ o', o' ≠ o → t.peek o' = s.peek o'

/-- The lock an operation takes for its one step (R66); none for construction, the primitives (their
register's lock, R104), the MIIM operations and the engine. PL_ACTIVATE takes GLOBAL only where the
family has the bit (R140). -/
def lockOf (c : Ctl) : Instr → Option Domain
  | .plActivate => if c.lay.plActive.isSome then some .global else none
  | .plSetPset _ _ _ => some .portled
  | .plGetPset _ _ => some .portled
  | .plSetMode _ _ _ => some .portled
  | .plGetMode _ _ => some .portled
  | .plInitAll => some .portled
  | .plRegisterUserLed _ _ _ => some .portled
  | .plSetUserMode _ _ _ => some .portled
  | .miimEnable => some .global
  | .miimSetClock _ => some .global
  | .miimRead _ _ => none
  | .miimWrite _ _ _ => none
  | .regBind _ _ _ => some .portled
  | .regUnbind _ _ => some .portled
  | .ctlConstruct _ _ _ _ => none
  | .raRead32 _ => none
  | .raWrite32 _ _ => none
  | .raRmw32 _ _ _ => none
  | .miimCmdRead _ _ _ _ => none
  | .miimCmdWrite _ _ _ _ => none

/-- USER bindings are enabled (R185). -/
def State.RegistryConsistent (s : State) (c : Ctl) : Prop :=
  ∀ port led : Byte, c.inRange port led = true → s.binding port led = .user →
    s.enabled c port.toNat led.toNat = true

/-- The converse of R185: only USER bindings are enabled. -/
def State.EnabledOnlyUser (s : State) (c : Ctl) : Prop :=
  ∀ port led : Byte, c.inRange port led = true → s.enabled c port.toNat led.toNat = true →
    s.binding port led = .user

/-- A safe run: every step so far gave a next state and no request was refused (R11). A claim about
the block is about such runs. -/
def SafeRun (n : Nat) (s t : State) : Prop := Sys2Proof.core.run n s = .next t ∧ t.refused = false

end Sys2Proof.Machine
end

