-- ==== Sys2Proof/Certificates/Slice0/Obligations.lean ====
section
/-! DEFINITION. The statements for the provers. Every statement about an instruction says which next
state it answers: the caller's record and response (Returned), the registers by what each reads
afterwards, and, in a clause t = (s with …), that every other field of the state is as it was. -/

open Sys2Proof Sys2Proof.Machine

/-! ### Decoding and encoding -/

/-- R99, R80: a request record decodes, by its opsel alone, to an operation of R82 whose encoding has
that opsel, or to the reserved verdict. Its operands are the record's fields that the operation uses,
and a field it does not use is ignored; the record that has only the used fields decodes to the same
operation. A word of MIIM_CMD decodes to idle, read or write by R87. -/
def Obligations.DecodingIsTotalByOpselAndCommandBits : Prop :=
  (∀ r : Request,
    if r.opsel.toNat ∈ [0x01, 0x02, 0x03, 0x04, 0x05, 0x06, 0x07, 0x08, 0x10, 0x11, 0x12, 0x13, 0x20,
        0x21, 0x30, 0xF0, 0xF1, 0xF2] then
      ∃ i q, decodeRequest r = .ok i ∧ encodeRequest i = some q ∧ q.opsel = r.opsel ∧
        decodeRequest q = .ok i
    else decodeRequest r = .error (.reservedOpsel r.opsel)) ∧
  (∀ r : Request,
    (r.opsel = 0x01 → decodeRequest r = .ok .plActivate) ∧
    (r.opsel = 0x02 → decodeRequest r = .ok (.plSetPset r.pset r.pmask r.media)) ∧
    (r.opsel = 0x03 → decodeRequest r = .ok (.plGetPset r.pset r.media)) ∧
    (r.opsel = 0x04 → decodeRequest r = .ok (.plSetMode r.pset r.led r.mode)) ∧
    (r.opsel = 0x05 → decodeRequest r = .ok (.plGetMode r.pset r.led)) ∧
    (r.opsel = 0x06 → decodeRequest r = .ok .plInitAll) ∧
    (r.opsel = 0x07 → decodeRequest r = .ok (.plRegisterUserLed r.port r.led r.flag)) ∧
    (r.opsel = 0x08 → decodeRequest r = .ok (.plSetUserMode r.port r.led r.mode)) ∧
    (r.opsel = 0x10 → decodeRequest r = .ok .miimEnable) ∧
    (r.opsel = 0x11 → decodeRequest r = .ok (.miimSetClock r.mode)) ∧
    (r.opsel = 0x12 → decodeRequest r = .ok (.miimRead r.tgt r.sub)) ∧
    (r.opsel = 0x13 → decodeRequest r = .ok (.miimWrite r.tgt r.sub r.data)) ∧
    (r.opsel = 0x20 → decodeRequest r = .ok (.regBind r.port r.led r.flag)) ∧
    (r.opsel = 0x21 → decodeRequest r = .ok (.regUnbind r.port r.led)) ∧
    (r.opsel = 0x30 → decodeRequest r = .ok (.ctlConstruct r.compat r.nports r.nleds r.vmask)) ∧
    (r.opsel = 0xF0 → decodeRequest r = .ok (.raRead32 r.off)) ∧
    (r.opsel = 0xF1 → decodeRequest r = .ok (.raWrite32 r.off r.val)) ∧
    (r.opsel = 0xF2 → decodeRequest r = .ok (.raRmw32 r.off r.msk r.val))) ∧
  ∀ (L : CmdLayout) (w : Word),
    (w.getLsbD L.cmdLsb = false → decodeCommand L w = .error (.idleWord w)) ∧
    (w.getLsbD L.cmdLsb = true → w.getLsbD L.rwopLsb = false →
      decodeCommand L w =
        .ok (.miimCmdRead (dataField L w) (regField L w) (phyField L w) (reservedBits L w))) ∧
    (w.getLsbD L.cmdLsb = true → w.getLsbD L.rwopLsb = true →
      decodeCommand L w =
        .ok (.miimCmdWrite (dataField L w) (regField L w) (phyField L w) (reservedBits L w)))

/-- Every operation of R82 with every operand survives the byte layout of its request. The layout of
the bytes is the model's (log entry 2). -/
def Obligations.RequestBytesRoundTrip : Prop :=
  ∀ (L : CmdLayout) (i : Instr) (bs : List Byte),
    i.wellFormed L = true → encodeBytes i = some bs → decodeBytes bs = .ok i

/-- Every command word with every field value decodes to the command it spells, wherever a legal layout
puts the fields (R7, R87). -/
def Obligations.CommandWordRoundTrip : Prop :=
  ∀ (L : CmdLayout) (i : Instr) (w : Word),
    cmdLayoutOk L = true → i.wellFormed L = true → encodeCommand L i = some w →
      decodeCommand L w = .ok i

/-- No bit of a command word is lost by decoding: the decoded command spells the word again. That the
reserved bits (R89) are an operand of the decoded command is the model's choice (log entry 26). -/
def Obligations.DecodedCommandSpellsItsWord : Prop :=
  ∀ (L : CmdLayout) (i : Instr) (w : Word),
    cmdLayoutOk L = true → decodeCommand L w = .ok i →
      encodeCommand L i = some w ∧ i.wellFormed L = true

/-- A few encodings written out from R82 and R87: three requests, whose bytes are the model's (log
entry 2), and one command word at D7's default positions. -/
def Obligations.SpecEncodingsDecode : Prop :=
  decodeTableWord 8 0x01 = some .plActivate ∧
  decodeTableWord 40 0x0900020304 = some (.plSetMode 3 2 9) ∧
  decodeTableWord 40 0x050D010008 = some (.plSetUserMode 13 1 5) ∧
  decodeTableWord 32 0xBEEF1943 = some (.miimCmdWrite 0xBEEF 3 5 0)

/-- R88, R89: the word an issuing RMW leaves over the word `old`, composed from the latched word `cur`,
has CMD = 1, the direction, the target, the sub-register given, or 0 when none is given and the target
changed, or else the one in `old`; a write's data, or the old DATA for a read; and the old reserved
bits. -/
def Obligations.IssuedWordHasTheComposedFields : Prop :=
  ∀ (L : CmdLayout) (cur old : Word) (tgt : BusAddr) (sub : Option BusAddr) (wr : Bool) (dat : Half),
    cmdLayoutOk L = true →
    let w := mergeBits old (composeMask L cur tgt sub wr) (composeValue L tgt sub wr dat)
    cmdBit L w = true ∧ rwopBit L w = wr ∧ phyField L w = tgt ∧
      regField L w = sub.getD (if phyField L cur = tgt then regField L old else 0) ∧
      dataField L w = (if wr then dat else dataField L old) ∧
      reservedBits L w = reservedBits L old

/-! ### The register window -/

/-- R63: RMW(o, m, v) gives the bits of m their value in v and leaves every other bit of the register,
and every other register. In the load register the LOAD bit outside m is excepted, whose read-back is
any value (R36, I5). -/
def Obligations.RmwChangesExactlyTheMaskedBits : Prop :=
  ∀ (s : State) (c : Ctl) (o : Nat) (m v : Word), c.isReg o = true →
    (∀ b, m.getLsbD b = true → ((s.rmw c o m v).peek o).getLsbD b = v.getLsbD b) ∧
    (∀ b, m.getLsbD b = false → (∀ l ∈ c.lay.load, l.off = o → l.bit ≠ b) →
      ((s.rmw c o m v).peek o).getLsbD b = (s.peek o).getLsbD b) ∧
    ∀ o', o' ≠ o → (s.rmw c o m v).peek o' = s.peek o'

/-- R71 (1): a read returns the value of the last write to its register, and a write leaves what any
other register reads. The load register is excepted (R36). -/
def Obligations.ReadReturnsTheLastWrite : Prop :=
  ∀ (s : State) (c : Ctl) (o : Nat) (v : Word), c.isReg o = true → c.isLoad o = false →
    (s.writeReg c o v).readValue c o = v ∧
    ∀ o', o' ≠ o → c.isReg o' = true → c.isLoad o' = false →
      (s.writeReg c o v).readValue c o' = s.readValue c o'

/-! ### Invariants of every step -/

/-- Every step keeps the window, the latches, the expander and the registry in canonical form. The
sparse memories, their form and the one default each has are the model's choice (log entries 6, 7). -/
def Obligations.StepKeepsMemoriesCanonical : Prop :=
  ∀ s t : State, s.Canonical → step s = .next t → t.Canonical

/-- R122, R41: between steps at most one caller is inside an MIIM_CMD operation and it is the holder of
the MIIM lock; every step keeps this. That GLOBAL and PORTLED are free between steps is read from R66
(log entry 19), and that a raw RA_RMW32 on MIIM_CMD is such an operation, holding the lock between its
two steps, from R102, R67 and R104 (log entry 8); both readings are the model's. -/
def Obligations.StepKeepsSingleFlight : Prop :=
  ∀ s t : State, s.SingleFlight → step s = .next t → t.SingleFlight

/-- R7, R38, R115: every step keeps a constructed controller valid and every poll count below POLL_MAX.
Valid asks more than R7, and that is the model's: POLL_MAX and ENA_PPR at least 1, the global fields
inside 32 bits and apart, LOAD's bit below 32 (log entry 13), and as many port-mask registers as the
parameter says in the distinctness of the offsets (log entry 12). -/
def Obligations.StepKeepsControllerValidAndPollsBounded : Prop :=
  ∀ s t : State, s.ControllerValid → s.PollsBounded → step s = .next t →
    t.ControllerValid ∧ t.PollsBounded

/-- R38, R222: a step never changes the controller once it exists, and never the parameters. -/
def Obligations.StepNeverChangesTheController : Prop :=
  ∀ s t : State, step s = .next t → t.params = s.params ∧ ∀ c ∈ s.ctl, t.ctl = some c

/-- R46: right after reset there is no controller. That every lock is free, every caller idle with no
request, and nothing stale or refused already at power-on, where the table of R46 says so only after
construction, is the model's choice (log entry 1); so are the memories' contents, which are not stated.
The invariants above hold. -/
def Obligations.ResetIsUnconstructedAndIdle : Prop :=
  State.reset.ctl = none ∧ State.reset.globalOwner = none ∧ State.reset.portledOwner = none ∧
    State.reset.miimOwner = none ∧ State.reset.miimStale = none ∧ State.reset.refused = false ∧
    (∀ k, (State.reset.caller k).flight = .idle ∧ (State.reset.caller k).req = none) ∧
    State.reset.Canonical ∧ State.reset.SingleFlight ∧ State.reset.ControllerValid ∧
    State.reset.PollsBounded

/-- R103, R196: no step ends in a fault, and none without a meaning. -/
def Obligations.EveryStepAnswersANextState : Prop := ∀ s : State, ∃ t, step s = .next t

/-- R44: the refusal mark is never cleared once set. -/
def Obligations.RefusedMarkIsNeverCleared : Prop :=
  ∀ s t : State, s.refused = true → step s = .next t → t.refused = true

/-! ### What a step runs -/

/-- When the schedule names a caller whose request decodes to `i`, the step is exec of `i` with the
schedule moved on, that caller current, and the request, if it came from the program, taken out of it
and held by the caller until it returns. The schedule, the queue of coming requests and the holding of
a request are the model's choice (log entry 4). -/
def Obligations.StepRunsTheCallersRequest : Prop :=
  ∀ (s : State) (k : Nat) (rest : List Agent) (r : Request) (i : Instr),
    s.sched = .caller k :: rest → k < s.callers.length → s.nextRequest k = some r →
    decodeRequest r = .ok i →
    ∃ u, step s = exec i u ∧ u.cur = k ∧ u.sched = rest ∧
      u = { s with cur := u.cur, sched := u.sched, callers := u.callers } ∧
      u.callers.length = s.callers.length ∧ (∀ j, j ≠ k → u.caller j = s.caller j) ∧
      (u.caller k).req = some r ∧ (u.caller k).flight = (s.caller k).flight ∧
      (u.caller k).rsp = (s.caller k).rsp ∧
      (u.caller k).queue = (if (s.caller k).req = none then (s.caller k).queue.tail else (s.caller k).queue)

/-- When the schedule names the engine, the step is exec of the command in MIIM_CMD with the schedule
moved on; while CMD = 0 the engine has no step and nothing else changes (R118). That it has none
before construction either is the model's reading, not R118's (log entry 10). -/
def Obligations.StepRunsTheEnginesCommand : Prop :=
  ∀ (s : State) (rest : List Agent), s.sched = .engine :: rest →
    (∀ (c : Ctl) (i : Instr), s.ctl = some c →
      decodeCommand c.lay.cmd (s.peek c.lay.miimCmd) = .ok i →
      step s = exec i { s with sched := rest }) ∧
    (∀ c : Ctl, s.ctl = some c → cmdBit c.lay.cmd (s.peek c.lay.miimCmd) = false →
      step s = .next { s with sched := rest }) ∧
    (s.ctl = none → step s = .next { s with sched := rest })

/-! ### Refusals and waiting -/

/-- R83: a request with a reserved opsel changes nothing but the refusal mark, and returns no status.
That its caller is done with it, so that the request is held no longer and the next one issued is the
one behind it, is the model's reading (log entry 11), and the schedule and the queue of coming requests
are the model's choice (log entry 4): a request taken from the program has left the queue, one the
caller already held leaves the queue as it was. -/
def Obligations.ReservedOpselIsRefused : Prop :=
  ∀ (s : State) (k : Nat) (rest : List Agent) (r : Request) (x : Reject),
    s.sched = .caller k :: rest → k < s.callers.length → s.nextRequest k = some r →
    decodeRequest r = .error x →
    ∃ t, step s = .next t ∧ t.refused = true ∧
      t = { s with cur := k, sched := rest, refused := true, callers := t.callers } ∧
      t.callers.length = s.callers.length ∧ (∀ j, j ≠ k → t.caller j = s.caller j) ∧
      (t.caller k).req = none ∧ (t.caller k).flight = (s.caller k).flight ∧
      (t.caller k).rsp = (s.caller k).rsp ∧
      (t.caller k).queue = (if (s.caller k).req = none then (s.caller k).queue.tail else (s.caller k).queue)

/-- R38: before construction every operation but CTL_CONSTRUCT is refused, with no status and no
change but the mark. That its caller is done with the request is the model's reading (log entry 11). -/
def Obligations.UnconstructedBlockRefusesEveryOtherOperation : Prop :=
  ∀ (s : State) (i : Instr) (q : Request), encodeRequest i = some q → q.opsel ≠ 0x30 →
    s.cur < s.callers.length → s.me.flight = .idle → s.ctl = none →
    ∃ t, exec i s = .next t ∧ t = { s with refused := true, callers := t.callers } ∧
      OnlyMe s t { s.me with req := none }

/-- R66, R68, R104: an operation whose lock another agent holds waits, and its step changes nothing;
so does a primitive on a register whose lock is held. -/
def Obligations.OperationWaitsWhileItsLockIsHeld : Prop :=
  ∀ (s : State) (c : Ctl), s.Idle c →
    (∀ (i : Instr) (d : Domain) (k : Nat), lockOf c i = some d → s.owner d = some k → exec i s = .next s) ∧
    ∀ (off val msk : Word) (d : Domain) (k : Nat), offsetOk s.params off.toNat = true →
      c.domainOf off.toNat = some d → s.owner d = some k →
      exec (.raRead32 off) s = .next s ∧ exec (.raWrite32 off val) s = .next s ∧
        exec (.raRmw32 off msk val) s = .next s

/-- R64: every register of a valid layout lies at a multiple of 4 below WINDOW_SIZE, and a primitive
access anywhere else is refused. That its caller is done with the request is the model's reading (log
entry 11). -/
def Obligations.PrimitiveOutsideTheWindowIsRefused : Prop :=
  ∀ (s : State) (c : Ctl), s.Idle c →
    (∀ o, c.isReg o = true → o % 4 = 0 ∧ o < s.params.windowSize) ∧
    ∀ (off val msk : Word) (i : Instr), (off.toNat % 4 ≠ 0 ∨ s.params.windowSize ≤ off.toNat) →
      i = .raRead32 off ∨ i = .raWrite32 off val ∨ i = .raRmw32 off msk val →
      ∃ t, exec i s = .next t ∧ t = { s with refused := true, callers := t.callers } ∧
        OnlyMe s t { s.me with req := none }

/-! ### Register access primitives -/

/-- R100: RA_READ32 returns the register and changes nothing. The LOAD bit of the load register is any
value (R36), and so is the read of an offset without a register (I11). -/
def Obligations.RaRead32ReturnsTheRegister : Prop :=
  ∀ (s : State) (c : Ctl) (off : Word), s.Idle c → offsetOk s.params off.toNat = true →
    s.LockFree c off.toNat →
    ∃ t w, exec (.raRead32 off) s = .next t ∧ Returned s t (.ok (BitVec.setWidth 64 w)) ∧
      t = { s with callers := t.callers, free := t.free } ∧
      (c.isReg off.toNat = true →
        ∀ b, (∀ l ∈ c.lay.load, l.off = off.toNat → l.bit ≠ b) →
          (w : Word).getLsbD b = (s.peek off.toNat).getLsbD b)

/-- R101: RA_WRITE32 replaces the whole register and no other. If it sets the LOAD bit, the commit
happens in the same step: every latch takes its register. No claim is made on what an offset without a
register holds afterwards (I11). -/
def Obligations.RaWrite32ReplacesTheRegister : Prop :=
  ∀ (s : State) (c : Ctl) (off val : Word), s.Idle c → offsetOk s.params off.toNat = true →
    s.LockFree c off.toNat →
    ∃ t, exec (.raWrite32 off val) s = .next t ∧ Returned s t (.ok 0) ∧
      t = { s with window := t.window, swLatch := t.swLatch, callers := t.callers, free := t.free } ∧
      (c.isReg off.toNat = true → t.peek off.toNat = val) ∧
      (∀ o, o ≠ off.toNat → t.peek o = s.peek o) ∧
      ∀ p, t.swLatch.read 0 p =
        if (∃ l ∈ c.lay.load, l.off = off.toNat ∧ val.getLsbD l.bit = true) ∧ p < c.portCount
        then s.peek (c.swReg p) else s.swLatch.read 0 p

/-- R102: RA_RMW32 outside the MIIM domain is one step that merges `val` under `msk`. On the load
register a LOAD bit outside `msk` is any value, and the latches are the old ones or, if the stored bit
is 1, the registers. -/
def Obligations.RaRmw32MergesUnderItsMask : Prop :=
  ∀ (s : State) (c : Ctl) (off msk val : Word), s.Idle c → offsetOk s.params off.toNat = true →
    s.LockFree c off.toNat → c.domainOf off.toNat ≠ some .miim →
    ∃ t, exec (.raRmw32 off msk val) s = .next t ∧ Returned s t (.ok 0) ∧
      t = { s with window := t.window, swLatch := t.swLatch, callers := t.callers, free := t.free } ∧
      (∀ o, o ≠ off.toNat → t.peek o = s.peek o) ∧
      (c.isReg off.toNat = true →
        (∀ b, msk.getLsbD b = true → (t.peek off.toNat).getLsbD b = val.getLsbD b) ∧
        (∀ b, msk.getLsbD b = false → (∀ l ∈ c.lay.load, l.off = off.toNat → l.bit ≠ b) →
          (t.peek off.toNat).getLsbD b = (s.peek off.toNat).getLsbD b)) ∧
      ∀ p, t.swLatch.read 0 p =
        if (∃ l ∈ c.lay.load, l.off = off.toNat ∧ (t.peek off.toNat).getLsbD l.bit = true) ∧
            p < c.portCount
        then s.peek (c.swReg p) else s.swLatch.read 0 p

/-- R102, R67, R104: on MIIM_CMD the load and the store of RA_RMW32 are two steps of its caller, which
holds the MIIM lock between them; the store writes what the load read, merged, over whatever the
register holds by then. The two-step form is read from R102 and R67 (log entry 8). -/
def Obligations.RaRmw32OnMiimCmdTakesTwoSteps : Prop :=
  ∀ (s : State) (c : Ctl) (off msk val : Word), off.toNat = c.lay.miimCmd →
    (s.Ready c .miim →
      ∃ t, exec (.raRmw32 off msk val) s = .next t ∧
        t = { s with miimOwner := some s.cur, callers := t.callers } ∧
        OnlyMe s t { s.me with flight := .rawRmw msk val (s.peek c.lay.miimCmd) }) ∧
    ∀ old : Word, s.cur < s.callers.length → s.me.flight = .rawRmw msk val old → s.ctl = some c →
      c.Valid s.params →
      ∃ t, exec (.raRmw32 off msk val) s = .next t ∧ Returned s t (.ok 0) ∧
        t = { s with window := t.window, miimOwner := none, callers := t.callers } ∧
        t.peek c.lay.miimCmd = mergeBits old msk val ∧ ∀ o, o ≠ c.lay.miimCmd → t.peek o = s.peek o

/-! ### MIIM: administration -/

/-- R110: MIIM_ENABLE sets MIIM_EN and changes no other bit. -/
def Obligations.MiimEnableSetsTheEnableBit : Prop :=
  ∀ (s : State) (c : Ctl), s.Ready c .global →
    ∃ t, exec .miimEnable s = .next t ∧ Returned s t (.ok 0) ∧
      t = { s with window := t.window, callers := t.callers } ∧
      (t.peek c.lay.miimEn.off).getLsbD c.lay.miimEn.bit = true ∧
      OnlyBits s t c.lay.miimEn.off (mask c.lay.miimEn.bit 1)

/-- R111: MIIM_SET_CLOCK writes the low bits of `mode` into the clock field and changes no other bit; on
a family without the field it changes no register. -/
def Obligations.MiimSetClockWritesTheClockField : Prop :=
  ∀ (s : State) (c : Ctl) (mode : Byte), s.Ready c .global →
    ∃ t, exec (.miimSetClock mode) s = .next t ∧ Returned s t (.ok 0) ∧
      t = { s with window := t.window, callers := t.callers } ∧
      match c.lay.miimClk with
      | none => t.window = s.window
      | some f => fld (t.peek f.off) f.lsb f.width = fld (mode.setWidth 32) 0 f.width ∧
          OnlyBits s t f.off (mask f.lsb f.width)

/-! ### MIIM: the phases of a transaction -/

/-- R112: an out-of-range target or sub-register returns InvalidArgument, whether or not the lock is
held; a valid request takes the free lock, captures its operands and is in LATCH; and it waits while
the lock is held. That what a later phase captures (cur, m, v, old, k, last, tx_tainted) is 0 until
then is the model's choice (log entry 9). -/
def Obligations.TransactionInvocationValidatesThenTakesTheLock : Prop :=
  ∀ (s : State) (c : Ctl) (tgt sub : Byte) (data : Half) (wr : Bool), s.Idle c →
    let i := if wr then Instr.miimWrite tgt sub data else Instr.miimRead tgt sub
    ((32 ≤ tgt.toNat ∨ (32 ≤ sub.toNat ∧ sub ≠ 0xFF)) →
      ∃ t, exec i s = .next t ∧ Returned s t (.error .invalidArgument) ∧
        t = { s with callers := t.callers }) ∧
    (tgt.toNat < 32 → sub.toNat < 32 ∨ sub = 0xFF → s.miimOwner = none →
      ∃ t, exec i s = .next t ∧ t = { s with miimOwner := some s.cur, callers := t.callers } ∧
        OnlyMe s t { s.me with flight := .miim {
          phase := .latch, tgt := tgt.setWidth 5
          sub := if sub = 0xFF then none else some (sub.setWidth 5)
          wr := wr, dat := if wr then data else 0 } }) ∧
    (tgt.toNat < 32 → sub.toNat < 32 ∨ sub = 0xFF → s.miimOwner ≠ none → exec i s = .next s)

/-- R113: the LATCH step reads MIIM_CMD, notes whether a command is pending, forgets a stale command if
none is, and composes the mask and the value. -/
def Obligations.LatchStepComposesTheCommand : Prop :=
  ∀ (s : State) (c : Ctl) (x : Tx) (i : Instr), s.Inside c x → IsTransaction x.wr i → x.phase = .latch →
    let w := s.peek c.lay.miimCmd
    ∃ t, exec i s = .next t ∧
      t = { s with
        miimStale := if cmdBit c.lay.cmd w then s.miimStale else none
        callers := t.callers } ∧
      OnlyMe s t { s.me with flight := .miim { x with
        phase := .issueRd, cur := w, tainted := cmdBit c.lay.cmd w
        m := composeMask c.lay.cmd w x.tgt x.sub x.wr
        v := composeValue c.lay.cmd x.tgt x.sub x.wr x.dat } }

/-- R114: the issuing RMW is a step that reads MIIM_CMD and a step that writes the merged word, after
which the polls are counted from 0; where the mask and the value are those a LATCH step composed, the
register then holds CMD = 1, the direction, the target, REG as composed and a write's data. -/
def Obligations.IssueStepsReadThenWriteTheCommand : Prop :=
  ∀ (s : State) (c : Ctl) (x : Tx) (i : Instr), s.Inside c x → IsTransaction x.wr i →
    (x.phase = .issueRd →
      ∃ t, exec i s = .next t ∧ t = { s with callers := t.callers } ∧
        OnlyMe s t { s.me with flight := .miim { x with
          phase := .issueWr, old := s.peek c.lay.miimCmd } }) ∧
    (x.phase = .issueWr →
      ∃ t, exec i s = .next t ∧ t = { s with window := t.window, callers := t.callers } ∧
        t.peek c.lay.miimCmd = mergeBits x.old x.m x.v ∧
        (∀ o, o ≠ c.lay.miimCmd → t.peek o = s.peek o) ∧
        OnlyMe s t { s.me with flight := .miim { x with phase := .poll, k := 0 } } ∧
        ∀ cur : Word, x.m = composeMask c.lay.cmd cur x.tgt x.sub x.wr →
          x.v = composeValue c.lay.cmd x.tgt x.sub x.wr x.dat →
          let w := t.peek c.lay.miimCmd
          cmdBit c.lay.cmd w = true ∧ rwopBit c.lay.cmd w = x.wr ∧ phyField c.lay.cmd w = x.tgt ∧
            regField c.lay.cmd w =
              x.sub.getD (if phyField c.lay.cmd cur = x.tgt then regField c.lay.cmd x.old else 0) ∧
            (x.wr = true → dataField c.lay.cmd w = x.dat))

/-- R115: a poll that reads CMD = 1 below the ceiling is counted and the transaction goes on. -/
def Obligations.PollStepCountsWhileTheStrobeIsSet : Prop :=
  ∀ (s : State) (c : Ctl) (x : Tx) (i : Instr), s.Inside c x → IsTransaction x.wr i → x.phase = .poll →
    cmdBit c.lay.cmd (s.peek c.lay.miimCmd) = true → x.k + 1 ≠ s.params.pollMax →
    ∃ t, exec i s = .next t ∧ t = { s with callers := t.callers } ∧
      OnlyMe s t { s.me with flight := .miim { x with
        k := x.k + 1, last := s.peek c.lay.miimCmd } }

/-- R116: the poll that reaches POLL_MAX with CMD still 1 returns BusTimeout, releases the lock, leaves
the command in its register and remembers it as stale. -/
def Obligations.LastPollTimesOut : Prop :=
  ∀ (s : State) (c : Ctl) (x : Tx) (i : Instr), s.Inside c x → IsTransaction x.wr i → x.phase = .poll →
    let w := s.peek c.lay.miimCmd
    cmdBit c.lay.cmd w = true → x.k + 1 = s.params.pollMax →
    ∃ t, exec i s = .next t ∧
      Returned s t { status := .busTimeout, value := 0, limit := 0, warn := false } ∧
      t = { s with
        miimOwner := none, callers := t.callers
        miimStale := some {
          tgt := phyField c.lay.cmd w, reg := regField c.lay.cmd w, wr := rwopBit c.lay.cmd w } }

/-- R117: the poll that reads CMD = 0 completes the transaction: MIIM_WRITE returns OK(0), MIIM_READ the
DATA of the polled word, which is any value if the transaction is tainted; the lock is released. -/
def Obligations.PollOfAClearStrobeCompletes : Prop :=
  ∀ (s : State) (c : Ctl) (x : Tx), s.Inside c x → x.phase = .poll →
    cmdBit c.lay.cmd (s.peek c.lay.miimCmd) = false →
    (∀ tgt sub : Byte, x.wr = false →
      ∃ t v, exec (.miimRead tgt sub) s = .next t ∧ Returned s t (.ok (BitVec.setWidth 64 v)) ∧
        (x.tainted = false → (v : Half) = dataField c.lay.cmd (s.peek c.lay.miimCmd)) ∧
        t = { s with miimOwner := none, callers := t.callers, free := t.free }) ∧
    (∀ (tgt sub : Byte) (data : Half), x.wr = true →
      ∃ t, exec (.miimWrite tgt sub data) s = .next t ∧ Returned s t (.ok 0) ∧
        t = { s with miimOwner := none, callers := t.callers })

/-- R123: every step of a transaction's caller either ends it or brings its end nearer, so it ends
within POLL_MAX + 4 steps of its caller, the invocation counted. -/
def Obligations.TransactionEndsWithinItsBound : Prop :=
  ∀ (s : State) (c : Ctl) (x : Tx) (i : Instr), s.Inside c x → IsTransaction x.wr i →
    x.k < s.params.pollMax →
    x.remaining s.params.pollMax ≤ s.params.pollMax + 3 ∧
    ∃ t, exec i s = .next t ∧
      ((t.me.flight = .idle ∧ t.miimOwner = none) ∨
        ∃ y : Tx, t.me.flight = .miim y ∧ y.wr = x.wr ∧ y.k < s.params.pollMax ∧
          y.remaining s.params.pollMax < x.remaining s.params.pollMax)

/-! ### MIIM: the engine -/

/-- R118: with nothing tainted and the reserved bits 0 (I4), the engine executes the command in
MIIM_CMD: a write stores DATA in the expander register, a read puts the expander register in DATA, CMD
clears, and PHY, REG, RWOP and the rest of the word stay. A volatile expander register reads as any
value (R125). -/
def Obligations.EngineExecutesTheCommand : Prop :=
  ∀ (s : State) (c : Ctl) (data : Half) (reg phy : BusAddr) (rsv : Word),
    s.ctl = some c → c.Valid s.params → rsv = 0 → s.tainted = false →
    let w := s.peek c.lay.miimCmd
    (decodeCommand c.lay.cmd w = .ok (.miimCmdWrite data reg phy rsv) →
      ∃ t, exec (.miimCmdWrite data reg phy rsv) s = .next t ∧
        t = { s with window := t.window, exp := t.exp } ∧
        (∀ o, o ≠ c.lay.miimCmd → t.peek o = s.peek o) ∧
        t.peek c.lay.miimCmd = w &&& ~~~mask c.lay.cmd.cmdLsb 1 ∧
        (∀ a b : BusAddr, t.exp.read 0 (expKey a b) =
          if a = phy ∧ b = reg then data else s.exp.read 0 (expKey a b))) ∧
    (decodeCommand c.lay.cmd w = .ok (.miimCmdRead data reg phy rsv) →
      ∃ t, exec (.miimCmdRead data reg phy rsv) s = .next t ∧
        t = { s with window := t.window, free := t.free } ∧
        (∀ o, o ≠ c.lay.miimCmd → t.peek o = s.peek o) ∧
        cmdBit c.lay.cmd (t.peek c.lay.miimCmd) = false ∧
        (expKey phy reg ∉ s.params.expVolatile →
          dataField c.lay.cmd (t.peek c.lay.miimCmd) = s.exp.read 0 (expKey phy reg)) ∧
        ∀ b, (mask c.lay.cmd.cmdLsb 1 ||| mask c.lay.cmd.dataLsb 16).getLsbD b = false →
          (t.peek c.lay.miimCmd).getLsbD b = w.getLsbD b)

/-- R119, R89 (I4): a tainted completion, and one with a reserved bit at 1, clears CMD and leaves every
other bit of MIIM_CMD but DATA; a tainted one may change only the expander registers that the command
in the word or the stale command would write, one with a reserved bit at 1 any of them. -/
def Obligations.TaintedCompletionTouchesOnlyItsCommands : Prop :=
  ∀ (s : State) (c : Ctl) (i : Instr) (data : Half) (reg phy : BusAddr) (rsv : Word) (wr : Bool),
    s.ctl = some c → c.Valid s.params →
    i = (if wr then .miimCmdWrite data reg phy rsv else .miimCmdRead data reg phy rsv) →
    decodeCommand c.lay.cmd (s.peek c.lay.miimCmd) = .ok i →
    (s.miimStale ≠ none ∨ s.holderTainted = true ∨ rsv ≠ 0) →
    ∃ t, exec i s = .next t ∧ t = { s with window := t.window, exp := t.exp, free := t.free } ∧
      (∀ o, o ≠ c.lay.miimCmd → t.peek o = s.peek o) ∧
      cmdBit c.lay.cmd (t.peek c.lay.miimCmd) = false ∧
      (∀ b, (mask c.lay.cmd.cmdLsb 1 ||| mask c.lay.cmd.dataLsb 16).getLsbD b = false →
        (t.peek c.lay.miimCmd).getLsbD b = (s.peek c.lay.miimCmd).getLsbD b) ∧
      (rsv = 0 → ∀ a b : BusAddr, ¬(wr = true ∧ a = phy ∧ b = reg) →
        (∀ x ∈ s.miimStale, ¬(x.wr = true ∧ a = x.tgt ∧ b = x.reg)) →
        t.exp.read 0 (expKey a b) = s.exp.read 0 (expKey a b))

/-! ### MIIM: whole transactions -/

/-- R120, R43, R125: a read that finds MIIM_CMD idle with clean reserved bits, and whose command the
engine executes right after it is issued, returns the expander register it addresses: the sub-register
given, or the latched one when none is given and the target is unchanged, or 0. Six steps: five of the
caller and one of the engine. -/
def Obligations.UndisturbedReadReturnsTheExpanderRegister : Prop :=
  ∀ (s : State) (c : Ctl) (k : Nat) (rest : List Agent) (r : Request) (tgt sub : Byte),
    s.sched = .caller k :: .caller k :: .caller k :: .caller k :: .engine :: .caller k :: rest →
    k < s.callers.length → s.nextRequest k = some r → decodeRequest r = .ok (.miimRead tgt sub) →
    (s.caller k).flight = .idle → s.ctl = some c → c.Valid s.params → s.miimOwner = none →
    tgt.toNat < 32 → sub.toNat < 32 ∨ sub = 0xFF →
    let L := c.lay.cmd
    let w := s.peek c.lay.miimCmd
    let phy : BusAddr := tgt.setWidth 5
    let reg : BusAddr :=
      if sub.toNat < 32 then sub.setWidth 5 else if phyField L w = phy then regField L w else 0
    cmdBit L w = false → reservedBits L w = 0 → expKey phy reg ∉ s.params.expVolatile →
    ∃ t, core.run 6 s = .next t ∧
      t.caller k = { (s.issue k r).caller k with
        req := none, flight := .idle, rsp := .ok ((s.exp.read 0 (expKey phy reg)).setWidth 64) } ∧
      (∀ j, j ≠ k → t.caller j = s.caller j) ∧
      t = { s with
        window := t.window, callers := t.callers, cur := k, sched := rest, miimStale := none } ∧
      (∀ o, o ≠ c.lay.miimCmd → t.peek o = s.peek o) ∧
      cmdBit L (t.peek c.lay.miimCmd) = false ∧ phyField L (t.peek c.lay.miimCmd) = phy ∧
      regField L (t.peek c.lay.miimCmd) = reg

/-- R121, R43, R125: a write that finds MIIM_CMD idle with clean reserved bits, and whose command the
engine executes right after it is issued, stores its data in the expander register it addresses and in
no other, and returns OK(0). -/
def Obligations.UndisturbedWriteStoresInTheExpanderRegister : Prop :=
  ∀ (s : State) (c : Ctl) (k : Nat) (rest : List Agent) (r : Request) (tgt sub : Byte) (data : Half),
    s.sched = .caller k :: .caller k :: .caller k :: .caller k :: .engine :: .caller k :: rest →
    k < s.callers.length → s.nextRequest k = some r → decodeRequest r = .ok (.miimWrite tgt sub data) →
    (s.caller k).flight = .idle → s.ctl = some c → c.Valid s.params → s.miimOwner = none →
    tgt.toNat < 32 → sub.toNat < 32 ∨ sub = 0xFF →
    let L := c.lay.cmd
    let w := s.peek c.lay.miimCmd
    let phy : BusAddr := tgt.setWidth 5
    let reg : BusAddr :=
      if sub.toNat < 32 then sub.setWidth 5 else if phyField L w = phy then regField L w else 0
    cmdBit L w = false → reservedBits L w = 0 →
    ∃ t, core.run 6 s = .next t ∧
      t.caller k = { (s.issue k r).caller k with req := none, flight := .idle, rsp := .ok 0 } ∧
      (∀ j, j ≠ k → t.caller j = s.caller j) ∧
      t = { s with
        window := t.window, exp := t.exp, callers := t.callers, cur := k, sched := rest
        miimStale := none } ∧
      (∀ a b : BusAddr, t.exp.read 0 (expKey a b) =
        if a = phy ∧ b = reg then data else s.exp.read 0 (expKey a b)) ∧
      (∀ o, o ≠ c.lay.miimCmd → t.peek o = s.peek o) ∧
      cmdBit L (t.peek c.lay.miimCmd) = false ∧ phyField L (t.peek c.lay.miimCmd) = phy ∧
      regField L (t.peek c.lay.miimCmd) = reg ∧ dataField L (t.peek c.lay.miimCmd) = data

/-! ### Port LEDs -/

/-- R140: PL_ACTIVATE sets PL_ACTIVE and changes no other bit; on a family without the bit it returns OK
with no access and no lock. -/
def Obligations.PlActivateSetsTheActiveBit : Prop :=
  ∀ (s : State) (c : Ctl), s.Idle c →
    (c.lay.plActive = none →
      ∃ t, exec .plActivate s = .next t ∧ Returned s t (.ok 0) ∧ t = { s with callers := t.callers }) ∧
    ∀ l, c.lay.plActive = some l → s.globalOwner = none →
      ∃ t, exec .plActivate s = .next t ∧ Returned s t (.ok 0) ∧
        t = { s with window := t.window, callers := t.callers } ∧
        (t.peek l.off).getLsbD l.bit = true ∧ OnlyBits s t l.off (mask l.bit 1)

/-- R141, R146: PL_SET_PSET_MEMBERSHIP gives every valid port of the mask the selector `pset` in the
plane `media`; every other port of that plane, and every register outside the plane, stays. -/
def Obligations.SetPsetWritesTheNamedSelectors : Prop :=
  ∀ (s : State) (c : Ctl) (pset : Byte) (pmask : PortMask) (media : Byte) (m : Media),
    s.Ready c .portled → c.lay.hasPsetSel = true → pset.toNat ≤ c.psetMax → mediaOf media = some m →
    ∃ t, exec (.plSetPset pset pmask media) s = .next t ∧ Returned s t (.ok 0) ∧
      t = { s with window := t.window, callers := t.callers } ∧
      (∀ p < c.portCount, fld (t.peek (c.selLoc m p).off) (c.selLoc m p).lsb 2 =
        if pmask.getLsbD p ∧ c.validMask.getLsbD p then pset.setWidth 32
        else fld (s.peek (c.selLoc m p).off) (c.selLoc m p).lsb 2) ∧
      (∀ r < c.nSel, ∀ b, c.portCount ≤ 16 * r + b / 2 →
        (t.peek (c.selReg m r)).getLsbD b = (s.peek (c.selReg m r)).getLsbD b) ∧
      ∀ o, (∀ r < c.nSel, o ≠ c.selReg m r) → t.peek o = s.peek o

/-- R142: PL_GET_PSET_MEMBERSHIP returns exactly the valid ports whose selector in the plane is `pset`,
and changes no register. -/
def Obligations.GetPsetReturnsTheMembers : Prop :=
  ∀ (s : State) (c : Ctl) (pset media : Byte) (m : Media),
    s.Ready c .portled → c.lay.hasPsetSel = true → pset.toNat ≤ c.psetMax → mediaOf media = some m →
    ∃ t v, exec (.plGetPset pset media) s = .next t ∧ Returned s t (.ok v) ∧
      t = { s with callers := t.callers } ∧
      ∀ p, v.getLsbD p = true ↔ p < c.portCount ∧ c.validMask.getLsbD p = true ∧
        fld (s.peek (c.selLoc m p).off) (c.selLoc m p).lsb 2 = pset.setWidth 32

/-- R141, R142, R85, R192: the errors of the two membership operations, in their order: the family, the
set, the media type; none changes anything but the response. -/
def Obligations.MembershipErrorsComeInOrder : Prop :=
  ∀ (s : State) (c : Ctl) (pset media : Byte) (pmask : PortMask) (i : Instr) (e : Response),
    s.Ready c .portled → i = .plSetPset pset pmask media ∨ i = .plGetPset pset media →
    (c.lay.hasPsetSel = false ∧ e = .error .unsupportedOperation ∨
      c.lay.hasPsetSel = true ∧ c.psetMax < pset.toNat ∧ e = .range c.psetMax ∨
      c.lay.hasPsetSel = true ∧ pset.toNat ≤ c.psetMax ∧ 2 ≤ media.toNat ∧ e = .error .invalidArgument) →
    ∃ t, exec i s = .next t ∧ Returned s t e ∧ t = { s with callers := t.callers }

/-- R143, R30, R31, R146: a legal PL_SET_LED_MODE puts the mode in its field, on Family A in both
copies, and changes no other bit. -/
def Obligations.SetLedModeWritesItsFields : Prop :=
  ∀ (s : State) (c : Ctl) (pset led mode : Byte), s.Ready c .portled →
    pset.toNat ≤ c.psetMax → led.toNat < c.ledCount → mode.toNat ≤ c.lay.modeMax →
    (c.family = .A → mode.toNat ≠ s.params.mode10G) →
    ∃ t, exec (.plSetMode pset led mode) s = .next t ∧ Returned s t (.ok 0) ∧
      t = { s with window := t.window, callers := t.callers } ∧
      (∀ f ∈ c.modeLoc pset.toNat led.toNat, fld (t.peek f.off) f.lsb f.width = mode.setWidth 32) ∧
      (∀ o b, (∀ f ∈ c.modeLoc pset.toNat led.toNat, ¬(o = f.off ∧ f.lsb ≤ b ∧ b < f.lsb + f.width)) →
        (t.peek o).getLsbD b = (s.peek o).getLsbD b)

/-- R143, R192: the errors of PL_SET_LED_MODE in their order: on Family A the 10-gigabit code before
everything, then the set, the LED index, the mode's range; nothing but the response changes. -/
def Obligations.SetLedModeErrorsComeInOrder : Prop :=
  ∀ (s : State) (c : Ctl) (pset led mode : Byte) (e : Response), s.Ready c .portled →
    (c.family = .A ∧ mode.toNat = s.params.mode10G ∧ e = .error .invalidArgument ∨
      ¬(c.family = .A ∧ mode.toNat = s.params.mode10G) ∧
        (c.psetMax < pset.toNat ∧ e = .range c.psetMax ∨
          pset.toNat ≤ c.psetMax ∧ (c.ledCount ≤ led.toNat ∨ c.lay.modeMax < mode.toNat) ∧
            e = .error .invalidArgument)) →
    ∃ t, exec (.plSetMode pset led mode) s = .next t ∧ Returned s t e ∧ t = { s with callers := t.callers }

/-- R144: PL_GET_LED_MODE returns the field, on Family A copy 0, and changes no register; an
out-of-range set or LED index is reported in that order. -/
def Obligations.GetLedModeReturnsTheField : Prop :=
  ∀ (s : State) (c : Ctl) (pset led : Byte), s.Ready c .portled →
    ∃ t e, exec (.plGetMode pset led) s = .next t ∧ Returned s t e ∧ t = { s with callers := t.callers } ∧
      e = if c.psetMax < pset.toNat then Response.range c.psetMax
        else if c.ledCount ≤ led.toNat then Response.error .invalidArgument
        else match c.family with
          | .A => .ok ((fld (s.peek c.lay.modeA) (c.modeFl * led.toNat) c.modeFl).setWidth 64)
          | .B => .ok ((fld (s.peek (if pset.toNat < 2 then c.lay.modeB0 else c.lay.modeB1))
              (16 * (pset.toNat % 2) + 5 * led.toNat) 5).setWidth 64)

/-- R145, R231: two legal mode writes by two callers, in either order, leave both modes in place where
they go to different fields: to different sets or LED indices on Family B, to different LED indices on
Family A. The later one always leaves its mode. -/
def Obligations.TwoModeWritesBothSurvive : Prop :=
  ∀ (s t u : State) (c : Ctl) (k : Nat) (p₁ l₁ m₁ p₂ l₂ m₂ : Byte),
    s.Ready c .portled → k < s.callers.length → (s.caller k).flight = .idle →
    p₁.toNat ≤ c.psetMax → l₁.toNat < c.ledCount → m₁.toNat ≤ c.lay.modeMax →
    p₂.toNat ≤ c.psetMax → l₂.toNat < c.ledCount → m₂.toNat ≤ c.lay.modeMax →
    (c.family = .A → m₁.toNat ≠ s.params.mode10G ∧ m₂.toNat ≠ s.params.mode10G) →
    exec (.plSetMode p₁ l₁ m₁) s = .next t → exec (.plSetMode p₂ l₂ m₂) { t with cur := k } = .next u →
    ((c.family = .A → l₁ ≠ l₂) → (p₁, l₁) ≠ (p₂, l₂) →
      ∀ f ∈ c.modeLoc p₁.toNat l₁.toNat, fld (u.peek f.off) f.lsb f.width = m₁.setWidth 32) ∧
      ∀ f ∈ c.modeLoc p₂.toNat l₂.toNat, fld (u.peek f.off) f.lsb f.width = m₂.setWidth 32

/-! ### Software LEDs -/

/-- R162, R165, R166, R167: PL_SET_USER_MODE puts the raw code in every plane of (port, led), changes no
other bit of a register but, on the load family, the LOAD bit, and there every latch takes its register
in the same step; so the LED's state keeps its source and takes the code. -/
def Obligations.SetUserModeWritesAndCommits : Prop :=
  ∀ (s : State) (c : Ctl) (port led mode : Byte) (raw : BitVec 3), s.Ready c .portled →
    port.toNat < c.portCount → led.toNat < c.ledCount → swRaw c.lay mode = some raw →
    ∃ t, exec (.plSetUserMode port led mode) s = .next t ∧ Returned s t (.ok 0) ∧
      t = { s with window := t.window, swLatch := t.swLatch, callers := t.callers } ∧
      (∀ f ∈ c.swLoc port.toNat led.toNat, fld (t.peek f.off) f.lsb f.width = raw.setWidth 32) ∧
      (∀ o b, (∀ f ∈ c.swLoc port.toNat led.toNat, ¬(o = f.off ∧ f.lsb ≤ b ∧ b < f.lsb + f.width)) →
        (∀ l ∈ c.lay.load, ¬(o = l.off ∧ b = l.bit)) →
        (t.peek o).getLsbD b = (s.peek o).getLsbD b) ∧
      (∀ p, t.swLatch.read 0 p =
        if c.lay.load.isSome ∧ p < c.portCount then t.peek (c.swReg p) else s.swLatch.read 0 p) ∧
      t.ledState c port.toNat led.toNat = ((s.ledState c port.toNat led.toNat).1, raw)

/-- R163: PL_REGISTER_USER_LED writes the enable bit of (port, led) and no other bit; the registry and
the latches stay. -/
def Obligations.RegisterUserLedWritesTheEnableBit : Prop :=
  ∀ (s : State) (c : Ctl) (port led : Byte) (flag : Bool), s.Ready c .portled →
    port.toNat < c.portCount → led.toNat < c.ledCount →
    ∃ t, exec (.plRegisterUserLed port led flag) s = .next t ∧ Returned s t (.ok 0) ∧
      t = { s with window := t.window, callers := t.callers } ∧
      t.enabled c port.toNat led.toNat = flag ∧
      OnlyBits s t (c.enaLoc port.toNat led.toNat).off (mask (c.enaLoc port.toNat led.toNat).bit 1)

/-- R162, R163, R86, R161: an out-of-range port or LED index, or a mode above 7 or without a raw code,
returns InvalidArgument and changes nothing else. -/
def Obligations.UserLedErrorsChangeNothing : Prop :=
  ∀ (s : State) (c : Ctl) (port led mode : Byte) (flag : Bool) (i : Instr), s.Ready c .portled →
    ((c.portCount ≤ port.toNat ∨ c.ledCount ≤ led.toNat) ∧
        (i = .plSetUserMode port led mode ∨ i = .plRegisterUserLed port led flag) ∨
      (7 < mode.toNat ∨ c.lay.swMap.getD mode.toNat none = none) ∧ i = .plSetUserMode port led mode) →
    ∃ t, exec i s = .next t ∧ Returned s t (.error .invalidArgument) ∧ t = { s with callers := t.callers }

/-- R164: after PL_INIT_ALL every software-LED field and every enable bit of every port and LED index
is 0, whatever the registers held; every other bit stays but the LOAD bit; on the load family every
latch takes its register; the registry stays. -/
def Obligations.InitAllClearsEveryLed : Prop :=
  ∀ (s : State) (c : Ctl), s.Ready c .portled →
    ∃ t, exec .plInitAll s = .next t ∧ Returned s t (.ok 0) ∧
      t = { s with window := t.window, swLatch := t.swLatch, callers := t.callers } ∧
      (∀ p < c.portCount, ∀ i < c.ledCount,
        t.enabled c p i = false ∧ ∀ f ∈ c.swLoc p i, fld (t.peek f.off) f.lsb f.width = 0) ∧
      (∀ o b,
        (∀ p < c.portCount, ∀ i < c.ledCount,
          ¬(o = (c.enaLoc p i).off ∧ b = (c.enaLoc p i).bit) ∧
          ∀ f ∈ c.swLoc p i, ¬(o = f.off ∧ f.lsb ≤ b ∧ b < f.lsb + f.width)) →
        (∀ l ∈ c.lay.load, ¬(o = l.off ∧ b = l.bit)) →
        (t.peek o).getLsbD b = (s.peek o).getLsbD b) ∧
      ∀ p, t.swLatch.read 0 p =
        if c.lay.load.isSome ∧ p < c.portCount then t.peek (c.swReg p) else s.swLatch.read 0 p

/-! ### Construction and the registry -/

/-- R180, R181: CTL_CONSTRUCT with a known family and a configuration that passes the model's check
makes the controller. The check, Ctl.ok, asks R7's list and, by the model's choice, more: POLL_MAX and
ENA_PPR at least 1, the global fields inside 32 bits and apart, LOAD's bit below 32 (log entry 13), and
as many port-mask registers as the parameter says in the distinctness of the offsets (log entry 12);
the conclusion that the new controller is Valid says that it passes the same check. The controller has
the family, its layout and PSET_MAX, the counts, and the valid ports without a bit at or above
PORT_COUNT; nothing is bound, every lock free, every caller idle, nothing stale; no register changes;
the constructing caller has the response OK(0), no other caller loses a request or a response, and none
its queue. That the refusal mark stays as it was is the model's reading of R44 (log entry 16). -/
def Obligations.ConstructMakesTheController : Prop :=
  ∀ (s : State) (compat : List Byte) (nports nleds : Byte) (vmask : PortMask) (f : Family),
    s.cur < s.callers.length → s.me.flight = .idle → s.ctl = none →
    compatLookup s.params compat = some (.family f) →
    (newCtl s.params f nports nleds vmask).ok s.params = true →
    ∃ t c, exec (.ctlConstruct compat nports nleds vmask) s = .next t ∧
      t.ctl = some c ∧ c.family = f ∧ c.lay = s.params.layout f ∧ c.portCount = nports.toNat ∧
      c.ledCount = nleds.toNat ∧ c.psetMax = (if f = .B then 3 else s.params.psetMaxA) ∧
      (∀ p, c.validMask.getLsbD p = (vmask.getLsbD p && decide (p < nports.toNat))) ∧
      c.Valid s.params ∧
      (∀ port led : Byte, t.binding port led = .none) ∧ t.globalOwner = none ∧ t.portledOwner = none ∧
      t.miimOwner = none ∧ t.miimStale = none ∧ t.callers.length = s.callers.length ∧
      t.me = { s.me with req := none, flight := .idle, rsp := .ok 0 } ∧
      (∀ k, k ≠ s.cur → t.caller k = { s.caller k with flight := .idle }) ∧
      t = { s with
        ctl := t.ctl, bind := t.bind, globalOwner := none, portledOwner := none, miimOwner := none
        callers := t.callers, miimStale := none }

/-- R180, R192, R7, I19: a second construction is refused; a string without a match, or a placeholder's,
returns UnsupportedFamily before the configuration is looked at; for a known family every configuration
that breaks a constraint of R7, or one the model asks beside them (log entry 13), is refused. No
controller appears. That the caller of a refused request is done with it is the model's reading (log
entry 11). -/
def Obligations.ConstructRefusesAndReportsInOrder : Prop :=
  ∀ (s : State) (compat : List Byte) (nports nleds : Byte) (vmask : PortMask),
    s.cur < s.callers.length → s.me.flight = .idle →
    let i := Instr.ctlConstruct compat nports nleds vmask
    (s.ctl ≠ none →
      ∃ t, exec i s = .next t ∧ t = { s with refused := true, callers := t.callers } ∧
        OnlyMe s t { s.me with req := none }) ∧
    (s.ctl = none →
      compatLookup s.params compat = none ∨ compatLookup s.params compat = some .placeholder →
      ∃ t, exec i s = .next t ∧ Returned s t (.error .unsupportedFamily) ∧
        t = { s with callers := t.callers }) ∧
    (∀ f, s.ctl = none → compatLookup s.params compat = some (.family f) →
      (nports.toNat < 3 ∨ 52 < nports.toNat ∨ 3 < nleds.toNat ∨
        ¬SatisfiesR7 s.params (newCtl s.params f nports nleds vmask) ∨
        (newCtl s.params f nports nleds vmask).ok s.params = false) →
      ∃ t, exec i s = .next t ∧ t = { s with refused := true, callers := t.callers } ∧
        OnlyMe s t { s.me with req := none })

/-- R182: REG_BIND of a valid, unbound pair: a user binding sets the enable bit and no other bit, an
ASIC binding writes no register; that pair alone changes in the registry. -/
def Obligations.BindRegistersThePair : Prop :=
  ∀ (s : State) (c : Ctl) (port led : Byte) (asUser : Bool), s.Ready c .portled →
    port.toNat < c.portCount → led.toNat < c.ledCount → c.validMask.getLsbD port.toNat = true →
    s.binding port led = .none →
    ∃ t, exec (.regBind port led asUser) s = .next t ∧ Returned s t (.ok 0) ∧
      t = { s with window := t.window, bind := t.bind, callers := t.callers } ∧
      (∀ p i : Byte, t.binding p i =
        if p = port ∧ i = led then (if asUser then .user else .asic) else s.binding p i) ∧
      (if asUser then
        t.enabled c port.toNat led.toNat = true ∧
          OnlyBits s t (c.enaLoc port.toNat led.toNat).off (mask (c.enaLoc port.toNat led.toNat).bit 1)
      else t.window = s.window)

/-- R183: REG_UNBIND of a bound pair: a user binding clears the enable bit and no other bit, an ASIC
binding writes no register; that pair alone becomes unbound. -/
def Obligations.UnbindReleasesThePair : Prop :=
  ∀ (s : State) (c : Ctl) (port led : Byte), s.Ready c .portled →
    port.toNat < c.portCount → led.toNat < c.ledCount → c.validMask.getLsbD port.toNat = true →
    s.binding port led ≠ .none →
    ∃ t, exec (.regUnbind port led) s = .next t ∧ Returned s t (.ok 0) ∧
      t = { s with window := t.window, bind := t.bind, callers := t.callers } ∧
      (∀ p i : Byte, t.binding p i = if p = port ∧ i = led then .none else s.binding p i) ∧
      (if s.binding port led = .user then
        t.enabled c port.toNat led.toNat = false ∧
          OnlyBits s t (c.enaLoc port.toNat led.toNat).off (mask (c.enaLoc port.toNat led.toNat).bit 1)
      else t.window = s.window)

/-- R194: registering a registered pair, in either mode, and unregistering an unregistered one return OK
with a warning and change nothing else. -/
def Obligations.RegistryWarningsChangeNothing : Prop :=
  ∀ (s : State) (c : Ctl) (port led : Byte) (i : Instr), s.Ready c .portled →
    port.toNat < c.portCount → led.toNat < c.ledCount → c.validMask.getLsbD port.toNat = true →
    (s.binding port led ≠ .none ∧ (∃ asUser, i = .regBind port led asUser) ∨
      s.binding port led = .none ∧ i = .regUnbind port led) →
    ∃ t, exec i s = .next t ∧
      Returned s t { status := .ok, value := 0, limit := 0, warn := true } ∧
      t = { s with callers := t.callers }

/-- R182, R183, R192: a port or LED index out of range, or a port without an LED, returns
InvalidArgument and changes nothing else. -/
def Obligations.RegistryErrorsChangeNothing : Prop :=
  ∀ (s : State) (c : Ctl) (port led : Byte) (asUser : Bool) (i : Instr), s.Ready c .portled →
    (c.portCount ≤ port.toNat ∨ c.ledCount ≤ led.toNat ∨ c.validMask.getLsbD port.toNat = false) →
    i = .regBind port led asUser ∨ i = .regUnbind port led →
    ∃ t, exec i s = .next t ∧ Returned s t (.error .invalidArgument) ∧ t = { s with callers := t.callers }

/-- R184: binding a valid unbound pair and unbinding it again leaves its enable bit as it was, if the
binding was not a user one or the bit was 0; a user binding of a pair whose bit was 1 ends with 0. -/
def Obligations.BindThenUnbindRestoresTheEnableBit : Prop :=
  ∀ (s t u : State) (c : Ctl) (port led : Byte) (asUser : Bool), s.Ready c .portled →
    port.toNat < c.portCount → led.toNat < c.ledCount → c.validMask.getLsbD port.toNat = true →
    s.binding port led = .none →
    exec (.regBind port led asUser) s = .next t → exec (.regUnbind port led) t = .next u →
    u.binding port led = .none ∧
      (asUser = false ∨ s.enabled c port.toNat led.toNat = false →
        u.enabled c port.toNat led.toNat = s.enabled c port.toNat led.toNat) ∧
      (asUser = true → u.enabled c port.toNat led.toNat = false)

/-- R185: REG_BIND and REG_UNBIND, whatever they return, keep every user binding enabled, and so does
PL_INIT_ALL while every pair is unbound. That PL_INIT_ALL leaves no pair enabled that is not bound to
software, whatever the enable bits held, and REG_BIND and REG_UNBIND keep this. -/
def Obligations.RegistryOperationsKeepUserBindingsEnabled : Prop :=
  ∀ (s t : State) (c : Ctl) (i : Instr), s.Ready c .portled →
    ((∃ port led asUser, i = .regBind port led asUser) ∨ (∃ port led, i = .regUnbind port led) ∨
      i = .plInitAll ∧ ∀ port led : Byte, s.binding port led = .none) →
    exec i s = .next t →
    (s.RegistryConsistent c → t.RegistryConsistent c) ∧
      (s.EnabledOnlyUser c ∨ i = .plInitAll → t.EnabledOnlyUser c)

/-- R191: an operation that ends with InvalidArgument, RangeError, UnsupportedFamily or
UnsupportedOperation has changed nothing but its own caller's record: no register, no memory, no lock. -/
def Obligations.RejectedCallChangesNothing : Prop :=
  ∀ (s t : State) (i : Instr), exec i s = .next t → s.me.req ≠ none → t.me.req = none →
    t.me.rsp.status ≠ .ok → t.me.rsp.status ≠ .busTimeout → t.refused = s.refused →
    t = { s with callers := t.callers } ∧ ∀ j, j ≠ s.cur → t.caller j = s.caller j

/-- R145: two legal PL_SET_PSET_MEMBERSHIP calls on one plane by two callers, in either order, both
survive in every selector register: a port takes the set of the later call that names it, else that of
the earlier one, else keeps its selector. -/
def Obligations.TwoMembershipWritesBothSurvive : Prop :=
  ∀ (s t u : State) (c : Ctl) (k : Nat) (q₁ q₂ media : Byte) (pmask₁ pmask₂ : PortMask) (m : Media),
    s.Ready c .portled → k < s.callers.length → (s.caller k).flight = .idle →
    c.lay.hasPsetSel = true → q₁.toNat ≤ c.psetMax → q₂.toNat ≤ c.psetMax → mediaOf media = some m →
    exec (.plSetPset q₁ pmask₁ media) s = .next t →
    exec (.plSetPset q₂ pmask₂ media) { t with cur := k } = .next u →
    ∀ p < c.portCount, fld (u.peek (c.selLoc m p).off) (c.selLoc m p).lsb 2 =
      if pmask₂.getLsbD p ∧ c.validMask.getLsbD p then q₂.setWidth 32
      else if pmask₁.getLsbD p ∧ c.validMask.getLsbD p then q₁.setWidth 32
      else fld (s.peek (c.selLoc m p).off) (c.selLoc m p).lsb 2
end

