-- ==== Sys2Proof/Laws/Bits.lean ====
section
/-! SUPPORT. The bits of masks, fields and merged words. -/

namespace Sys2Proof.Machine

@[simp] theorem getLsbD_one_shift_sub_one (w i : Nat) :
    (((1 : Word) <<< w) - 1).getLsbD i = (decide (i < 32) && decide (i < w)) := by
  by_cases hw : w < 32
  · have h : ((1 : Word) <<< w) - 1 = BitVec.ofNat 32 (2 ^ w - 1) := by
      apply BitVec.eq_of_toNat_eq
      have h1 : 2 ^ w < 2 ^ 32 := Nat.pow_lt_pow_right (by omega) hw
      have h0 : 0 < 2 ^ w := Nat.two_pow_pos w
      have e1 : (1 : Word).toNat = 1 := rfl
      rw [BitVec.toNat_sub, BitVec.toNat_shiftLeft, BitVec.toNat_ofNat, e1, Nat.shiftLeft_eq, one_mul,
        Nat.mod_eq_of_lt h1]
      omega
    rw [h, BitVec.getLsbD_ofNat, Nat.testBit_two_pow_sub_one]
  · have h : (1 : Word) <<< w = 0 := by
      apply BitVec.eq_of_getLsbD_eq
      intro k hk
      simp only [BitVec.getLsbD_shiftLeft]
      have hkw : k < w := by omega
      simp [hkw]
    rw [h]
    by_cases hi : i < 32
    · have : (0 - 1 : Word) = BitVec.allOnes 32 := by decide
      rw [this, BitVec.getLsbD_allOnes]
      have : i < w := by omega
      simp [this]
    · simp [hi, BitVec.getLsbD_of_ge _ _ (by omega : 32 ≤ i)]

@[simp] theorem getLsbD_mask (lsb w i : Nat) :
    (mask lsb w).getLsbD i = (decide (i < 32) && decide (lsb ≤ i) && decide (i < lsb + w)) := by
  unfold mask
  rw [BitVec.getLsbD_shiftLeft, getLsbD_one_shift_sub_one, Bool.eq_iff_iff]
  simp only [Bool.and_eq_true, Bool.not_eq_true', decide_eq_true_eq, decide_eq_false_iff_not]
  omega

@[simp] theorem getLsbD_fld (v : Word) (lsb w i : Nat) :
    (fld v lsb w).getLsbD i = (v.getLsbD (lsb + i) && decide (i < w)) := by
  unfold fld
  rw [BitVec.getLsbD_and, BitVec.getLsbD_ushiftRight, getLsbD_one_shift_sub_one]
  by_cases h : i < 32
  · simp [h]
  · simp [h, BitVec.getLsbD_of_ge _ _ (by omega : 32 ≤ lsb + i)]

@[simp] theorem getLsbD_mergeBits (old m v : Word) (i : Nat) :
    (mergeBits old m v).getLsbD i = if m.getLsbD i then v.getLsbD i else old.getLsbD i := by
  unfold mergeBits
  rw [BitVec.getLsbD_or, BitVec.getLsbD_and, BitVec.getLsbD_and, BitVec.getLsbD_not]
  by_cases h : i < 32
  · cases m.getLsbD i <;> simp only [h, decide_true] <;> simp
  · rw [BitVec.getLsbD_of_ge old i (by omega), BitVec.getLsbD_of_ge v i (by omega)]; simp

@[simp] theorem getLsbD_putBit (w : Word) (n i : Nat) (b : Bool) :
    (putBit w n b).getLsbD i = if i < 32 ∧ i = n then b else w.getLsbD i := by
  unfold putBit
  rw [getLsbD_mergeBits, getLsbD_mask]
  by_cases h : i < 32 ∧ i = n
  · obtain ⟨h1, rfl⟩ := h
    cases b <;> simp [h1]
  · have : (decide (i < 32) && decide (n ≤ i) && decide (i < n + 1)) = false := by
      simp only [Bool.and_eq_false_iff, decide_eq_false_iff_not]; omega
    rw [this, if_neg h]; rfl

/-- A one-bit field is 1 exactly when its bit is. -/
theorem fld_one_eq (v : Word) (n : Nat) : (fld v n 1 == 1) = v.getLsbD n := by
  have h : fld v n 1 = if v.getLsbD n then 1 else 0 := by
    apply BitVec.eq_of_getLsbD_eq
    intro i hi
    rw [getLsbD_fld]
    by_cases h0 : i = 0
    · subst h0; cases v.getLsbD n <;> simp
    · have : ¬ i < 1 := by omega
      cases v.getLsbD n <;> simp [this, h0]
  rw [h]; cases v.getLsbD n <;> decide

@[simp] theorem cmdBit_eq (L : CmdLayout) (w : Word) : cmdBit L w = w.getLsbD L.cmdLsb := fld_one_eq w _

@[simp] theorem rwopBit_eq (L : CmdLayout) (w : Word) : rwopBit L w = w.getLsbD L.rwopLsb := fld_one_eq w _

@[simp] theorem getLsbD_phyField (L : CmdLayout) (w : Word) (i : Nat) :
    (phyField L w).getLsbD i = (decide (i < 5) && w.getLsbD (L.phyLsb + i)) := by
  unfold phyField; rw [BitVec.getLsbD_setWidth, getLsbD_fld]; cases decide (i < 5) <;> simp

@[simp] theorem getLsbD_regField (L : CmdLayout) (w : Word) (i : Nat) :
    (regField L w).getLsbD i = (decide (i < 5) && w.getLsbD (L.regLsb + i)) := by
  unfold regField; rw [BitVec.getLsbD_setWidth, getLsbD_fld]; cases decide (i < 5) <;> simp

@[simp] theorem getLsbD_dataField (L : CmdLayout) (w : Word) (i : Nat) :
    (dataField L w).getLsbD i = (decide (i < 16) && w.getLsbD (L.dataLsb + i)) := by
  unfold dataField; rw [BitVec.getLsbD_setWidth, getLsbD_fld]; cases decide (i < 16) <;> simp

/-- RMW with an empty mask leaves the word as it is (R102). -/
@[simp] theorem mergeBits_zero_mask (old v : Word) : mergeBits old 0 v = old := by
  apply BitVec.eq_of_getLsbD_eq; intro i _; rw [getLsbD_mergeBits]; simp

theorem getLsbD_mask_iff (l w b : Nat) : (mask l w).getLsbD b = true ↔ b < 32 ∧ l ≤ b ∧ b < l + w := by
  rw [getLsbD_mask]; simp [and_assoc]

/-- A field of a merged word whose bits the mask engages is the field of the value. -/
theorem fld_mergeBits {old m v x : Word} {l w : Nat} (hm : ∀ i < w, m.getLsbD (l + i) = true)
    (hv : ∀ i < w, v.getLsbD (l + i) = x.getLsbD i) (hx : ∀ i, w ≤ i → x.getLsbD i = false) :
    fld (mergeBits old m v) l w = x := by
  apply BitVec.eq_of_getLsbD_eq
  intro i _
  rw [getLsbD_fld, getLsbD_mergeBits]
  by_cases h : i < w
  · simp [h, hm i h, hv i h]
  · simp [h, hx i (by omega)]

/-- The bits of a disjunction collected over the chosen elements of a list. -/
theorem getLsbD_foldl_or {n : Nat} {α : Type} (l : List α) (q : α → Bool) (g : α → BitVec n) (acc : BitVec n)
    (b : Nat) :
    (l.foldl (fun acc p => if q p then acc ||| g p else acc) acc).getLsbD b = true ↔
      acc.getLsbD b = true ∨ ∃ p ∈ l, q p = true ∧ (g p).getLsbD b = true := by
  induction l generalizing acc with
  | nil => simp
  | cons x rest ih =>
    rw [List.foldl_cons, ih]
    by_cases h : q x = true
    · simp only [h, if_true, BitVec.getLsbD_or, Bool.or_eq_true, List.mem_cons, exists_eq_or_imp, true_and]
      tauto
    · simp only [h, List.mem_cons, exists_eq_or_imp]
      simp

/-- A legal command-word layout (R7): each field inside the word, no two of them overlapping. -/
theorem cmdLayoutOk_fields {L : CmdLayout} (h : cmdLayoutOk L = true) :
    (L.cmdLsb < 32 ∧ L.rwopLsb < 32 ∧ L.phyLsb + 5 ≤ 32 ∧ L.regLsb + 5 ≤ 32 ∧ L.dataLsb + 16 ≤ 32) ∧
    (L.cmdLsb + 1 ≤ L.rwopLsb ∨ L.rwopLsb + 1 ≤ L.cmdLsb) ∧
    (L.cmdLsb + 1 ≤ L.phyLsb ∨ L.phyLsb + 5 ≤ L.cmdLsb) ∧
    (L.cmdLsb + 1 ≤ L.regLsb ∨ L.regLsb + 5 ≤ L.cmdLsb) ∧
    (L.cmdLsb + 1 ≤ L.dataLsb ∨ L.dataLsb + 16 ≤ L.cmdLsb) ∧
    (L.rwopLsb + 1 ≤ L.phyLsb ∨ L.phyLsb + 5 ≤ L.rwopLsb) ∧
    (L.rwopLsb + 1 ≤ L.regLsb ∨ L.regLsb + 5 ≤ L.rwopLsb) ∧
    (L.rwopLsb + 1 ≤ L.dataLsb ∨ L.dataLsb + 16 ≤ L.rwopLsb) ∧
    (L.phyLsb + 5 ≤ L.regLsb ∨ L.regLsb + 5 ≤ L.phyLsb) ∧
    (L.phyLsb + 5 ≤ L.dataLsb ∨ L.dataLsb + 16 ≤ L.phyLsb) ∧
    (L.regLsb + 5 ≤ L.dataLsb ∨ L.dataLsb + 16 ≤ L.regLsb) := by
  unfold cmdLayoutOk at h
  rw [Bool.and_eq_true] at h
  obtain ⟨h1, h2⟩ := h
  have h2 := of_decide_eq_true h2
  simp only [cmdFields, List.all_eq_true, decide_eq_true_eq, List.mem_cons, List.not_mem_nil, or_false,
    forall_eq_or_imp, forall_eq] at h1
  simp only [cmdFields, List.pairwise_cons, List.mem_cons, List.not_mem_nil, or_false, forall_eq_or_imp,
    forall_eq] at h2
  obtain ⟨a1, a2, a3, a4, a5⟩ := h1
  obtain ⟨⟨b1, b2, b3, b4⟩, ⟨d1, d2, d3⟩, ⟨e1, e2⟩, f1, -⟩ := h2
  exact ⟨⟨by omega, by omega, a3, a4, a5⟩, b1, b2, b3, b4, d1, d2, d3, e1, e2, f1⟩

end Sys2Proof.Machine
end

