-- ==== Sys2Proof/Laws/Layout.lean ====
section
/-! SUPPORT. What R7 gives: the registers an operation names exist, lie in its lock domain, are not
the load register, and are distinct; and that a valid controller satisfies the whole of R7. -/

namespace Sys2Proof.Machine

variable {P : Params} {c : Ctl}

theorem Ctl.Valid.widths (h : c.Valid P) : c.widthsOk P = true := by
  have := h.1; simp only [Ctl.ok, Bool.and_eq_true] at this; exact this.1.1

theorem Ctl.Valid.places (h : c.Valid P) : c.placesOk P = true := by
  have := h.1; simp only [Ctl.ok, Bool.and_eq_true] at this; exact this.1.2

theorem Ctl.Valid.counts (h : c.Valid P) :
    3 ≤ c.portCount ∧ c.portCount ≤ 52 ∧ c.ledCount ≤ 3 ∧ P.psetMaxA ≤ 2 ∧ 1 ≤ P.pollMax := by
  have := h.widths; simp only [Ctl.widthsOk, Bool.and_eq_true, decide_eq_true_eq] at this; exact this.1.1.1.1.1

theorem Ctl.Valid.modes (h : c.Valid P) :
    P.layoutA.modeMax < 2 ^ flOf P.layoutA c.ledCount ∧ P.layoutB.modeMax < 2 ^ Config.modeFlB := by
  have := h.widths
  simp only [Ctl.widthsOk, Bool.and_eq_true] at this; exact of_decide_eq_true this.1.1.1.2

/-- The mode fields fit in their half-words (R7). -/
theorem Ctl.Valid.modeA (h : c.Valid P) (hf : c.family = .A) :
    c.modeFl * c.ledCount ≤ c.lay.dupOffA ∧ c.lay.dupOffA + c.modeFl * c.ledCount ≤ 32 ∧
      c.lay.modeMax < 2 ^ c.modeFl := by
  have hm := h.modes.1
  have := h.widths
  simp only [Ctl.widthsOk, Bool.and_eq_true, decide_eq_true_eq, hf] at this
  rw [show P.layoutA = c.lay by rw [h.2.1, hf]; rfl] at hm
  exact ⟨this.1.1.1.1.2.1, this.1.1.1.1.2.2, hm⟩

theorem Ctl.Valid.modeB (h : c.Valid P) (hf : c.family = .B) : c.lay.modeMax < 2 ^ 5 := by
  have hm := h.modes.2
  rwa [show P.layoutB = c.lay by rw [h.2.1, hf]; rfl] at hm

/-- The software-LED fields of both planes fit (R7). -/
theorem Ctl.Valid.sw (h : c.Valid P) :
    3 * c.ledCount ≤ c.lay.swMirrorOff ∧ c.lay.swMirrorOff + 3 * c.ledCount ≤ 32 := by
  have := h.widths
  simp only [Ctl.widthsOk, Bool.and_eq_true, Config.swFl] at this
  exact of_decide_eq_true this.1.1.2

/-- The enable groups fit (R7). -/
theorem Ctl.Valid.ena (h : c.Valid P) :
    c.ledCount ≤ c.lay.enaFl ∧ 1 ≤ c.lay.enaPpr ∧ c.lay.enaPpr * c.lay.enaFl ≤ 32 := by
  have := h.widths
  simp only [Ctl.widthsOk, Bool.and_eq_true, decide_eq_true_eq] at this; exact this.1.2

/-- The command-word fields fit and do not overlap (R7). -/
theorem Ctl.Valid.cmd (h : c.Valid P) : cmdLayoutOk c.lay.cmd = true := by
  have := h.widths
  simp only [Ctl.widthsOk, Bool.and_eq_true] at this; exact this.2

/-- At most four LED sets (R7, R180): the selector field holds any legal set. -/
theorem Ctl.Valid.psetMax_le (h : c.Valid P) : c.psetMax ≤ 3 := by
  rw [h.2.2.1]
  cases c.family with
  | A => exact Nat.le_succ_of_le h.counts.2.2.2.1
  | B => exact Nat.le_refl 3

theorem Ctl.Valid.nodup (h : c.Valid P) : (c.lay.miimCmd :: c.portledRegs).Nodup := by
  have := h.places
  simp only [Ctl.placesOk, Bool.and_eq_true, decide_eq_true_eq] at this; exact this.1.1.1.1.2

theorem Ctl.Valid.global_apart (h : c.Valid P) (o : Nat) (ho : o ∈ c.globalRegs) :
    o ∉ c.lay.miimCmd :: c.portledRegs := by
  have := h.places
  simp only [Ctl.placesOk, Bool.and_eq_true, List.all_eq_true, decide_eq_true_eq] at this
  exact this.1.1.1.2 o ho

/-- A global field lies inside its 32-bit register (R24–R27). -/
theorem Ctl.Valid.global_fits (h : c.Valid P) (f : FieldLoc) (hf : f ∈ c.globalFields) :
    f.lsb + f.width ≤ 32 := by
  have := h.places
  simp only [Ctl.placesOk, Bool.and_eq_true, List.all_eq_true, decide_eq_true_eq] at this
  exact this.1.1.2 f hf

/-- The load strobe is a bit of its register. -/
theorem Ctl.Valid.load_fits (h : c.Valid P) (l : BitLoc) (hl : c.lay.load = some l) : l.bit < 32 := by
  have := h.places
  simp only [Ctl.placesOk, Bool.and_eq_true, hl, Option.all_some, decide_eq_true_eq] at this
  exact this.2

/-! ### Lock domains -/

theorem Ctl.domainOf_global {o : Nat} (ho : o ∈ c.globalRegs) : c.domainOf o = some .global := by
  simp [Ctl.domainOf, ho]

theorem Ctl.Valid.domainOf_miimCmd (h : c.Valid P) : c.domainOf c.lay.miimCmd = some .miim := by
  have : c.lay.miimCmd ∉ c.globalRegs := fun hm => h.global_apart _ hm List.mem_cons_self
  simp [Ctl.domainOf, this]

theorem Ctl.Valid.domainOf_portled (h : c.Valid P) {o : Nat} (ho : o ∈ c.portledRegs) :
    c.domainOf o = some .portled := by
  have h1 : o ∉ c.globalRegs := fun hm => h.global_apart _ hm (List.mem_cons_of_mem _ ho)
  have h2 : o ≠ c.lay.miimCmd := fun he => (List.nodup_cons.mp h.nodup).1 (he ▸ ho)
  simp [Ctl.domainOf, h1, h2, ho]

theorem Ctl.Valid.domainOf_led (h : c.Valid P) {o : Nat} (ho : o ∈ c.ledRegs) :
    c.domainOf o = some .portled :=
  h.domainOf_portled (List.mem_append_left _ ho)

theorem Ctl.isReg_of_domain {o : Nat} {d : Domain} (h : c.domainOf o = some d) : c.isReg o = true := by
  simp [Ctl.isReg, h]

/-! ### The load register is none of the others -/

theorem Ctl.isLoad_mem {o : Nat} (h : c.isLoad o = true) : o ∈ c.portledRegs := by
  cases hl : c.lay.load with
  | none => simp [Ctl.isLoad, hl] at h
  | some l =>
    simp only [Ctl.isLoad, hl, Option.any_some, beq_iff_eq] at h
    simp [Ctl.portledRegs, hl, h]

theorem Ctl.Valid.notLoad_of_not_portled (h : c.Valid P) {o : Nat} (ho : c.domainOf o ≠ some .portled) :
    c.isLoad o = false := by
  cases hl : c.isLoad o with
  | false => rfl
  | true => exact absurd (h.domainOf_portled (Ctl.isLoad_mem hl)) ho

theorem Ctl.Valid.notLoad_led (h : c.Valid P) {o : Nat} (ho : o ∈ c.ledRegs) : c.isLoad o = false := by
  cases hl : c.lay.load with
  | none => simp [Ctl.isLoad, hl]
  | some l =>
    have hn := (List.nodup_cons.mp h.nodup).2
    simp only [Ctl.portledRegs, hl, Option.map_some, Option.toList_some, List.nodup_append] at hn
    have : o ≠ l.off := fun he => hn.2.2 o ho l.off (List.mem_singleton.mpr rfl) he
    simp [Ctl.isLoad, hl, Ne.symm this]

theorem Ctl.Valid.notLoad_miimCmd (h : c.Valid P) : c.isLoad c.lay.miimCmd = false :=
  h.notLoad_of_not_portled (by rw [h.domainOf_miimCmd]; decide)

theorem Ctl.Valid.notLoad_global (h : c.Valid P) {o : Nat} (ho : o ∈ c.globalRegs) : c.isLoad o = false :=
  h.notLoad_of_not_portled (by rw [Ctl.domainOf_global ho]; decide)

theorem Ctl.notStrobe_of_notLoad {o : Nat} (h : c.isLoad o = false) (v : Word) : c.strobes o v = false := by
  cases hl : c.lay.load with
  | none => simp [Ctl.strobes, hl]
  | some l =>
    simp only [Ctl.isLoad, hl, Option.any_some, beq_eq_false_iff_ne] at h
    simp [Ctl.strobes, hl, h]

/-! ### Which registers the operations name -/

theorem mem_regsFrom {base n r : Nat} (h : r < n) : base + 4 * r ∈ regsFrom base n :=
  List.mem_map.mpr ⟨r, List.mem_range.mpr h, rfl⟩

theorem lt_ceilDiv {a b k : Nat} (hb : 0 < b) (h : k < a) : k / b < ceilDiv a b := by
  unfold ceilDiv
  have h1 : (k + b) / b ≤ (a + b - 1) / b := Nat.div_le_div_right (by omega)
  rw [Nat.add_div_right k hb] at h1
  exact h1

theorem Ctl.miimEn_mem (c : Ctl) : c.lay.miimEn.off ∈ c.globalRegs := List.mem_cons_self

theorem Ctl.miimClk_mem {f : FieldLoc} (h : c.lay.miimClk = some f) : f.off ∈ c.globalRegs := by
  simp [Ctl.globalRegs, h]

theorem Ctl.plActive_mem {l : BitLoc} (h : c.lay.plActive = some l) : l.off ∈ c.globalRegs := by
  simp [Ctl.globalRegs, h]

theorem Ctl.modeReg_mem (c : Ctl) (s : Nat) : c.modeReg s ∈ c.ledRegs := by
  have : c.modeReg s ∈ c.modeRegs := by
    unfold Ctl.modeReg Ctl.modeRegs
    cases c.family with
    | A => simp
    | B => by_cases h : s / 2 = 0 <;> simp [h]
  simp [Ctl.ledRegs, this]

theorem Ctl.selReg_mem (hs : c.lay.hasPsetSel = true) (m : Media) {r : Nat} (h : r < c.nSel) :
    c.selReg m r ∈ c.ledRegs := by
  have : c.selReg m r ∈ regsFrom c.lay.selCopper c.nSel ++ regsFrom c.lay.selFibre c.nSel := by
    cases m with
    | copper => exact List.mem_append_left _ (mem_regsFrom h)
    | fibre => exact List.mem_append_right _ (mem_regsFrom h)
  simp only [Ctl.ledRegs, hs, if_true, List.mem_append] at *
  tauto

theorem Ctl.swReg_mem {p : Nat} (h : p < c.portCount) : c.swReg p ∈ c.ledRegs := by
  have : c.swReg p ∈ regsFrom c.lay.swBase c.portCount := mem_regsFrom h
  simp only [Ctl.ledRegs, List.mem_append]; tauto

theorem Ctl.enaReg_mem {r : Nat} (h : r < c.nEna) : c.enaReg r ∈ c.ledRegs := by
  have : c.enaReg r ∈ regsFrom c.lay.enaBase c.nEna := mem_regsFrom h
  simp only [Ctl.ledRegs, List.mem_append]; tauto

theorem Ctl.Valid.enaLoc_mem (h : c.Valid P) {p : Nat} (i : Nat) (hp : p < c.portCount) :
    (c.enaLoc p i).off ∈ c.ledRegs :=
  Ctl.enaReg_mem (lt_ceilDiv h.ena.2.1 hp)

theorem Ctl.Valid.enaBit_lt (h : c.Valid P) (p : Nat) {i : Nat} (hi : i < c.ledCount) : c.enaBit p i < 32 := by
  obtain ⟨h1, h2, h3⟩ := h.ena
  have hm : p % c.lay.enaPpr < c.lay.enaPpr := Nat.mod_lt _ h2
  have : (p % c.lay.enaPpr + 1) * c.lay.enaFl ≤ c.lay.enaPpr * c.lay.enaFl := Nat.mul_le_mul_right _ hm
  rw [Nat.add_mul, Nat.one_mul] at this
  unfold Ctl.enaBit
  omega

/-! ### Distinct registers -/

theorem Ctl.Valid.led_nodup (h : c.Valid P) : c.ledRegs.Nodup :=
  (List.nodup_append.mp (List.nodup_cons.mp h.nodup).2).1

theorem Ctl.Valid.swReg_ne_enaReg (h : c.Valid P) {p r : Nat} (hp : p < c.portCount) (hr : r < c.nEna) :
    c.swReg p ≠ c.enaReg r := by
  have hn := h.led_nodup
  simp only [Ctl.ledRegs] at hn
  exact (List.nodup_append.mp hn).2.2 _ (List.mem_append_right _ (mem_regsFrom hp)) _ (mem_regsFrom hr)

theorem Ctl.Valid.selReg_ne (h : c.Valid P) (hs : c.lay.hasPsetSel = true) {r r' : Nat} (hr : r < c.nSel)
    (hr' : r' < c.nSel) : c.selReg .copper r ≠ c.selReg .fibre r' := by
  have hn := h.led_nodup
  simp only [Ctl.ledRegs, hs, if_true, List.append_assoc] at hn
  have h2 := (List.nodup_append.mp hn).2.1
  rw [← List.append_assoc] at h2
  have h3 := (List.nodup_append.mp h2).1
  exact (List.nodup_append.mp h3).2.2 _ (mem_regsFrom hr) _ (mem_regsFrom hr')

theorem Ctl.swReg_inj {p q : Nat} (h : c.swReg p = c.swReg q) : p = q := by unfold Ctl.swReg at h; omega

theorem Ctl.enaReg_inj {p q : Nat} (h : c.enaReg p = c.enaReg q) : p = q := by unfold Ctl.enaReg at h; omega

theorem Ctl.selReg_inj {m : Media} {p q : Nat} (h : c.selReg m p = c.selReg m q) : p = q := by
  unfold Ctl.selReg at h; omega

/-- Two pairs in one enable register have different bits (R95). -/
theorem Ctl.Valid.enaBit_inj (h : c.Valid P) {p q i j : Nat} (hi : i < c.ledCount) (hj : j < c.ledCount)
    (hreg : p / c.lay.enaPpr = q / c.lay.enaPpr) (hbit : c.enaBit p i = c.enaBit q j) : p = q ∧ i = j := by
  obtain ⟨h1, h2, _⟩ := h.ena
  unfold Ctl.enaBit at hbit
  have hi' : i < c.lay.enaFl := by omega
  have hj' : j < c.lay.enaFl := by omega
  have hpos : 0 < c.lay.enaFl := by omega
  have e1 : (p % c.lay.enaPpr * c.lay.enaFl + i) / c.lay.enaFl = p % c.lay.enaPpr := by
    rw [Nat.mul_comm, Nat.mul_add_div hpos, Nat.div_eq_of_lt hi', Nat.add_zero]
  have e2 : (q % c.lay.enaPpr * c.lay.enaFl + j) / c.lay.enaFl = q % c.lay.enaPpr := by
    rw [Nat.mul_comm, Nat.mul_add_div hpos, Nat.div_eq_of_lt hj', Nat.add_zero]
  have e : p % c.lay.enaPpr = q % c.lay.enaPpr := by rw [← e1, ← e2, hbit]
  have hp := Nat.div_add_mod p c.lay.enaPpr
  have hq := Nat.div_add_mod q c.lay.enaPpr
  rw [hreg, e, hq] at hp
  refine ⟨hp.symm, ?_⟩
  rw [e] at hbit
  omega

/-- Every register of a valid layout lies where a primitive access may go (R7, R64). -/
theorem Ctl.Valid.offset_ok (h : c.Valid P) {o : Nat} (ho : c.isReg o = true) :
    o % 4 = 0 ∧ o < P.windowSize := by
  have hp := h.places
  simp only [Ctl.placesOk, Bool.and_eq_true, List.all_eq_true] at hp
  have hall := hp.1.1.1.1.1 o (by
    unfold Ctl.isReg Ctl.domainOf at ho
    simp only [List.mem_append, List.mem_cons]
    split at ho
    · exact .inl ‹_›
    · split at ho
      · exact .inr (.inl ‹_›)
      · split at ho
        · exact .inr (.inr ‹_›)
        · cases ho)
  simpa only [offsetOk, Bool.and_eq_true, beq_iff_eq, decide_eq_true_eq] using hall

/-- Two entries of a list whose defined entries are distinct are the same entry. -/
theorem getD_inj_of_nodup {α : Type} (l : List (Option α)) (h : (l.filterMap id).Nodup) {i j : Nat} {a : α}
    (hi : l.getD i none = some a) (hj : l.getD j none = some a) : i = j := by
  induction l generalizing i j with
  | nil => cases hi
  | cons x l ih =>
    have mem : ∀ k, l.getD k none = some a → a ∈ l.filterMap id := fun k hk => by
      rw [List.getD_eq_getElem?_getD] at hk
      cases e : l[k]? with
      | none => simp [e] at hk
      | some y =>
        rw [e] at hk
        exact List.mem_filterMap.mpr ⟨y, List.mem_of_getElem? e, hk⟩
    have tail : (l.filterMap id).Nodup := by
      cases x with
      | none => exact h
      | some y => exact (List.nodup_cons.mp h).2
    cases i with
    | zero =>
      cases j with
      | zero => rfl
      | succ j =>
        have e : x = some a := hi
        subst e
        exact absurd (mem j hj) (List.nodup_cons.mp h).1
    | succ i =>
      cases j with
      | zero =>
        have e : x = some a := hj
        subst e
        exact absurd (mem i hi) (List.nodup_cons.mp h).1
      | succ j => rw [ih tail (i := i) (j := j) hi hj]

/-- SW_MAP of each family is injective where defined and gives OFF the code 0 (R7). -/
theorem Ctl.Valid.swMap (h : c.Valid P) (f : Family) : swMapOk (P.layout f) = true := by
  have := h.1
  simp only [Ctl.ok, Bool.and_eq_true] at this
  cases f with
  | A => exact this.2.1
  | B => exact this.2.2

/-- Bit `p` of the mask of the ports below `n` (R181). -/
@[simp] theorem getLsbD_portsBelow (n p : Nat) (hn : n < 64) : (portsBelow n).getLsbD p = decide (p < n) := by
  unfold portsBelow
  have h : ((1 : PortMask) <<< n) - 1 = BitVec.ofNat 64 (2 ^ n - 1) := by
    apply BitVec.eq_of_toNat_eq
    have h1 : 2 ^ n < 2 ^ 64 := Nat.pow_lt_pow_right (by omega) hn
    have h0 : 0 < 2 ^ n := Nat.two_pow_pos n
    have e1 : (1 : PortMask).toNat = 1 := rfl
    rw [BitVec.toNat_sub, BitVec.toNat_shiftLeft, BitVec.toNat_ofNat, e1, Nat.shiftLeft_eq, one_mul,
      Nat.mod_eq_of_lt h1]
    omega
  rw [h, BitVec.getLsbD_ofNat, Nat.testBit_two_pow_sub_one]
  by_cases hp : p < 64
  · simp [hp]
  · simp [hp]; omega

/-- No valid port lies at or above PORT_COUNT (R7, R181). -/
theorem Ctl.Valid.mask_trimmed (h : c.Valid P) : c.validMask >>> c.portCount = 0 := by
  have hn := h.counts.2.1
  apply BitVec.eq_of_getLsbD_eq
  intro i _
  have hm := congrArg (fun v : PortMask => v.getLsbD (c.portCount + i)) h.2.2.2
  simp only [BitVec.getLsbD_and, BitVec.getLsbD_not, getLsbD_portsBelow _ _ (show c.portCount < 64 by omega)] at hm
  rw [BitVec.getLsbD_ushiftRight]
  by_cases h64 : c.portCount + i < 64
  · simpa [h64] using hm
  · rw [BitVec.getLsbD_of_ge _ _ (by omega)]; simp

/-- What Ctl.ok asks of a controller construction can make is all of R7's list. -/
theorem Ctl.Valid.satisfiesR7 (h : c.Valid P) : SatisfiesR7 P c := by
  obtain ⟨hp1, hp2, hl, hs, -⟩ := h.counts
  refine ⟨⟨hp1, hp2⟩, hl, h.mask_trimmed, hs, fun hf => ⟨(h.modeA hf).1, (h.modeA hf).2.1⟩, h.modes, h.sw,
    ⟨h.ena.1, h.ena.2.2⟩, rfl, h.cmd, fun o ho => h.offset_ok ho, h.nodup, h.global_apart, fun f => ?_⟩
  have := h.swMap f
  simp only [swMapOk, Bool.and_eq_true, beq_iff_eq, decide_eq_true_eq] at this
  exact ⟨this.1, fun i j raw hi hj => getD_inj_of_nodup _ this.2 hi hj⟩

end Sys2Proof.Machine
end

