-- ==== Sys2Proof/Laws/State.lean ====
section
/-! SUPPORT. For each named update of the state, what each field is afterwards. -/

namespace Sys2Proof.Machine

variable (s : State)

/-! ### tick -/

@[simp] theorem State.tick_params : s.tick.params = s.params := rfl
@[simp] theorem State.tick_window : s.tick.window = s.window := rfl
@[simp] theorem State.tick_swLatch : s.tick.swLatch = s.swLatch := rfl
@[simp] theorem State.tick_exp : s.tick.exp = s.exp := rfl
@[simp] theorem State.tick_bind : s.tick.bind = s.bind := rfl
@[simp] theorem State.tick_ctl : s.tick.ctl = s.ctl := rfl
@[simp] theorem State.tick_globalOwner : s.tick.globalOwner = s.globalOwner := rfl
@[simp] theorem State.tick_portledOwner : s.tick.portledOwner = s.portledOwner := rfl
@[simp] theorem State.tick_miimOwner : s.tick.miimOwner = s.miimOwner := rfl
@[simp] theorem State.tick_callers : s.tick.callers = s.callers := rfl
@[simp] theorem State.tick_miimStale : s.tick.miimStale = s.miimStale := rfl
@[simp] theorem State.tick_refused : s.tick.refused = s.refused := rfl
@[simp] theorem State.tick_cur : s.tick.cur = s.cur := rfl
@[simp] theorem State.tick_sched : s.tick.sched = s.sched := rfl
@[simp] theorem State.tick_free : s.tick.free = s.free + 1 := rfl

/-! ### poke -/

@[simp] theorem State.poke_params (o : Nat) (v : Word) : (s.poke o v).params = s.params := rfl
@[simp] theorem State.poke_window (o : Nat) (v : Word) : (s.poke o v).window = s.window.write 0 o v := rfl
@[simp] theorem State.poke_swLatch (o : Nat) (v : Word) : (s.poke o v).swLatch = s.swLatch := rfl
@[simp] theorem State.poke_exp (o : Nat) (v : Word) : (s.poke o v).exp = s.exp := rfl
@[simp] theorem State.poke_bind (o : Nat) (v : Word) : (s.poke o v).bind = s.bind := rfl
@[simp] theorem State.poke_ctl (o : Nat) (v : Word) : (s.poke o v).ctl = s.ctl := rfl
@[simp] theorem State.poke_globalOwner (o : Nat) (v : Word) : (s.poke o v).globalOwner = s.globalOwner := rfl
@[simp] theorem State.poke_portledOwner (o : Nat) (v : Word) :
    (s.poke o v).portledOwner = s.portledOwner := rfl
@[simp] theorem State.poke_miimOwner (o : Nat) (v : Word) : (s.poke o v).miimOwner = s.miimOwner := rfl
@[simp] theorem State.poke_callers (o : Nat) (v : Word) : (s.poke o v).callers = s.callers := rfl
@[simp] theorem State.poke_miimStale (o : Nat) (v : Word) : (s.poke o v).miimStale = s.miimStale := rfl
@[simp] theorem State.poke_refused (o : Nat) (v : Word) : (s.poke o v).refused = s.refused := rfl
@[simp] theorem State.poke_cur (o : Nat) (v : Word) : (s.poke o v).cur = s.cur := rfl
@[simp] theorem State.poke_sched (o : Nat) (v : Word) : (s.poke o v).sched = s.sched := rfl
@[simp] theorem State.poke_free (o : Nat) (v : Word) : (s.poke o v).free = s.free := rfl

/-! ### latchAll -/

@[simp] theorem State.latchAll_params (c : Ctl) : (s.latchAll c).params = s.params := rfl
@[simp] theorem State.latchAll_window (c : Ctl) : (s.latchAll c).window = s.window := rfl
@[simp] theorem State.latchAll_exp (c : Ctl) : (s.latchAll c).exp = s.exp := rfl
@[simp] theorem State.latchAll_bind (c : Ctl) : (s.latchAll c).bind = s.bind := rfl
@[simp] theorem State.latchAll_ctl (c : Ctl) : (s.latchAll c).ctl = s.ctl := rfl
@[simp] theorem State.latchAll_globalOwner (c : Ctl) : (s.latchAll c).globalOwner = s.globalOwner := rfl
@[simp] theorem State.latchAll_portledOwner (c : Ctl) : (s.latchAll c).portledOwner = s.portledOwner := rfl
@[simp] theorem State.latchAll_miimOwner (c : Ctl) : (s.latchAll c).miimOwner = s.miimOwner := rfl
@[simp] theorem State.latchAll_callers (c : Ctl) : (s.latchAll c).callers = s.callers := rfl
@[simp] theorem State.latchAll_miimStale (c : Ctl) : (s.latchAll c).miimStale = s.miimStale := rfl
@[simp] theorem State.latchAll_refused (c : Ctl) : (s.latchAll c).refused = s.refused := rfl
@[simp] theorem State.latchAll_cur (c : Ctl) : (s.latchAll c).cur = s.cur := rfl
@[simp] theorem State.latchAll_sched (c : Ctl) : (s.latchAll c).sched = s.sched := rfl
@[simp] theorem State.latchAll_free (c : Ctl) : (s.latchAll c).free = s.free := rfl

/-! ### setMe -/

@[simp] theorem State.setMe_params (f : Caller → Caller) : (s.setMe f).params = s.params := rfl
@[simp] theorem State.setMe_window (f : Caller → Caller) : (s.setMe f).window = s.window := rfl
@[simp] theorem State.setMe_swLatch (f : Caller → Caller) : (s.setMe f).swLatch = s.swLatch := rfl
@[simp] theorem State.setMe_exp (f : Caller → Caller) : (s.setMe f).exp = s.exp := rfl
@[simp] theorem State.setMe_bind (f : Caller → Caller) : (s.setMe f).bind = s.bind := rfl
@[simp] theorem State.setMe_ctl (f : Caller → Caller) : (s.setMe f).ctl = s.ctl := rfl
@[simp] theorem State.setMe_globalOwner (f : Caller → Caller) : (s.setMe f).globalOwner = s.globalOwner := rfl
@[simp] theorem State.setMe_portledOwner (f : Caller → Caller) :
    (s.setMe f).portledOwner = s.portledOwner := rfl
@[simp] theorem State.setMe_miimOwner (f : Caller → Caller) : (s.setMe f).miimOwner = s.miimOwner := rfl
@[simp] theorem State.setMe_callers (f : Caller → Caller) :
    (s.setMe f).callers = s.callers.modify s.cur f := rfl
@[simp] theorem State.setMe_miimStale (f : Caller → Caller) : (s.setMe f).miimStale = s.miimStale := rfl
@[simp] theorem State.setMe_refused (f : Caller → Caller) : (s.setMe f).refused = s.refused := rfl
@[simp] theorem State.setMe_cur (f : Caller → Caller) : (s.setMe f).cur = s.cur := rfl
@[simp] theorem State.setMe_sched (f : Caller → Caller) : (s.setMe f).sched = s.sched := rfl
@[simp] theorem State.setMe_free (f : Caller → Caller) : (s.setMe f).free = s.free := rfl

/-! ### respond -/

@[simp] theorem State.respond_params (r : Response) : (s.respond r).params = s.params := rfl
@[simp] theorem State.respond_window (r : Response) : (s.respond r).window = s.window := rfl
@[simp] theorem State.respond_swLatch (r : Response) : (s.respond r).swLatch = s.swLatch := rfl
@[simp] theorem State.respond_exp (r : Response) : (s.respond r).exp = s.exp := rfl
@[simp] theorem State.respond_bind (r : Response) : (s.respond r).bind = s.bind := rfl
@[simp] theorem State.respond_ctl (r : Response) : (s.respond r).ctl = s.ctl := rfl
@[simp] theorem State.respond_globalOwner (r : Response) : (s.respond r).globalOwner = s.globalOwner := rfl
@[simp] theorem State.respond_portledOwner (r : Response) : (s.respond r).portledOwner = s.portledOwner := rfl
@[simp] theorem State.respond_miimOwner (r : Response) : (s.respond r).miimOwner = s.miimOwner := rfl
@[simp] theorem State.respond_callers (r : Response) :
    (s.respond r).callers = s.callers.modify s.cur fun k => { k with req := none, flight := .idle, rsp := r } :=
  rfl
@[simp] theorem State.respond_miimStale (r : Response) : (s.respond r).miimStale = s.miimStale := rfl
@[simp] theorem State.respond_refused (r : Response) : (s.respond r).refused = s.refused := rfl
@[simp] theorem State.respond_cur (r : Response) : (s.respond r).cur = s.cur := rfl
@[simp] theorem State.respond_sched (r : Response) : (s.respond r).sched = s.sched := rfl
@[simp] theorem State.respond_free (r : Response) : (s.respond r).free = s.free := rfl

/-! ### refuse -/

@[simp] theorem State.refuse_params : s.refuse.params = s.params := rfl
@[simp] theorem State.refuse_window : s.refuse.window = s.window := rfl
@[simp] theorem State.refuse_swLatch : s.refuse.swLatch = s.swLatch := rfl
@[simp] theorem State.refuse_exp : s.refuse.exp = s.exp := rfl
@[simp] theorem State.refuse_bind : s.refuse.bind = s.bind := rfl
@[simp] theorem State.refuse_ctl : s.refuse.ctl = s.ctl := rfl
@[simp] theorem State.refuse_globalOwner : s.refuse.globalOwner = s.globalOwner := rfl
@[simp] theorem State.refuse_portledOwner : s.refuse.portledOwner = s.portledOwner := rfl
@[simp] theorem State.refuse_miimOwner : s.refuse.miimOwner = s.miimOwner := rfl
@[simp] theorem State.refuse_callers :
    s.refuse.callers = s.callers.modify s.cur fun k => { k with req := none } := rfl
@[simp] theorem State.refuse_miimStale : s.refuse.miimStale = s.miimStale := rfl
@[simp] theorem State.refuse_refused : s.refuse.refused = true := rfl
@[simp] theorem State.refuse_cur : s.refuse.cur = s.cur := rfl
@[simp] theorem State.refuse_sched : s.refuse.sched = s.sched := rfl
@[simp] theorem State.refuse_free : s.refuse.free = s.free := rfl

/-! ### continueAs -/

@[simp] theorem State.continueAs_params (fl : Flight) : (s.continueAs fl).params = s.params := rfl
@[simp] theorem State.continueAs_window (fl : Flight) : (s.continueAs fl).window = s.window := rfl
@[simp] theorem State.continueAs_swLatch (fl : Flight) : (s.continueAs fl).swLatch = s.swLatch := rfl
@[simp] theorem State.continueAs_exp (fl : Flight) : (s.continueAs fl).exp = s.exp := rfl
@[simp] theorem State.continueAs_bind (fl : Flight) : (s.continueAs fl).bind = s.bind := rfl
@[simp] theorem State.continueAs_ctl (fl : Flight) : (s.continueAs fl).ctl = s.ctl := rfl
@[simp] theorem State.continueAs_globalOwner (fl : Flight) :
    (s.continueAs fl).globalOwner = s.globalOwner := rfl
@[simp] theorem State.continueAs_portledOwner (fl : Flight) :
    (s.continueAs fl).portledOwner = s.portledOwner := rfl
@[simp] theorem State.continueAs_miimOwner (fl : Flight) : (s.continueAs fl).miimOwner = s.miimOwner := rfl
@[simp] theorem State.continueAs_callers (fl : Flight) :
    (s.continueAs fl).callers = s.callers.modify s.cur fun k => { k with flight := fl } := rfl
@[simp] theorem State.continueAs_miimStale (fl : Flight) : (s.continueAs fl).miimStale = s.miimStale := rfl
@[simp] theorem State.continueAs_refused (fl : Flight) : (s.continueAs fl).refused = s.refused := rfl
@[simp] theorem State.continueAs_cur (fl : Flight) : (s.continueAs fl).cur = s.cur := rfl
@[simp] theorem State.continueAs_sched (fl : Flight) : (s.continueAs fl).sched = s.sched := rfl
@[simp] theorem State.continueAs_free (fl : Flight) : (s.continueAs fl).free = s.free := rfl

/-! ### expWrite -/

@[simp] theorem State.expWrite_params (t r : BusAddr) (d : Half) : (s.expWrite t r d).params = s.params := rfl
@[simp] theorem State.expWrite_window (t r : BusAddr) (d : Half) : (s.expWrite t r d).window = s.window := rfl
@[simp] theorem State.expWrite_swLatch (t r : BusAddr) (d : Half) :
    (s.expWrite t r d).swLatch = s.swLatch := rfl
@[simp] theorem State.expWrite_exp (t r : BusAddr) (d : Half) :
    (s.expWrite t r d).exp = s.exp.write 0 (expKey t r) d := rfl
@[simp] theorem State.expWrite_bind (t r : BusAddr) (d : Half) : (s.expWrite t r d).bind = s.bind := rfl
@[simp] theorem State.expWrite_ctl (t r : BusAddr) (d : Half) : (s.expWrite t r d).ctl = s.ctl := rfl
@[simp] theorem State.expWrite_globalOwner (t r : BusAddr) (d : Half) :
    (s.expWrite t r d).globalOwner = s.globalOwner := rfl
@[simp] theorem State.expWrite_portledOwner (t r : BusAddr) (d : Half) :
    (s.expWrite t r d).portledOwner = s.portledOwner := rfl
@[simp] theorem State.expWrite_miimOwner (t r : BusAddr) (d : Half) :
    (s.expWrite t r d).miimOwner = s.miimOwner := rfl
@[simp] theorem State.expWrite_callers (t r : BusAddr) (d : Half) :
    (s.expWrite t r d).callers = s.callers := rfl
@[simp] theorem State.expWrite_miimStale (t r : BusAddr) (d : Half) :
    (s.expWrite t r d).miimStale = s.miimStale := rfl
@[simp] theorem State.expWrite_refused (t r : BusAddr) (d : Half) :
    (s.expWrite t r d).refused = s.refused := rfl
@[simp] theorem State.expWrite_cur (t r : BusAddr) (d : Half) : (s.expWrite t r d).cur = s.cur := rfl
@[simp] theorem State.expWrite_sched (t r : BusAddr) (d : Half) : (s.expWrite t r d).sched = s.sched := rfl
@[simp] theorem State.expWrite_free (t r : BusAddr) (d : Half) : (s.expWrite t r d).free = s.free := rfl

/-! ### setBinding -/

@[simp] theorem State.setBinding_params (port led : Byte) (b : BindMode) :
    (s.setBinding port led b).params = s.params := rfl
@[simp] theorem State.setBinding_window (port led : Byte) (b : BindMode) :
    (s.setBinding port led b).window = s.window := rfl
@[simp] theorem State.setBinding_swLatch (port led : Byte) (b : BindMode) :
    (s.setBinding port led b).swLatch = s.swLatch := rfl
@[simp] theorem State.setBinding_exp (port led : Byte) (b : BindMode) :
    (s.setBinding port led b).exp = s.exp := rfl
@[simp] theorem State.setBinding_bind (port led : Byte) (b : BindMode) :
    (s.setBinding port led b).bind = s.bind.write .none (bindKey port led) b := rfl
@[simp] theorem State.setBinding_ctl (port led : Byte) (b : BindMode) :
    (s.setBinding port led b).ctl = s.ctl := rfl
@[simp] theorem State.setBinding_globalOwner (port led : Byte) (b : BindMode) :
    (s.setBinding port led b).globalOwner = s.globalOwner := rfl
@[simp] theorem State.setBinding_portledOwner (port led : Byte) (b : BindMode) :
    (s.setBinding port led b).portledOwner = s.portledOwner := rfl
@[simp] theorem State.setBinding_miimOwner (port led : Byte) (b : BindMode) :
    (s.setBinding port led b).miimOwner = s.miimOwner := rfl
@[simp] theorem State.setBinding_callers (port led : Byte) (b : BindMode) :
    (s.setBinding port led b).callers = s.callers := rfl
@[simp] theorem State.setBinding_miimStale (port led : Byte) (b : BindMode) :
    (s.setBinding port led b).miimStale = s.miimStale := rfl
@[simp] theorem State.setBinding_refused (port led : Byte) (b : BindMode) :
    (s.setBinding port led b).refused = s.refused := rfl
@[simp] theorem State.setBinding_cur (port led : Byte) (b : BindMode) :
    (s.setBinding port led b).cur = s.cur := rfl
@[simp] theorem State.setBinding_sched (port led : Byte) (b : BindMode) :
    (s.setBinding port led b).sched = s.sched := rfl
@[simp] theorem State.setBinding_free (port led : Byte) (b : BindMode) :
    (s.setBinding port led b).free = s.free := rfl

/-! ### afterSched -/

@[simp] theorem State.afterSched_params (rest : List Agent) : (s.afterSched rest).params = s.params := rfl
@[simp] theorem State.afterSched_window (rest : List Agent) : (s.afterSched rest).window = s.window := rfl
@[simp] theorem State.afterSched_swLatch (rest : List Agent) : (s.afterSched rest).swLatch = s.swLatch := rfl
@[simp] theorem State.afterSched_exp (rest : List Agent) : (s.afterSched rest).exp = s.exp := rfl
@[simp] theorem State.afterSched_bind (rest : List Agent) : (s.afterSched rest).bind = s.bind := rfl
@[simp] theorem State.afterSched_ctl (rest : List Agent) : (s.afterSched rest).ctl = s.ctl := rfl
@[simp] theorem State.afterSched_globalOwner (rest : List Agent) :
    (s.afterSched rest).globalOwner = s.globalOwner := rfl
@[simp] theorem State.afterSched_portledOwner (rest : List Agent) :
    (s.afterSched rest).portledOwner = s.portledOwner := rfl
@[simp] theorem State.afterSched_miimOwner (rest : List Agent) :
    (s.afterSched rest).miimOwner = s.miimOwner := rfl
@[simp] theorem State.afterSched_callers (rest : List Agent) : (s.afterSched rest).callers = s.callers := rfl
@[simp] theorem State.afterSched_miimStale (rest : List Agent) :
    (s.afterSched rest).miimStale = s.miimStale := rfl
@[simp] theorem State.afterSched_refused (rest : List Agent) : (s.afterSched rest).refused = s.refused := rfl
@[simp] theorem State.afterSched_cur (rest : List Agent) : (s.afterSched rest).cur = s.cur := rfl
@[simp] theorem State.afterSched_sched (rest : List Agent) : (s.afterSched rest).sched = rest := rfl
@[simp] theorem State.afterSched_free (rest : List Agent) : (s.afterSched rest).free = s.free := rfl

/-! ### issue -/

@[simp] theorem State.issue_params (k : Nat) (r : Request) : (s.issue k r).params = s.params := rfl
@[simp] theorem State.issue_window (k : Nat) (r : Request) : (s.issue k r).window = s.window := rfl
@[simp] theorem State.issue_swLatch (k : Nat) (r : Request) : (s.issue k r).swLatch = s.swLatch := rfl
@[simp] theorem State.issue_exp (k : Nat) (r : Request) : (s.issue k r).exp = s.exp := rfl
@[simp] theorem State.issue_bind (k : Nat) (r : Request) : (s.issue k r).bind = s.bind := rfl
@[simp] theorem State.issue_ctl (k : Nat) (r : Request) : (s.issue k r).ctl = s.ctl := rfl
@[simp] theorem State.issue_globalOwner (k : Nat) (r : Request) :
    (s.issue k r).globalOwner = s.globalOwner := rfl
@[simp] theorem State.issue_portledOwner (k : Nat) (r : Request) :
    (s.issue k r).portledOwner = s.portledOwner := rfl
@[simp] theorem State.issue_miimOwner (k : Nat) (r : Request) : (s.issue k r).miimOwner = s.miimOwner := rfl
@[simp] theorem State.issue_callers (k : Nat) (r : Request) :
    (s.issue k r).callers = s.callers.modify k fun x => x.issue r := rfl
@[simp] theorem State.issue_miimStale (k : Nat) (r : Request) : (s.issue k r).miimStale = s.miimStale := rfl
@[simp] theorem State.issue_refused (k : Nat) (r : Request) : (s.issue k r).refused = s.refused := rfl
@[simp] theorem State.issue_cur (k : Nat) (r : Request) : (s.issue k r).cur = k := rfl
@[simp] theorem State.issue_sched (k : Nat) (r : Request) : (s.issue k r).sched = s.sched := rfl
@[simp] theorem State.issue_free (k : Nat) (r : Request) : (s.issue k r).free = s.free := rfl

/-! ### construct -/

@[simp] theorem State.construct_params (c : Ctl) : (s.construct c).params = s.params := rfl
@[simp] theorem State.construct_window (c : Ctl) : (s.construct c).window = s.window := rfl
@[simp] theorem State.construct_swLatch (c : Ctl) : (s.construct c).swLatch = s.swLatch := rfl
@[simp] theorem State.construct_exp (c : Ctl) : (s.construct c).exp = s.exp := rfl
@[simp] theorem State.construct_bind (c : Ctl) : (s.construct c).bind = [] := rfl
@[simp] theorem State.construct_ctl (c : Ctl) : (s.construct c).ctl = some c := rfl
@[simp] theorem State.construct_globalOwner (c : Ctl) : (s.construct c).globalOwner = none := rfl
@[simp] theorem State.construct_portledOwner (c : Ctl) : (s.construct c).portledOwner = none := rfl
@[simp] theorem State.construct_miimOwner (c : Ctl) : (s.construct c).miimOwner = none := rfl
@[simp] theorem State.construct_callers (c : Ctl) :
    (s.construct c).callers = s.callers.map fun k => { k with flight := .idle } := rfl
@[simp] theorem State.construct_miimStale (c : Ctl) : (s.construct c).miimStale = none := rfl
@[simp] theorem State.construct_refused (c : Ctl) : (s.construct c).refused = s.refused := rfl
@[simp] theorem State.construct_cur (c : Ctl) : (s.construct c).cur = s.cur := rfl
@[simp] theorem State.construct_sched (c : Ctl) : (s.construct c).sched = s.sched := rfl
@[simp] theorem State.construct_free (c : Ctl) : (s.construct c).free = s.free := rfl

/-! ### the locks -/

@[simp] theorem State.setOwner_params (d : Domain) (o : Option Nat) : (s.setOwner d o).params = s.params := by
  cases d <;> rfl
@[simp] theorem State.acquire_params (d : Domain) : (s.acquire d).params = s.params := by cases d <;> rfl
@[simp] theorem State.release_params (d : Domain) : (s.release d).params = s.params := by cases d <;> rfl
@[simp] theorem State.setOwner_window (d : Domain) (o : Option Nat) : (s.setOwner d o).window = s.window := by
  cases d <;> rfl
@[simp] theorem State.acquire_window (d : Domain) : (s.acquire d).window = s.window := by cases d <;> rfl
@[simp] theorem State.release_window (d : Domain) : (s.release d).window = s.window := by cases d <;> rfl
@[simp] theorem State.setOwner_swLatch (d : Domain) (o : Option Nat) : (s.setOwner d o).swLatch = s.swLatch := by
  cases d <;> rfl
@[simp] theorem State.acquire_swLatch (d : Domain) : (s.acquire d).swLatch = s.swLatch := by cases d <;> rfl
@[simp] theorem State.release_swLatch (d : Domain) : (s.release d).swLatch = s.swLatch := by cases d <;> rfl
@[simp] theorem State.setOwner_exp (d : Domain) (o : Option Nat) : (s.setOwner d o).exp = s.exp := by
  cases d <;> rfl
@[simp] theorem State.acquire_exp (d : Domain) : (s.acquire d).exp = s.exp := by cases d <;> rfl
@[simp] theorem State.release_exp (d : Domain) : (s.release d).exp = s.exp := by cases d <;> rfl
@[simp] theorem State.setOwner_bind (d : Domain) (o : Option Nat) : (s.setOwner d o).bind = s.bind := by
  cases d <;> rfl
@[simp] theorem State.acquire_bind (d : Domain) : (s.acquire d).bind = s.bind := by cases d <;> rfl
@[simp] theorem State.release_bind (d : Domain) : (s.release d).bind = s.bind := by cases d <;> rfl
@[simp] theorem State.setOwner_ctl (d : Domain) (o : Option Nat) : (s.setOwner d o).ctl = s.ctl := by
  cases d <;> rfl
@[simp] theorem State.acquire_ctl (d : Domain) : (s.acquire d).ctl = s.ctl := by cases d <;> rfl
@[simp] theorem State.release_ctl (d : Domain) : (s.release d).ctl = s.ctl := by cases d <;> rfl
@[simp] theorem State.setOwner_callers (d : Domain) (o : Option Nat) : (s.setOwner d o).callers = s.callers := by
  cases d <;> rfl
@[simp] theorem State.acquire_callers (d : Domain) : (s.acquire d).callers = s.callers := by cases d <;> rfl
@[simp] theorem State.release_callers (d : Domain) : (s.release d).callers = s.callers := by cases d <;> rfl
@[simp] theorem State.setOwner_miimStale (d : Domain) (o : Option Nat) : (s.setOwner d o).miimStale = s.miimStale := by
  cases d <;> rfl
@[simp] theorem State.acquire_miimStale (d : Domain) : (s.acquire d).miimStale = s.miimStale := by cases d <;> rfl
@[simp] theorem State.release_miimStale (d : Domain) : (s.release d).miimStale = s.miimStale := by cases d <;> rfl
@[simp] theorem State.setOwner_refused (d : Domain) (o : Option Nat) : (s.setOwner d o).refused = s.refused := by
  cases d <;> rfl
@[simp] theorem State.acquire_refused (d : Domain) : (s.acquire d).refused = s.refused := by cases d <;> rfl
@[simp] theorem State.release_refused (d : Domain) : (s.release d).refused = s.refused := by cases d <;> rfl
@[simp] theorem State.setOwner_cur (d : Domain) (o : Option Nat) : (s.setOwner d o).cur = s.cur := by
  cases d <;> rfl
@[simp] theorem State.acquire_cur (d : Domain) : (s.acquire d).cur = s.cur := by cases d <;> rfl
@[simp] theorem State.release_cur (d : Domain) : (s.release d).cur = s.cur := by cases d <;> rfl
@[simp] theorem State.setOwner_sched (d : Domain) (o : Option Nat) : (s.setOwner d o).sched = s.sched := by
  cases d <;> rfl
@[simp] theorem State.acquire_sched (d : Domain) : (s.acquire d).sched = s.sched := by cases d <;> rfl
@[simp] theorem State.release_sched (d : Domain) : (s.release d).sched = s.sched := by cases d <;> rfl
@[simp] theorem State.setOwner_free (d : Domain) (o : Option Nat) : (s.setOwner d o).free = s.free := by
  cases d <;> rfl
@[simp] theorem State.acquire_free (d : Domain) : (s.acquire d).free = s.free := by cases d <;> rfl
@[simp] theorem State.release_free (d : Domain) : (s.release d).free = s.free := by cases d <;> rfl

@[simp] theorem State.owner_setOwner (d : Domain) (o : Option Nat) : (s.setOwner d o).owner d = o := by
  cases d <;> rfl

@[simp] theorem State.owner_acquire (d : Domain) : (s.acquire d).owner d = some s.cur := by cases d <;> rfl

@[simp] theorem State.owner_release (d : Domain) : (s.release d).owner d = none := by cases d <;> rfl

theorem State.owner_setOwner_other (d e : Domain) (o : Option Nat) (h : e ≠ d) :
    (s.setOwner d o).owner e = s.owner e := by
  cases d <;> cases e <;> first | rfl | exact absurd rfl h

end Sys2Proof.Machine
end

