-- ==== Sys2Proof/Laws/Store.lean ====
section
/-! SUPPORT. The laws of a sparse memory: a read after a write, and the canonical form. -/

namespace Sys2Proof.Machine

variable {α : Type} (d : α)

@[simp] theorem Store.read_nil (a : Nat) : Store.read d [] a = d := rfl

theorem Store.read_insert (m : Store α) (a b : Nat) (v : α) :
    Store.read d (Store.insert m a v) b = if b = a then v else Store.read d m b := by
  induction m with
  | nil => simp [Store.insert, Store.read]
  | cons e rest ih =>
    obtain ⟨k, w⟩ := e
    simp only [Store.insert]
    split
    · simp [Store.read]
    · split
      · subst_vars; simp only [Store.read]; split <;> rfl
      · simp only [Store.read, ih]; split
        · rename_i h1 h2 h3; rw [if_neg]; intro h; exact h2 (by omega)
        · rfl

theorem Store.read_filter (m : Store α) (a b : Nat) :
    Store.read d (m.filter fun e => e.1 ≠ a) b = if b = a then d else Store.read d m b := by
  induction m with
  | nil => simp
  | cons e rest ih =>
    obtain ⟨k, w⟩ := e
    by_cases hk : k = a
    · subst hk; simp only [List.filter, ne_eq, not_true, decide_false, Store.read]
      rw [show (rest.filter fun e => decide ¬e.1 = k) = rest.filter fun e => e.1 ≠ k from rfl, ih]
      split <;> rfl
    · simp only [List.filter, ne_eq, hk, not_false_eq_true, decide_true, Store.read]
      rw [show (rest.filter fun e => decide ¬e.1 = a) = rest.filter fun e => e.1 ≠ a from rfl, ih]
      split
      · subst_vars; simp [hk]
      · rfl

variable [DecidableEq α]

/-- A read after a write gives what was written there and what was there elsewhere. -/
theorem Store.read_write (m : Store α) (a b : Nat) (v : α) :
    Store.read d (Store.write d m a v) b = if b = a then v else Store.read d m b := by
  unfold Store.write
  split
  · subst_vars; exact Store.read_filter v m a b
  · exact Store.read_insert d m a b v

@[simp] theorem Store.read_write_same (m : Store α) (a : Nat) (v : α) :
    Store.read d (Store.write d m a v) a = v := by
  rw [Store.read_write, if_pos rfl]

theorem Store.read_write_other (m : Store α) (a b : Nat) (v : α) (h : b ≠ a) :
    Store.read d (Store.write d m a v) b = Store.read d m b := by
  rw [Store.read_write, if_neg h]

omit [DecidableEq α] in
theorem Store.mem_insert (m : Store α) (a : Nat) (v : α) (e : Nat × α)
    (h : e ∈ Store.insert m a v) : e = (a, v) ∨ e ∈ m := by
  induction m with
  | nil => exact .inl (by simpa [Store.insert] using h)
  | cons x rest ih =>
    obtain ⟨k, w⟩ := x
    simp only [Store.insert] at h
    split at h
    · simpa using h
    · split at h
      · rcases List.mem_cons.mp h with h | h
        · exact .inl h
        · exact .inr (List.mem_cons_of_mem _ h)
      · rcases List.mem_cons.mp h with h | h
        · exact .inr (h ▸ List.mem_cons_self)
        · exact (ih h).imp_right (List.mem_cons_of_mem _)

omit [DecidableEq α] in
theorem Store.insert_sorted (m : Store α) (a : Nat) (v : α)
    (h : m.Pairwise fun x y => x.1 < y.1) : (Store.insert m a v).Pairwise fun x y => x.1 < y.1 := by
  induction m with
  | nil => simp [Store.insert]
  | cons x rest ih =>
    obtain ⟨k, w⟩ := x
    rw [List.pairwise_cons] at h
    simp only [Store.insert]
    split
    · rename_i hlt
      rw [List.pairwise_cons, List.pairwise_cons]
      refine ⟨fun e he => ?_, h⟩
      rcases List.mem_cons.mp he with rfl | he
      · exact hlt
      · exact Nat.lt_trans hlt (h.1 e he)
    · split
      · subst_vars; exact List.pairwise_cons.mpr h
      · refine List.pairwise_cons.mpr ⟨fun e he => ?_, ih h.2⟩
        rcases Store.mem_insert rest a v e he with rfl | he
        · exact (by omega : k < a)
        · exact h.1 e he

/-- A write keeps the canonical form. -/
theorem Store.write_canonical (m : Store α) (a : Nat) (v : α) (h : Store.Canonical d m) :
    Store.Canonical d (Store.write d m a v) := by
  unfold Store.write
  split
  · exact ⟨h.1.filter _, fun x hx => h.2 x (List.mem_filter.mp hx).1⟩
  · rename_i hv
    refine ⟨Store.insert_sorted m a v h.1, fun x hx => ?_⟩
    rcases Store.mem_insert m a v x hx with rfl | hx
    · exact hv
    · exact h.2 x hx

omit [DecidableEq α] in
theorem Store.nil_canonical : Store.Canonical d [] := ⟨List.Pairwise.nil, fun _ h => nomatch h⟩

/-- A run of writes keeps the canonical form. -/
theorem Store.foldl_write_canonical (l : List Nat) (f : Nat → α) (m : Store α) (h : Store.Canonical d m) :
    Store.Canonical d (l.foldl (fun m p => Store.write d m p (f p)) m) := by
  induction l generalizing m with
  | nil => exact h
  | cons p rest ih => exact ih _ (Store.write_canonical d m p (f p) h)

/-- A run of writes, each address taking a value of its own, read at one address. -/
theorem Store.read_foldl_write (l : List Nat) (f : Nat → α) (m : Store α) (a : Nat) :
    Store.read d (l.foldl (fun m p => Store.write d m p (f p)) m) a =
      if a ∈ l then f a else Store.read d m a := by
  induction l generalizing m with
  | nil => simp
  | cons p rest ih =>
    rw [List.foldl_cons, ih, Store.read_write]
    by_cases h : a ∈ rest
    · simp [h]
    · by_cases hp : a = p
      · simp [hp]
      · simp [h, hp]

end Sys2Proof.Machine
end

