-- ==== Sys2Proof/Laws/Ops.lean ====
section
/-! SUPPORT. One lemma for each shared operation of Machine/Ops.lean, saying what it can do. -/

namespace Sys2Proof.Machine

variable (s : State) (c : Ctl)

/-! ### The register window -/

theorem State.peek_poke (o o' : Nat) (v : Word) :
    (s.poke o v).peek o' = if o' = o then v else s.peek o' :=
  Store.read_write 0 s.window o o' v

@[simp] theorem State.peek_poke_same (o : Nat) (v : Word) : (s.poke o v).peek o = v := by
  rw [State.peek_poke, if_pos rfl]

theorem State.peek_poke_other {o o' : Nat} (v : Word) (h : o' ≠ o) : (s.poke o v).peek o' = s.peek o' := by
  rw [State.peek_poke, if_neg h]

/-- Reading depends on the window alone. -/
theorem State.peek_congr {s t : State} (h : t.window = s.window) (o : Nat) : t.peek o = s.peek o := by
  unfold State.peek; rw [h]

theorem State.readValue_plain {o : Nat} (hr : c.isReg o = true) (hl : c.isLoad o = false) :
    s.readValue c o = s.peek o := by
  cases hc : c.lay.load with
  | none => simp [State.readValue, State.plainRead, hc, hr]
  | some l =>
    simp only [Ctl.isLoad, hc, Option.any_some, beq_eq_false_iff_ne] at hl
    simp [State.readValue, State.plainRead, hc, hr, hl]

/-- Reading the load register: its bits but for LOAD, which is any value (R36, I5). -/
theorem State.readValue_load {l : BitLoc} (h : c.lay.load = some l) :
    s.readValue c l.off = putBit (s.peek l.off) l.bit s.freeBit := by
  simp [State.readValue, h]

theorem State.afterRead_plain {o : Nat} (hr : c.isReg o = true) (hl : c.isLoad o = false) :
    s.afterRead c o = s := by
  simp [State.afterRead, hr, hl]

/-- A read changes nothing but the count of free values. -/
theorem State.afterRead_eq (o : Nat) : s.afterRead c o = { s with free := (s.afterRead c o).free } := by
  unfold State.afterRead
  split
  · rfl
  · split <;> rfl

theorem State.writeReg_plain {o : Nat} (v : Word) (hr : c.isReg o = true) (hl : c.isLoad o = false) :
    s.writeReg c o v = s.poke o v := by
  simp [State.writeReg, hr, Ctl.notStrobe_of_notLoad hl]

/-- A write changes the window at its offset, the latches if it strobes, and the free values. -/
theorem State.writeReg_eq (o : Nat) (v : Word) :
    s.writeReg c o v = { s with
      window := (s.writeReg c o v).window, swLatch := (s.writeReg c o v).swLatch
      free := (s.writeReg c o v).free } := by
  unfold State.writeReg
  split
  · split <;> rfl
  · rfl

theorem State.writeReg_peek_other {o o' : Nat} (v : Word) (h : o' ≠ o) :
    (s.writeReg c o v).peek o' = s.peek o' := by
  unfold State.writeReg
  split
  · split
    · exact State.peek_poke_other s v h
    · exact State.peek_poke_other s v h
  · exact State.peek_poke_other s s.freeWord h

theorem State.writeReg_peek_same {o : Nat} (v : Word) (hr : c.isReg o = true) :
    (s.writeReg c o v).peek o = v := by
  unfold State.writeReg
  rw [if_pos hr]
  split
  · exact State.peek_poke_same s o v
  · exact State.peek_poke_same s o v

/-- What an RMW does, by whether its mask engages the LOAD bit. -/
theorem State.rmw_cases (o : Nat) (m v : Word) :
    (c.engagesLoad o m = true ∧ s.rmw c o m v = s.writeReg c o (mergeBits (s.peek o) m v)) ∨
      (c.engagesLoad o m = false ∧
        s.rmw c o m v = (s.afterRead c o).writeReg c o (mergeBits (s.readValue c o) m v)) := by
  unfold State.rmw
  split
  · exact .inl ⟨‹_›, rfl⟩
  · exact .inr ⟨Bool.eq_false_iff.mpr ‹_›, rfl⟩

/-- RMW on a register that is not the load register is one load, merge and store (R102). -/
theorem State.rmw_plain {o : Nat} (m v : Word) (hr : c.isReg o = true) (hl : c.isLoad o = false) :
    s.rmw c o m v = s.poke o (mergeBits (s.peek o) m v) := by
  have he : c.engagesLoad o m = false := by
    cases hc : c.lay.load with
    | none => simp [Ctl.engagesLoad, hc]
    | some l =>
      simp only [Ctl.isLoad, hc, Option.any_some, beq_eq_false_iff_ne] at hl
      simp [Ctl.engagesLoad, hc, hl]
  rw [State.rmw, he, if_neg (by decide), State.afterRead_plain s c hr hl, State.readValue_plain s c hr hl,
    State.writeReg_plain s c _ hr hl]

theorem State.rmw_eq (o : Nat) (m v : Word) :
    s.rmw c o m v = { s with
      window := (s.rmw c o m v).window, swLatch := (s.rmw c o m v).swLatch
      free := (s.rmw c o m v).free } := by
  unfold State.rmw State.afterRead
  split
  · exact State.writeReg_eq s c o _
  · split
    · exact State.writeReg_eq s.tick c o _
    · split
      · exact State.writeReg_eq s c o _
      · exact State.writeReg_eq s.tick c o _

theorem State.rmw_peek_other {o o' : Nat} (m v : Word) (h : o' ≠ o) :
    (s.rmw c o m v).peek o' = s.peek o' := by
  obtain ⟨_, e⟩ | ⟨_, e⟩ := State.rmw_cases s c o m v <;> rw [e, State.writeReg_peek_other _ _ _ h]
  exact State.peek_congr (by rw [State.afterRead_eq]) o'

/-- The strobe's RMW, where the mask engages the LOAD bit: no free value is taken. -/
theorem State.rmw_engaged {o : Nat} {m : Word} (v : Word) (h : c.engagesLoad o m = true) :
    s.rmw c o m v = s.writeReg c o (mergeBits (s.peek o) m v) := by
  rw [State.rmw, if_pos h]

/-- The commit changes the window and the latches alone. -/
theorem State.commit_eq (hb : ∀ l ∈ c.lay.load, l.bit < 32 ∧ c.isReg l.off = true) :
    s.commit c = { s with window := (s.commit c).window, swLatch := (s.commit c).swLatch } := by
  unfold State.commit
  split
  · rfl
  · rename_i l hl
    rw [State.rmw_engaged s c _ (by simp [Ctl.engagesLoad, hl, (hb l hl).1])]
    unfold State.writeReg
    rw [if_pos (hb l hl).2]
    split <;> rfl

/-- What the commit leaves alone, whatever the layout. -/
theorem State.commit_frame :
    s.commit c = { s with
      window := (s.commit c).window, swLatch := (s.commit c).swLatch, free := (s.commit c).free } := by
  unfold State.commit
  split
  · rfl
  · exact State.rmw_eq s c _ _ _

theorem State.commit_none (h : c.lay.load = none) : s.commit c = s := by simp [State.commit, h]

/-- The commit changes no register but the load register. -/
theorem State.commit_peek_other {o : Nat} (h : c.isLoad o = false) : (s.commit c).peek o = s.peek o := by
  unfold State.commit
  split
  · rfl
  · rename_i l hl
    refine State.rmw_peek_other s c _ _ fun he => ?_
    subst he
    simp [Ctl.isLoad, hl] at h

/-- Every port's latch takes its register, the other latches stay (R165). -/
theorem State.latchAll_read (p : Nat) :
    (s.latchAll c).swLatch.read 0 p = if p < c.portCount then s.peek (c.swReg p) else s.swLatch.read 0 p := by
  unfold State.latchAll
  rw [Store.read_foldl_write]
  simp only [List.mem_range]

/-! ### What the window operations leave alone -/

@[simp] theorem State.afterRead_window (o : Nat) : (s.afterRead c o).window = s.window := by rw [State.afterRead_eq s c o]
@[simp] theorem State.afterRead_swLatch (o : Nat) : (s.afterRead c o).swLatch = s.swLatch := by rw [State.afterRead_eq s c o]
@[simp] theorem State.afterRead_params (o : Nat) : (s.afterRead c o).params = s.params := by rw [State.afterRead_eq s c o]
@[simp] theorem State.afterRead_exp (o : Nat) : (s.afterRead c o).exp = s.exp := by rw [State.afterRead_eq s c o]
@[simp] theorem State.afterRead_bind (o : Nat) : (s.afterRead c o).bind = s.bind := by rw [State.afterRead_eq s c o]
@[simp] theorem State.afterRead_ctl (o : Nat) : (s.afterRead c o).ctl = s.ctl := by rw [State.afterRead_eq s c o]
@[simp] theorem State.afterRead_globalOwner (o : Nat) : (s.afterRead c o).globalOwner = s.globalOwner := by rw [State.afterRead_eq s c o]
@[simp] theorem State.afterRead_portledOwner (o : Nat) : (s.afterRead c o).portledOwner = s.portledOwner := by rw [State.afterRead_eq s c o]
@[simp] theorem State.afterRead_miimOwner (o : Nat) : (s.afterRead c o).miimOwner = s.miimOwner := by rw [State.afterRead_eq s c o]
@[simp] theorem State.afterRead_callers (o : Nat) : (s.afterRead c o).callers = s.callers := by rw [State.afterRead_eq s c o]
@[simp] theorem State.afterRead_miimStale (o : Nat) : (s.afterRead c o).miimStale = s.miimStale := by rw [State.afterRead_eq s c o]
@[simp] theorem State.afterRead_refused (o : Nat) : (s.afterRead c o).refused = s.refused := by rw [State.afterRead_eq s c o]
@[simp] theorem State.afterRead_cur (o : Nat) : (s.afterRead c o).cur = s.cur := by rw [State.afterRead_eq s c o]
@[simp] theorem State.afterRead_sched (o : Nat) : (s.afterRead c o).sched = s.sched := by rw [State.afterRead_eq s c o]

@[simp] theorem State.writeReg_params (o : Nat) (v : Word) : (s.writeReg c o v).params = s.params := by rw [State.writeReg_eq s c o v]
@[simp] theorem State.writeReg_exp (o : Nat) (v : Word) : (s.writeReg c o v).exp = s.exp := by rw [State.writeReg_eq s c o v]
@[simp] theorem State.writeReg_bind (o : Nat) (v : Word) : (s.writeReg c o v).bind = s.bind := by rw [State.writeReg_eq s c o v]
@[simp] theorem State.writeReg_ctl (o : Nat) (v : Word) : (s.writeReg c o v).ctl = s.ctl := by rw [State.writeReg_eq s c o v]
@[simp] theorem State.writeReg_globalOwner (o : Nat) (v : Word) : (s.writeReg c o v).globalOwner = s.globalOwner := by rw [State.writeReg_eq s c o v]
@[simp] theorem State.writeReg_portledOwner (o : Nat) (v : Word) : (s.writeReg c o v).portledOwner = s.portledOwner := by rw [State.writeReg_eq s c o v]
@[simp] theorem State.writeReg_miimOwner (o : Nat) (v : Word) : (s.writeReg c o v).miimOwner = s.miimOwner := by rw [State.writeReg_eq s c o v]
@[simp] theorem State.writeReg_callers (o : Nat) (v : Word) : (s.writeReg c o v).callers = s.callers := by rw [State.writeReg_eq s c o v]
@[simp] theorem State.writeReg_miimStale (o : Nat) (v : Word) : (s.writeReg c o v).miimStale = s.miimStale := by rw [State.writeReg_eq s c o v]
@[simp] theorem State.writeReg_refused (o : Nat) (v : Word) : (s.writeReg c o v).refused = s.refused := by rw [State.writeReg_eq s c o v]
@[simp] theorem State.writeReg_cur (o : Nat) (v : Word) : (s.writeReg c o v).cur = s.cur := by rw [State.writeReg_eq s c o v]
@[simp] theorem State.writeReg_sched (o : Nat) (v : Word) : (s.writeReg c o v).sched = s.sched := by rw [State.writeReg_eq s c o v]

@[simp] theorem State.rmw_params (o : Nat) (m v : Word) : (s.rmw c o m v).params = s.params := by rw [State.rmw_eq s c o m v]
@[simp] theorem State.rmw_exp (o : Nat) (m v : Word) : (s.rmw c o m v).exp = s.exp := by rw [State.rmw_eq s c o m v]
@[simp] theorem State.rmw_bind (o : Nat) (m v : Word) : (s.rmw c o m v).bind = s.bind := by rw [State.rmw_eq s c o m v]
@[simp] theorem State.rmw_ctl (o : Nat) (m v : Word) : (s.rmw c o m v).ctl = s.ctl := by rw [State.rmw_eq s c o m v]
@[simp] theorem State.rmw_globalOwner (o : Nat) (m v : Word) : (s.rmw c o m v).globalOwner = s.globalOwner := by rw [State.rmw_eq s c o m v]
@[simp] theorem State.rmw_portledOwner (o : Nat) (m v : Word) : (s.rmw c o m v).portledOwner = s.portledOwner := by rw [State.rmw_eq s c o m v]
@[simp] theorem State.rmw_miimOwner (o : Nat) (m v : Word) : (s.rmw c o m v).miimOwner = s.miimOwner := by rw [State.rmw_eq s c o m v]
@[simp] theorem State.rmw_callers (o : Nat) (m v : Word) : (s.rmw c o m v).callers = s.callers := by rw [State.rmw_eq s c o m v]
@[simp] theorem State.rmw_miimStale (o : Nat) (m v : Word) : (s.rmw c o m v).miimStale = s.miimStale := by rw [State.rmw_eq s c o m v]
@[simp] theorem State.rmw_refused (o : Nat) (m v : Word) : (s.rmw c o m v).refused = s.refused := by rw [State.rmw_eq s c o m v]
@[simp] theorem State.rmw_cur (o : Nat) (m v : Word) : (s.rmw c o m v).cur = s.cur := by rw [State.rmw_eq s c o m v]
@[simp] theorem State.rmw_sched (o : Nat) (m v : Word) : (s.rmw c o m v).sched = s.sched := by rw [State.rmw_eq s c o m v]

@[simp] theorem State.commit_params : (s.commit c).params = s.params := by rw [State.commit_frame s c]
@[simp] theorem State.commit_exp : (s.commit c).exp = s.exp := by rw [State.commit_frame s c]
@[simp] theorem State.commit_bind : (s.commit c).bind = s.bind := by rw [State.commit_frame s c]
@[simp] theorem State.commit_ctl : (s.commit c).ctl = s.ctl := by rw [State.commit_frame s c]
@[simp] theorem State.commit_globalOwner : (s.commit c).globalOwner = s.globalOwner := by rw [State.commit_frame s c]
@[simp] theorem State.commit_portledOwner : (s.commit c).portledOwner = s.portledOwner := by rw [State.commit_frame s c]
@[simp] theorem State.commit_miimOwner : (s.commit c).miimOwner = s.miimOwner := by rw [State.commit_frame s c]
@[simp] theorem State.commit_callers : (s.commit c).callers = s.callers := by rw [State.commit_frame s c]
@[simp] theorem State.commit_miimStale : (s.commit c).miimStale = s.miimStale := by rw [State.commit_frame s c]
@[simp] theorem State.commit_refused : (s.commit c).refused = s.refused := by rw [State.commit_frame s c]
@[simp] theorem State.commit_cur : (s.commit c).cur = s.cur := by rw [State.commit_frame s c]
@[simp] theorem State.commit_sched : (s.commit c).sched = s.sched := by rw [State.commit_frame s c]

/-! ### Callers and responses -/

theorem State.caller_of_lt {k : Nat} (h : k < s.callers.length) : s.caller k = s.callers[k] := by
  simp [State.caller, h]

theorem State.setMe_me (f : Caller → Caller) (h : s.cur < s.callers.length) : (s.setMe f).me = f s.me := by
  simp [State.me, State.caller, h]

theorem State.setMe_caller_other (f : Caller → Caller) {j : Nat} (h : j ≠ s.cur) :
    (s.setMe f).caller j = s.caller j := by
  simp [State.caller, Ne.symm h, List.getD]

/-- A change of the current caller's record changes no other. -/
theorem onlyMe_of_callers {s t : State} {f : Caller → Caller} (hlt : s.cur < s.callers.length)
    (hcur : t.cur = s.cur) (h : t.callers = s.callers.modify s.cur f) : OnlyMe s t (f s.me) := by
  refine ⟨by simp [h], ?_, fun j hj => ?_⟩
  · simp [State.me, State.caller, hcur, h, hlt]
  · simp [State.caller, h, Ne.symm hj, List.getD]

/-- `respond` returns its response to the caller (R10, R44). -/
theorem returned_of_callers {s t : State} {r : Response} (hlt : s.cur < s.callers.length)
    (hcur : t.cur = s.cur) (h : t.callers = (s.respond r).callers) : Returned s t r :=
  onlyMe_of_callers (f := fun k => { k with req := none, flight := .idle, rsp := r }) hlt hcur h

/-! ### Starting an operation, and the locks -/

theorem State.start_idle {body : Ctl → State} (hf : s.me.flight = .idle) (hc : s.ctl = some c) :
    s.start body = body c := by
  simp [State.start, hf, hc]

theorem State.start_unconstructed {body : Ctl → State} (hf : s.me.flight = .idle) (hc : s.ctl = none) :
    s.start body = s.refuse := by
  simp [State.start, hf, hc]

theorem State.start_busy {body : Ctl → State} (hf : s.me.flight ≠ .idle) : s.start body = s := by
  unfold State.start
  split
  · exact absurd ‹_› hf
  · rfl
  · rfl

theorem State.withLock_free {d : Domain} {body : State → State} (h : s.owner d = none) :
    s.withLock d body = (body (s.acquire d)).release d := by
  simp [State.withLock, h]

theorem State.withLock_held {d : Domain} {body : State → State} {k : Nat} (h : s.owner d = some k) :
    s.withLock d body = s := by
  simp [State.withLock, h]

@[simp] theorem State.acquire_me (d : Domain) : (s.acquire d).me = s.me := by cases d <;> rfl

@[simp] theorem State.acquire_peek (d : Domain) (o : Nat) : (s.acquire d).peek o = s.peek o := by
  cases d <;> rfl

@[simp] theorem State.release_peek (d : Domain) (o : Nat) : (s.release d).peek o = s.peek o := by
  cases d <;> rfl

@[simp] theorem State.respond_peek (r : Response) (o : Nat) : (s.respond r).peek o = s.peek o := rfl

@[simp] theorem State.setBinding_peek (p i : Byte) (b : BindMode) (o : Nat) :
    (s.setBinding p i b).peek o = s.peek o := rfl

/-- A lock taken and given back is as it was. -/
theorem State.release_of_acquire {d : Domain} (t : State) (h : s.owner d = none)
    (hg : t.globalOwner = (s.acquire d).globalOwner) (hp : t.portledOwner = (s.acquire d).portledOwner)
    (hm : t.miimOwner = (s.acquire d).miimOwner) :
    (t.release d).globalOwner = s.globalOwner ∧ (t.release d).portledOwner = s.portledOwner ∧
      (t.release d).miimOwner = s.miimOwner := by
  cases d <;>
    simp_all [State.release, State.acquire, State.setOwner, State.owner]

end Sys2Proof.Machine
end

