-- ==== Sys2Proof/Laws/Engine.lean ====
section
/-! SUPPORT. What the engine's shared operations can do (Machine/Engine.lean): each changes MIIM_CMD,
the expander and the count of free values at most, and the cells it leaves alone are named. -/

namespace Sys2Proof.Machine

variable (s : State) (c : Ctl)

/-- Two expander registers have one key only if they are one register (R43). -/
theorem expKey_inj {a b a' b' : BusAddr} : expKey a b = expKey a' b' ↔ a = a' ∧ b = b' := by
  unfold expKey
  constructor
  · intro h
    have := b.isLt
    have := b'.isLt
    exact ⟨BitVec.eq_of_toNat_eq (by omega), BitVec.eq_of_toNat_eq (by omega)⟩
  · rintro ⟨rfl, rfl⟩; rfl

theorem State.expWrite_read (t r a b : BusAddr) (d : Half) :
    (s.expWrite t r d).exp.read 0 (expKey a b) = if a = t ∧ b = r then d else s.exp.read 0 (expKey a b) := by
  show Store.read 0 (Store.write 0 s.exp _ d) _ = _
  rw [Store.read_write]; simp only [expKey_inj]

theorem State.afterExpRead_eq (t r : BusAddr) :
    s.afterExpRead t r = { s with free := (s.afterExpRead t r).free } := by
  unfold State.afterExpRead; split <;> rfl

theorem anyData_eq : anyData c s = { s with window := (anyData c s).window, free := s.free + 1 } := rfl

theorem scrambleAll_eq : scrambleAll s = { s with exp := (scrambleAll s).exp, free := s.free + expCells } := rfl

theorem scrambleIfWrite_eq (wr : Bool) (t r : BusAddr) :
    scrambleIfWrite wr t r s =
      { s with exp := (scrambleIfWrite wr t r s).exp, free := (scrambleIfWrite wr t r s).free } := by
  cases wr <;> rfl

theorem scrambleIfWrite_read (wr : Bool) (t r a b : BusAddr) (h : ¬(wr = true ∧ a = t ∧ b = r)) :
    (scrambleIfWrite wr t r s).exp.read 0 (expKey a b) = s.exp.read 0 (expKey a b) := by
  cases wr with
  | false => rfl
  | true =>
    show (s.expWrite t r s.freeHalf).exp.read 0 _ = _
    rw [State.expWrite_read, if_neg fun hh => h ⟨rfl, hh⟩]

theorem scrambleStale_eq :
    scrambleStale s = { s with exp := (scrambleStale s).exp, free := (scrambleStale s).free } := by
  unfold scrambleStale
  split
  · rfl
  · exact scrambleIfWrite_eq _ _ _ _

theorem scrambleStale_read (a b : BusAddr)
    (h : ∀ x ∈ s.miimStale, ¬(x.wr = true ∧ a = x.tgt ∧ b = x.reg)) :
    (scrambleStale s).exp.read 0 (expKey a b) = s.exp.read 0 (expKey a b) := by
  unfold scrambleStale
  split
  · rfl
  · exact scrambleIfWrite_read _ _ _ _ _ _ (h _ ‹_›)

end Sys2Proof.Machine
end

