-- ==== Sys2Proof/Laws/Kept.lean ====
section
/-! SUPPORT. One induction over the meanings, packaged: a property that every named update keeps, and
construction too, is kept by every instruction and by every step. -/

namespace Sys2Proof.Machine

/-- The property Q is kept by every named update the meanings are made of. -/
structure KeptByUpdates (Q : State → Prop) : Prop where
  acquire : ∀ s d, Q s → Q (s.acquire d)
  release : ∀ s d, Q s → Q (s.release d)
  respond : ∀ s r, Q s → Q (s.respond r)
  continueAs : ∀ s f, Q s → Q (s.continueAs f)
  refuse : ∀ s, Q s → Q s.refuse
  tick : ∀ s, Q s → Q s.tick
  poke : ∀ s o v, Q s → Q (s.poke o v)
  latchAll : ∀ s c, Q s → Q (s.latchAll c)
  setBinding : ∀ s p l b, Q s → Q (s.setBinding p l b)
  expWrite : ∀ s t r d, Q s → Q (s.expWrite t r d)
  scrambleAll : ∀ s, Q s → Q (scrambleAll s)
  setStale : ∀ s x, Q s → Q { s with miimStale := x }
  afterSched : ∀ s x, Q s → Q (s.afterSched x)
  issue : ∀ s c r, Q s → Q (s.issue c r)

namespace KeptByUpdates
variable {Q : State → Prop} (K : KeptByUpdates Q)
include K

theorem afterRead_kept (s : State) (c : Ctl) (o : Nat) (h : Q s) : Q (State.afterRead s c o) := by
  unfold State.afterRead; split
  · exact K.tick _ h
  · split
    · exact h
    · exact K.tick _ h

theorem writeReg_kept (s c o v) (h : Q s) : Q (State.writeReg s c o v) := by
  unfold State.writeReg; split
  · split
    · exact K.latchAll _ _ (K.poke _ _ _ h)
    · exact K.poke _ _ _ h
  · exact K.tick _ (K.poke _ _ _ h)

theorem rmw_kept (s c o m v) (h : Q s) :
    Q (State.rmw s c o m v) := by
  obtain ⟨_, e⟩ | ⟨_, e⟩ := State.rmw_cases s c o m v <;> rw [e]
  · exact K.writeReg_kept _ _ _ _ h
  · exact K.writeReg_kept _ _ _ _ (K.afterRead_kept _ _ _ h)

theorem commit_kept (s c) (h : Q s) : Q (State.commit s c) := by
  unfold State.commit; split
  · exact h
  · exact K.rmw_kept _ _ _ _ _ h

theorem withLock_kept (s d body) (h : Q s) (hb : ∀ s, Q s → Q (body s)) :
    Q (State.withLock s d body) := by
  unfold State.withLock; split
  · exact h
  · exact K.release _ _ (hb _ (K.acquire _ _ h))

theorem withLockOf_kept (s c o body) (h : Q s) (hb : ∀ s, Q s → Q (body s)) :
    Q (State.withLockOf s c o body) := by
  unfold State.withLockOf; split
  · exact K.withLock_kept _ _ _ h hb
  · exact hb _ h

theorem start_kept (s : State) (body : Ctl → State) (h : Q s) (hb : ∀ c, s.ctl = some c → Q (body c)) :
    Q (State.start s body) := by
  unfold State.start; split
  · split
    · exact K.refuse _ h
    · exact hb _ ‹_›
  · exact h
  · exact h

omit K in
theorem foldl_kept {α : Type} (l : List α) (f : State → α → State) (hf : ∀ s a, Q s → Q (f s a)) (s) (h : Q s) :
    Q (l.foldl f s) := by
  induction l generalizing s with
  | nil => exact h
  | cons x r ih => exact ih _ (hf _ _ h)

theorem scrambleIfWrite_kept (wr t r s) (h : Q s) : Q (scrambleIfWrite wr t r s) := by
  unfold scrambleIfWrite scrambleCell; split
  · exact K.tick _ (K.expWrite _ _ _ _ h)
  · exact h

omit K in
theorem engineStep_kept (s i body) (h : Q s) (hb : ∀ c, Q (body c)) : Q (State.engineStep s i body) := by
  unfold State.engineStep; split
  · exact h
  · split
    · exact hb _
    · exact h

theorem engineTainted_kept (c wr t r s) (h : Q s) : Q (engineTainted c wr t r s) := by
  unfold engineTainted
  have := K.scrambleIfWrite_kept wr t r (anyData c s) (K.poke _ _ _ (K.tick _ h))
  unfold scrambleStale; split
  · exact this
  · exact K.scrambleIfWrite_kept _ _ _ _ this

theorem engineComplete_kept (c wr t r rsv s body) (h : Q s) (hb : Q body) :
    Q (engineComplete c wr t r rsv s body) := by
  unfold engineComplete; split
  · exact K.scrambleAll _ (K.poke _ _ _ (K.tick _ h))
  · split
    · exact K.engineTainted_kept _ _ _ _ _ h
    · exact hb

theorem clearBits_kept (c o m s) (h : Q s) : Q (clearBits c o m s) := by
  unfold clearBits; split
  · exact h
  · exact K.rmw_kept _ _ _ _ _ h

theorem miimPhaseStep_kept (c t s) (h : Q s) : Q (miimPhaseStep c t s) := by
  unfold miimPhaseStep; split
  · unfold miimLatch; simp only []; split
    · exact K.continueAs _ _ h
    · exact K.continueAs _ _ (K.setStale _ _ h)
  · exact K.continueAs _ _ h
  · exact K.continueAs _ _ (K.writeReg_kept _ _ _ _ h)
  · unfold miimPoll; simp only []; split
    · split
      · exact K.respond _ _ (K.release _ _ (K.setStale _ _ h))
      · exact K.continueAs _ _ h
    · unfold miimComplete; split
      · exact K.respond _ _ (K.release _ _ h)
      · split
        · exact K.respond _ _ (K.release _ _ (K.tick _ h))
        · exact K.respond _ _ (K.release _ _ h)

theorem miimContinue_kept (wr t s) (h : Q s) : Q (miimContinue wr t s) := by
  unfold miimContinue; split
  · exact h
  · split
    · exact K.miimPhaseStep_kept _ _ _ h
    · exact h

theorem miimInvoke_kept (tgt sub wr dat s) (h : Q s) : Q (miimInvoke tgt sub wr dat s) := by
  unfold miimInvoke; split
  · exact K.respond _ _ h
  · split
    · exact K.respond _ _ h
    · split
      · exact h
      · exact K.continueAs _ _ (K.acquire _ _ h)

theorem psetChecks_kept (c pset media s body) (h : Q s) (hb : ∀ m, Q (body m)) :
    Q (psetChecks c pset media s body) := by
  unfold psetChecks; split
  · split
    · split
      · exact hb _
      · exact K.respond _ _ h
    · exact K.respond _ _ h
  · exact K.respond _ _ h

theorem foldl_getSelReg_kept (c m pset) (l : List Nat) (x : State × PortMask) (h : Q x.1) :
    Q (l.foldl (getSelReg c m pset) x).1 := by
  induction l generalizing x with
  | nil => exact h
  | cons a r ih => exact ih _ (K.afterRead_kept _ _ _ h)

/-- A property that the named updates and construction keep is kept by every instruction. -/
theorem exec_kept
    (hcons : ∀ s f nports nleds vmask, Q s → s.ctl = none →
      (newCtl s.params f nports nleds vmask).ok s.params = true →
      Q (s.construct (newCtl s.params f nports nleds vmask)))
    (i : Instr) (s t : State) (h : Q s) (e : exec i s = .next t) : Q t := by
  cases i <;> (injection e with e; subst e)
  · refine K.start_kept _ _ h fun c _ => ?_
    split
    · exact K.respond _ _ h
    · exact K.withLock_kept _ _ _ h fun s h => K.respond _ _ (K.rmw_kept _ _ _ _ _ h)
  · refine K.start_kept _ _ h fun c _ => K.withLock_kept _ _ _ h fun s h => K.psetChecks_kept _ _ _ _ _ h fun m => K.respond _ _ (foldl_kept _ _ (fun s r h => ?_) _ h)
    unfold setSelReg; split
    · exact h
    · exact K.rmw_kept _ _ _ _ _ h
  · exact K.start_kept _ _ h fun c _ => K.withLock_kept _ _ _ h fun s h => K.psetChecks_kept _ _ _ _ _ h fun m => K.respond _ _ (K.foldl_getSelReg_kept _ _ _ _ _ h)
  · refine K.start_kept _ _ h fun c _ => K.withLock_kept _ _ _ h fun s h => ?_
    split
    · exact K.respond _ _ h
    · exact K.respond _ _ (K.rmw_kept _ _ _ _ _ h)
  · refine K.start_kept _ _ h fun c _ => K.withLock_kept _ _ _ h fun s h => ?_
    split
    · exact K.respond _ _ h
    · exact K.respond _ _ (K.afterRead_kept _ _ _ h)
  · exact K.start_kept _ _ h fun c _ => K.withLock_kept _ _ _ h fun s h => K.respond _ _ (K.commit_kept _ _ (foldl_kept _ _ (fun _ _ h => K.clearBits_kept _ _ _ _ h) _ (foldl_kept _ _ (fun _ _ h => K.clearBits_kept _ _ _ _ h) _ h)))
  · refine K.start_kept _ _ h fun c _ => K.withLock_kept _ _ _ h fun s h => ?_
    split
    · exact K.respond _ _ (K.rmw_kept _ _ _ _ _ h)
    · exact K.respond _ _ h
  · refine K.start_kept _ _ h fun c _ => K.withLock_kept _ _ _ h fun s h => ?_
    split
    · split
      · exact K.respond _ _ h
      · exact K.respond _ _ (K.commit_kept _ _ (K.rmw_kept _ _ _ _ _ h))
    · exact K.respond _ _ h
  · exact K.start_kept _ _ h fun c _ => K.withLock_kept _ _ _ h fun s h => K.respond _ _ (K.rmw_kept _ _ _ _ _ h)
  · refine K.start_kept _ _ h fun c _ => K.withLock_kept _ _ _ h fun s h => ?_
    split
    · exact K.respond _ _ h
    · exact K.respond _ _ (K.rmw_kept _ _ _ _ _ h)
  · split
    · exact K.start_kept _ _ h fun c _ => K.miimInvoke_kept _ _ _ _ _ h
    · exact K.miimContinue_kept _ _ _ h
    · exact h
  · split
    · exact K.start_kept _ _ h fun c _ => K.miimInvoke_kept _ _ _ _ _ h
    · exact K.miimContinue_kept _ _ _ h
    · exact h
  · refine K.start_kept _ _ h fun c _ => K.withLock_kept _ _ _ h fun s h => ?_
    split
    · split
      · split
        · exact K.respond _ _ (K.setBinding _ _ _ _ (K.rmw_kept _ _ _ _ _ h))
        · exact K.respond _ _ (K.setBinding _ _ _ _ h)
      · exact K.respond _ _ h
    · exact K.respond _ _ h
  · refine K.start_kept _ _ h fun c _ => K.withLock_kept _ _ _ h fun s h => ?_
    split
    · split
      · exact K.respond _ _ h
      · exact K.respond _ _ (K.setBinding _ _ _ _ h)
      · exact K.respond _ _ (K.setBinding _ _ _ _ (K.rmw_kept _ _ _ _ _ h))
    · exact K.respond _ _ h
  · split
    · split
      · exact K.refuse _ h
      · split
        · split
          · exact K.respond _ _ (hcons _ _ _ _ _ h (by cases hh : s.ctl <;> simp_all) ‹_›)
          · exact K.refuse _ h
        · exact K.respond _ _ h
        · exact K.respond _ _ h
    · exact h
    · exact h
  · refine K.start_kept _ _ h fun c _ => ?_
    split
    · exact K.withLockOf_kept _ _ _ _ h fun s h => K.respond _ _ (K.afterRead_kept _ _ _ h)
    · exact K.refuse _ h
  · refine K.start_kept _ _ h fun c _ => ?_
    split
    · exact K.withLockOf_kept _ _ _ _ h fun s h => K.respond _ _ (K.writeReg_kept _ _ _ _ h)
    · exact K.refuse _ h
  · split
    · refine K.start_kept _ _ h fun c _ => ?_
      split
      · split
        · unfold rawRmwLoad; split
          · exact h
          · exact K.continueAs _ _ (K.acquire _ _ h)
        · exact K.withLockOf_kept _ _ _ _ h fun s h => K.respond _ _ (K.rmw_kept _ _ _ _ _ h)
      · exact K.refuse _ h
    · exact h
    · split
      · exact h
      · exact K.respond _ _ (K.release _ _ (K.writeReg_kept _ _ _ _ h))
  · refine engineStep_kept _ _ _ h fun c => K.engineComplete_kept _ _ _ _ _ _ _ h (K.poke _ _ _ ?_)
    unfold State.afterExpRead; split
    · exact K.tick _ h
    · exact h
  · exact engineStep_kept _ _ _ h fun c =>
      K.engineComplete_kept _ _ _ _ _ _ _ h (K.poke _ _ _ (K.expWrite _ _ _ _ h))

/-- And by every step. -/
theorem step_kept
    (hcons : ∀ s f nports nleds vmask, Q s → s.ctl = none →
      (newCtl s.params f nports nleds vmask).ok s.params = true →
      Q (s.construct (newCtl s.params f nports nleds vmask)))
    (s t : State) (h : Q s) (e : step s = .next t) : Q t := by
  unfold step at e
  split at e
  · cases e; exact h
  · unfold engineTurn at e; split at e
    · cases e; exact K.afterSched _ _ h
    · exact K.exec_kept hcons _ _ _ (K.afterSched _ _ h) e
  · unfold callerTurn at e; split at e
    · split at e
      · cases e; exact K.afterSched _ _ h
      · split at e
        · exact K.exec_kept hcons _ _ _ (K.issue _ _ _ (K.afterSched _ _ h)) e
        · cases e; exact K.refuse _ (K.issue _ _ _ (K.afterSched _ _ h))
    · cases e; exact K.afterSched _ _ h
end KeptByUpdates


end Sys2Proof.Machine
end

