-- ==== Sys2Proof/Laws/Locked.lean ====
section
/-! SUPPORT. An operation under a lock as a whole: what its one step leaves behind, said once. -/

namespace Sys2Proof.Machine

/-- Two states with equal fields are equal. -/
theorem State.eq_of_fields {s t : State} (h1 : s.params = t.params) (h2 : s.window = t.window)
    (h3 : s.swLatch = t.swLatch) (h4 : s.exp = t.exp) (h5 : s.bind = t.bind) (h6 : s.ctl = t.ctl)
    (h7 : s.globalOwner = t.globalOwner) (h8 : s.portledOwner = t.portledOwner)
    (h9 : s.miimOwner = t.miimOwner) (h10 : s.callers = t.callers) (h11 : s.miimStale = t.miimStale)
    (h12 : s.refused = t.refused) (h13 : s.cur = t.cur) (h14 : s.sched = t.sched)
    (h15 : s.free = t.free) : s = t := by
  cases s; cases t; simp_all

/-- An operation that can run takes its lock, runs and gives it back (R66). -/
theorem State.Ready.run {s : State} {c : Ctl} {d : Domain} (h : s.Ready c d) (body : Ctl → State → State) :
    (s.start fun c => s.withLock d (body c)) = (body c (s.acquire d)).release d := by
  rw [State.start_idle s c h.1.2.1 h.1.2.2.1, State.withLock_free s h.2]

/-- An operation that ran under its lock, reached the state `u` with nothing but memories and the count
of free values changed, and returned `r`: the response, and the frame. -/
theorem State.Ready.returns {s : State} {c : Ctl} {d : Domain} (h : s.Ready c d) {u : State} (r : Response)
    (hu : u = { s.acquire d with
      window := u.window, swLatch := u.swLatch, exp := u.exp, bind := u.bind, free := u.free }) :
    Returned s ((u.respond r).release d) r ∧
      (u.respond r).release d = { s with
        window := u.window, swLatch := u.swLatch, exp := u.exp, bind := u.bind, free := u.free
        callers := ((u.respond r).release d).callers } := by
  have hcur : u.cur = s.cur := by rw [hu]; exact State.acquire_cur s d
  have hcal : u.callers = s.callers := by rw [hu]; exact State.acquire_callers s d
  have hg : u.globalOwner = (s.acquire d).globalOwner := by rw [hu]
  have hp : u.portledOwner = (s.acquire d).portledOwner := by rw [hu]
  have hm : u.miimOwner = (s.acquire d).miimOwner := by rw [hu]
  obtain ⟨rg, rp, rm⟩ := State.release_of_acquire s (u.respond r) h.2 hg hp hm
  refine ⟨returned_of_callers h.1.1 (by simp [hcur]) (by simp [hcur, hcal]), ?_⟩
  apply State.eq_of_fields <;> first | rfl | assumption | skip
  all_goals
    first
    | simp only [State.release_params, State.release_window, State.release_swLatch, State.release_exp,
        State.release_bind, State.release_ctl, State.release_miimStale, State.release_refused,
        State.release_cur, State.release_sched, State.release_free, State.respond_params,
        State.respond_window, State.respond_swLatch, State.respond_exp, State.respond_bind,
        State.respond_ctl, State.respond_miimStale, State.respond_refused, State.respond_cur,
        State.respond_sched, State.respond_free]
  all_goals try rw [hu]
  all_goals simp

end Sys2Proof.Machine
end

