-- ==== Sys2Proof/Laws/PerInstr.lean ====
section
/-! SUPPORT. A law stated instruction by instruction: every instruction has exactly one of the two
encodings, and its request decodes back to it. -/

namespace Sys2Proof.Laws.OneEncoding

/-- The instruction is spelled by a request that decodes to it and by no command word, or by a command
word and no request (R82, R87). -/
def Statement (i : Instr) : Prop :=
  ∀ L : CmdLayout,
    (∃ q, encodeRequest i = some q ∧ encodeCommand L i = none ∧ decodeRequest q = .ok i) ∨
      (encodeRequest i = none ∧ ∃ w, encodeCommand L i = some w)

theorem plActivate :
    Statement .plActivate := fun _ => .inl ⟨_, rfl, rfl, rfl⟩

theorem plSetPset (pset : Byte) (pmask : PortMask) (media : Byte) :
    Statement (.plSetPset pset pmask media) := fun _ => .inl ⟨_, rfl, rfl, rfl⟩

theorem plGetPset (pset media : Byte) :
    Statement (.plGetPset pset media) := fun _ => .inl ⟨_, rfl, rfl, rfl⟩

theorem plSetMode (pset led mode : Byte) :
    Statement (.plSetMode pset led mode) := fun _ => .inl ⟨_, rfl, rfl, rfl⟩

theorem plGetMode (pset led : Byte) :
    Statement (.plGetMode pset led) := fun _ => .inl ⟨_, rfl, rfl, rfl⟩

theorem plInitAll :
    Statement .plInitAll := fun _ => .inl ⟨_, rfl, rfl, rfl⟩

theorem plRegisterUserLed (port led : Byte) (flag : Bool) :
    Statement (.plRegisterUserLed port led flag) := fun _ => .inl ⟨_, rfl, rfl, rfl⟩

theorem plSetUserMode (port led mode : Byte) :
    Statement (.plSetUserMode port led mode) := fun _ => .inl ⟨_, rfl, rfl, rfl⟩

theorem miimEnable :
    Statement .miimEnable := fun _ => .inl ⟨_, rfl, rfl, rfl⟩

theorem miimSetClock (mode : Byte) :
    Statement (.miimSetClock mode) := fun _ => .inl ⟨_, rfl, rfl, rfl⟩

theorem miimRead (tgt sub : Byte) :
    Statement (.miimRead tgt sub) := fun _ => .inl ⟨_, rfl, rfl, rfl⟩

theorem miimWrite (tgt sub : Byte) (data : Half) :
    Statement (.miimWrite tgt sub data) := fun _ => .inl ⟨_, rfl, rfl, rfl⟩

theorem regBind (port led : Byte) (asUser : Bool) :
    Statement (.regBind port led asUser) := fun _ => .inl ⟨_, rfl, rfl, rfl⟩

theorem regUnbind (port led : Byte) :
    Statement (.regUnbind port led) := fun _ => .inl ⟨_, rfl, rfl, rfl⟩

theorem ctlConstruct (compat : List Byte) (nports nleds : Byte) (vmask : PortMask) :
    Statement (.ctlConstruct compat nports nleds vmask) := fun _ => .inl ⟨_, rfl, rfl, rfl⟩

theorem raRead32 (off : Word) :
    Statement (.raRead32 off) := fun _ => .inl ⟨_, rfl, rfl, rfl⟩

theorem raWrite32 (off val : Word) :
    Statement (.raWrite32 off val) := fun _ => .inl ⟨_, rfl, rfl, rfl⟩

theorem raRmw32 (off msk val : Word) :
    Statement (.raRmw32 off msk val) := fun _ => .inl ⟨_, rfl, rfl, rfl⟩

theorem miimCmdRead (data : Half) (reg phy : BusAddr) (rsv : Word) :
    Statement (.miimCmdRead data reg phy rsv) := fun _ => .inr ⟨rfl, _, rfl⟩

theorem miimCmdWrite (data : Half) (reg phy : BusAddr) (rsv : Word) :
    Statement (.miimCmdWrite data reg phy rsv) := fun _ => .inr ⟨rfl, _, rfl⟩

end Sys2Proof.Laws.OneEncoding
end

