-- ==== Sys2Proof/Tests/Slice0.lean ====
section
/-! SUPPORT. The model's own tests: ill-formed terms, words written out from R80, R82 and R87, one-step
tests on the spec's vectors (95_test_vectors.md), and for every statement with hypotheses a concrete
state and operands that meet them all. -/

open Sys2Proof Sys2Proof.Machine

namespace Sys2Proof.Tests

set_option maxRecDepth 100000

/-! ### Ill-formed terms, and one well-formed one -/

theorem test_illformed_read_rsv :
    (Instr.miimCmdRead 0 0 0 1).wellFormed defaultCmdLayout = false := by decide

theorem test_illformed_write_rsv :
    (Instr.miimCmdWrite 0 0 0 0x40).wellFormed defaultCmdLayout = false := by decide

theorem test_illformed_long_compat :
    (Instr.ctlConstruct (List.replicate 256 0) 28 3 0).wellFormed defaultCmdLayout = false := by decide

theorem test_wellformed_rsv : (Instr.miimCmdWrite 0 0 0 0x3C).wellFormed defaultCmdLayout = true := by decide

/-! ### Every constructor's decoding, on a word written out from the spec's encoding

A request's number is read from its right end: opsel, pset, led, port, mode, media, pmask (8 bytes),
tgt, sub, data (2), flag, off (4), val (4), msk (4), nports, nleds, vmask (8), the string's length and
the string (log entry 2). -/

/-- opsel 0x01 (R80, R82). -/
theorem test_decode_plActivate :
    decodeTableWord 8 0x01 = some .plActivate := by decide

/-- opsel 0x02, pset 2, media 1, pmask 0xF0FF0 (R80, R82). -/
theorem test_decode_plSetPset :
    decodeTableWord 72 0x0F0FF0010000000202 = some (.plSetPset 2 0xF0FF0 1) := by decide

/-- opsel 0x03, pset 3, media 1 (R80, R82). -/
theorem test_decode_plGetPset :
    decodeTableWord 48 0x010000000303 = some (.plGetPset 3 1) := by decide

/-- V-PL18b: opsel 0x04, pset 3, led 2, mode 9 (R80, R82). -/
theorem test_decode_plSetMode :
    decodeTableWord 40 0x0900020304 = some (.plSetMode 3 2 9) := by decide

/-- opsel 0x05, pset 3, led 2 (R80, R82). -/
theorem test_decode_plGetMode :
    decodeTableWord 24 0x020305 = some (.plGetMode 3 2) := by decide

/-- opsel 0x06 (R80, R82). -/
theorem test_decode_plInitAll :
    decodeTableWord 8 0x06 = some .plInitAll := by decide

/-- V-SW7: opsel 0x07, port 13, led 2, flag 1 (R80, R82). -/
theorem test_decode_plRegisterUserLed :
    decodeTableWord 152 0x0100000000000000000000000000000D020007 =
      some (.plRegisterUserLed 13 2 true) := by decide

/-- V-SW1: opsel 0x08, port 13, led 1, mode 5 (R80, R82). -/
theorem test_decode_plSetUserMode :
    decodeTableWord 40 0x050D010008 = some (.plSetUserMode 13 1 5) := by decide

/-- opsel 0x10 (R80, R82). -/
theorem test_decode_miimEnable :
    decodeTableWord 8 0x10 = some .miimEnable := by decide

/-- V-M2: opsel 0x11, mode 2 (R80, R82). -/
theorem test_decode_miimSetClock :
    decodeTableWord 40 0x0200000011 = some (.miimSetClock 2) := by decide

/-- V-M5: opsel 0x12, tgt 5, sub 0xFF (R80, R82). -/
theorem test_decode_miimRead :
    decodeTableWord 128 0xFF050000000000000000000000000012 = some (.miimRead 5 0xFF) := by decide

/-- V-M4: opsel 0x13, tgt 5, sub 3, data 0xBEEF (R80, R82). -/
theorem test_decode_miimWrite :
    decodeTableWord 144 0xBEEF03050000000000000000000000000013 = some (.miimWrite 5 3 0xBEEF) := by decide

/-- V-RG1: opsel 0x20, port 13, led 2, flag 1 (R80, R82). -/
theorem test_decode_regBind :
    decodeTableWord 152 0x0100000000000000000000000000000D020020 = some (.regBind 13 2 true) := by decide

/-- V-RG3: opsel 0x21, port 13, led 2 (R80, R82). -/
theorem test_decode_regUnbind :
    decodeTableWord 40 0x000D020021 = some (.regUnbind 13 2) := by decide

/-- opsel 0x30, compat "ex", nports 28, nleds 3, vmask (R80, R82). -/
theorem test_decode_ctlConstruct :
    decodeTableWord 352 0x786502FFFFFFFFFFFFFFF0031C00000000000000000000000000000000000000000000000000000000000030 =
      some (.ctlConstruct [101, 120] 28 3 0xFFFFFFFFFFFFFFF0) := by decide

/-- V-RA1: opsel 0xF0, off 0x004 (R80, R82). -/
theorem test_decode_raRead32 :
    decodeTableWord 160 0x04000000000000000000000000000000000000F0 = some (.raRead32 0x004) := by decide

/-- opsel 0xF1, off 0x100, val 0x12345678 (R80, R82). -/
theorem test_decode_raWrite32 :
    decodeTableWord 216 0x1234567800000100000000000000000000000000000000000000F1 =
      some (.raWrite32 0x100 0x12345678) := by decide

/-- V-RA3: opsel 0xF2, off, msk, val (R80, R82). -/
theorem test_decode_raRmw32 :
    decodeTableWord 248 0x03E003E00080008000000010000000000000000000000000000000000000F2 =
      some (.raRmw32 0x010 0x03E003E0 0x00800080) := by decide

/-- R87: DATA 0xBEEF, REG 3, PHY 5, reserved 0, RWOP 0, CMD 1. -/
theorem test_decode_miimCmdRead :
    decodeTableWord 32 0b1011111011101111_00011_00101_0000_0_1 = some (.miimCmdRead 0xBEEF 3 5 0) := by decide

/-- R87 (V-M11): DATA all ones, REG 31, PHY 31, reserved bits 5..2 all ones, RWOP 1, CMD 1. -/
theorem test_decode_miimCmdWrite :
    decodeTableWord 32 0b1111111111111111_11111_11111_1111_1_1 = some (.miimCmdWrite 0xFFFF 31 31 0x3C) := by
  decide

/-- R87: CMD = 0 is idle, no command. -/
theorem test_decode_idle : decodeTableWord 32 0xBEEF1942 = none := by decide

/-- V-ER1: a reserved opsel. -/
theorem test_decode_reserved : decodeTableWord 8 0x09 = none ∧ decodeTableWord 8 0xF3 = none := by decide

/-- A request is the first instruction after reset. -/
theorem test_fetch_request :
    step (State.reset.withFetchWord 8 0x06) =
      exec .plInitAll (((State.reset.withFetchWord 8 0x06).afterSched []).issue 0 { opsel := 0x06 }) := rfl

/-- A command word is the first instruction after reset. -/
theorem test_fetch_command :
    step (State.reset.withFetchWord 32 0xBEEF1943) =
      exec (.miimCmdWrite 0xBEEF 3 5 0) ((State.reset.withFetchWord 32 0xBEEF1943).afterSched []) := rfl

/-! ### The configurations of the vectors, and one step -/

/-- EX-B, constructed. -/
def ctlB : Ctl := exampleCtl exParams

/-- EX-A, constructed. -/
def ctlA : Ctl := newCtl exParams .A 52 2 0x000FFFFFFFFFFFFF

/-- EX-B with these registers, caller 0 idle. -/
def stB (regs : Store Word) : State := { State.reset with ctl := some ctlB, window := regs }

/-- EX-A with these registers, caller 0 idle. -/
def stA (regs : Store Word) : State := { State.reset with ctl := some ctlA, window := regs }

/-- Caller 0 inside the transaction `x`, holding the lock. -/
def inTx (s : State) (x : Tx) : State :=
  { s with miimOwner := some 0, callers := [{ Caller.initial with req := some { opsel := 0x12 }, flight := .miim x },
      Caller.initial] }

/-- The state after one instruction. -/
def ran (i : Instr) (s : State) : Option State :=
  match exec i s with
  | .next t => some t
  | .fault _ => none
  | .refused _ => none

/-- The response of caller 0 after one instruction. -/
def rspOf (i : Instr) (s : State) : Option Response := (ran i s).map fun t => t.me.rsp

/-- The status of that response and what one register holds. -/
def regOf (i : Instr) (o : Nat) (s : State) : Option (Status × Word) :=
  (ran i s).map fun t => (t.me.rsp.status, t.peek o)

/-! ### One step of each operation -/

/-- V-RA1. -/
theorem test_raRead32 : rspOf (.raRead32 4) (stB [(4, 0xBEEF1940)]) = some (.ok 0xBEEF1940) := by decide

/-- V-RA6: a misaligned access is refused. -/
theorem test_raRead32_refused : (ran (.raRead32 2) (stB [])).map (·.refused) = some true := by decide

/-- V-RA2. -/
theorem test_raWrite32 : regOf (.raWrite32 0x100 0) 0x100 (stB [(0x100, 0x12345678)]) = some (.ok, 0) := by
  decide

/-- V-RA7: an access at WINDOW_SIZE is refused. -/
theorem test_raWrite32_refused : (ran (.raWrite32 0x400 1) (stB [])).map (·.refused) = some true := by decide

/-- V-RA3. -/
theorem test_raRmw32 :
    regOf (.raRmw32 0x010 0x03E003E0 0x00800080) 0x010 (stA [(0x010, 0xFFFFFFFF)]) = some (.ok, 0xFC9FFC9F) := by
  decide

/-- V-RA4: bits of the value outside the mask are ignored. -/
theorem test_raRmw32_mask :
    regOf (.raRmw32 0x010 0xFF 0xFFFFFF0F) 0x010 (stB [(0x010, 0xF0F0)]) = some (.ok, 0xF00F) := by decide

/-- V-M1. -/
theorem test_miimEnable : regOf .miimEnable 0 (stB [(0, 0x8000)]) = some (.ok, 0x8001) := by decide

/-- V-M3: only the field's two bits take the value. -/
theorem test_miimSetClock : regOf (.miimSetClock 7) 0 (stA [(0, 0x8005)]) = some (.ok, 0x8007) := by decide

/-- V-M3b: Family B has no clock field. -/
theorem test_miimSetClock_none : regOf (.miimSetClock 2) 0 (stB [(0, 0x8001)]) = some (.ok, 0x8001) := by decide

/-- V-M5: the issuing write of a read with no sub-register on an unchanged target. -/
theorem test_miimRead_issue :
    (ran (.miimRead 5 0xFF) (inTx (stB [(4, 0xBEEF1942)]) {
      phase := .issueWr, tgt := 5, sub := none, wr := false, dat := 0, old := 0xBEEF1942
      m := composeMask defaultCmdLayout 0xBEEF1942 5 none false
      v := composeValue defaultCmdLayout 5 none false 0 })).map (·.peek 4) = some 0xBEEF1941 := by decide

/-- V-M5: the poll that reads CMD = 0 returns DATA. -/
theorem test_miimRead_complete :
    rspOf (.miimRead 5 0xFF) (inTx (stB [(4, 0xBEEF1940)]) {
      phase := .poll, tgt := 5, sub := none, wr := false, dat := 0 }) = some (.ok 0xBEEF) := by decide

/-- V-M4: m and v of a write to (5, 3) from an idle word, and the word it issues. -/
theorem test_miimWrite_compose :
    composeMask defaultCmdLayout 0 5 (some 3) true = 0xFFFFFFC3 ∧
      composeValue defaultCmdLayout 5 (some 3) true 0xBEEF = 0xBEEF1943 := by decide

/-- V-M12: the 300th poll that reads CMD = 1 times out and leaves the command. -/
theorem test_miimWrite_timeout :
    (ran (.miimWrite 7 1 0) (inTx (stB [(4, 0x00FF09C1)]) {
      phase := .poll, tgt := 7, sub := some 1, wr := true, dat := 0, k := 299 })).map
        (fun t => (t.me.rsp.status, t.peek 4, t.miimStale, t.miimOwner)) =
      some (.busTimeout, 0x00FF09C1, some { tgt := 7, reg := 1, wr := false }, none) := by decide

/-- V-M4: the engine stores DATA and clears CMD. -/
theorem test_miimCmdWrite :
    (ran (.miimCmdWrite 0xBEEF 3 5 0) (stB [(4, 0xBEEF1943)])).map (fun t => (t.peek 4, t.exp)) =
      some (0xBEEF1942, [(32 * 5 + 3, 0xBEEF)]) := by decide

/-- V-M5: the engine puts the expander register in DATA and clears CMD. -/
theorem test_miimCmdRead :
    (ran (.miimCmdRead 0 3 5 0) { stB [(4, 0x00001941)] with exp := [(32 * 5 + 3, 0xBEEF)] }).map (·.peek 4) =
      some 0xBEEF1940 := by decide

/-- R140's example on EX-B. -/
theorem test_plActivate : regOf .plActivate 0 (stB [(0, 0x1)]) = some (.ok, 0x101) := by decide

/-- R140's example on EX-A: no access. -/
theorem test_plActivate_A : regOf .plActivate 0 (stA [(0, 0x1)]) = some (.ok, 0x1) := by decide

/-- V-PL2. -/
theorem test_plSetPset :
    (ran (.plSetPset 2 0x000F0FF0 0) (stB [])).map (fun t => (t.peek 0x020, t.peek 0x024)) =
      some (0x00AAAA00, 0x000000AA) := by decide

/-- V-ER5: the family's check comes first. -/
theorem test_plSetPset_A : rspOf (.plSetPset 9 0 9) (stA []) = some (.error .unsupportedOperation) := by decide

/-- V-PL4: the valid ports outside the set of V-PL2. -/
theorem test_plGetPset :
    rspOf (.plGetPset 0 0) (stB [(0x020, 0x00AAAA00), (0x024, 0xAA)]) = some (.ok 0x0FF0F000) := by decide

/-- V-PL9: RangeError carries PSET_MAX. -/
theorem test_plGetPset_range : rspOf (.plGetPset 4 0) (stB []) = some (.range 3) := by decide

/-- V-PL18b. -/
theorem test_plSetMode : regOf (.plSetMode 3 2 9) 0x014 (stB []) = some (.ok, 0x24000000) := by decide

/-- V-PL12: both copies on EX-A. -/
theorem test_plSetMode_A : regOf (.plSetMode 0 1 4) 0x010 (stA []) = some (.ok, 0x00800080) := by decide

/-- V-PL18b. -/
theorem test_plGetMode : rspOf (.plGetMode 3 2) (stB [(0x014, 0x24000000)]) = some (.ok 9) := by decide

/-- V-PL17b: copy 1 is not reported. -/
theorem test_plGetMode_A : rspOf (.plGetMode 0 0) (stA [(0x010, 3)]) = some (.ok 3) := by decide

/-- V-SW9 on the last port and the last enable register. -/
theorem test_plInitAll :
    (ran .plInitAll (stB [(0x16C, 0xFFFFFFFF), (0x208, 0xFFFFFFFF)])).map
        (fun t => (t.peek 0x16C, t.peek 0x208, t.swLatch.read 0 27)) =
      some (0xFE00FE00, 0xFF000000, 0xFE00FE00) := by decide

/-- V-SW10 on the last port and the last enable register. -/
theorem test_plInitAll_A :
    (ran .plInitAll (stA [(0x1CC, 0xFFFFFFFF), (0x214, 0xFFFFFFFF)])).map
        (fun t => (t.peek 0x1CC, t.peek 0x214)) = some (0xFFFFFFC0, 0xFFFFFFE4) := by decide

/-- V-SW7. -/
theorem test_plRegisterUserLed : regOf (.plRegisterUserLed 13 2 true) 0x204 (stB []) = some (.ok, 0x800) := by
  decide

/-- V-SW8. -/
theorem test_plRegisterUserLed_range :
    rspOf (.plRegisterUserLed 28 0 true) (stB []) = some (.error .invalidArgument) := by decide

/-- V-SW1: both planes and the commit. -/
theorem test_plSetUserMode :
    (ran (.plSetUserMode 13 1 5) (stB [])).map (fun t => (t.peek 0x134, t.swLatch.read 0 13)) =
      some (0x00280028, 0x00280028) := by decide

/-- V-SW3: EX-B has no BLINK_6. -/
theorem test_plSetUserMode_undefined :
    rspOf (.plSetUserMode 13 1 6) (stB []) = some (.error .invalidArgument) := by decide

/-- V-RG0: the controller that construction makes. -/
theorem test_ctlConstruct :
    (ran (.ctlConstruct exCompatB 28 3 0xFFFFFFFFFFFFFFF0) State.reset).map
        (fun t => t.ctl.map fun c => (c.family, c.validMask, c.psetMax)) =
      some (some (.B, 0x0FFFFFF0, 3)) := by decide

/-- V-RG0e: the family's check comes before the counts. -/
theorem test_ctlConstruct_unknown :
    rspOf (.ctlConstruct [97, 99, 109, 101] 2 4 0) State.reset = some (.error .unsupportedFamily) := by decide

/-- V-RG1. -/
theorem test_regBind :
    (ran (.regBind 13 2 true) (stB [])).map (fun t => (t.peek 0x204, t.binding 13 2, t.me.rsp.warn)) =
      some (0x800, .user, false) := by decide

/-- V-RG2: a second registration warns. -/
theorem test_regBind_again :
    (ran (.regBind 13 2 false) { stB [] with bind := [(256 * 13 + 2, .user)] }).map
        (fun t => (t.binding 13 2, t.me.rsp.warn)) = some (.user, true) := by decide

/-- V-RG3. -/
theorem test_regUnbind :
    (ran (.regUnbind 13 2) { stB [(0x204, 0x800)] with bind := [(256 * 13 + 2, .user)] }).map
        (fun t => (t.peek 0x204, t.bind, t.me.rsp.warn)) = some (0, [], false) := by decide

/-- V-RG4: unregistering an unregistered pair warns. -/
theorem test_regUnbind_again :
    (ran (.regUnbind 13 2) (stB [])).map (fun t => t.me.rsp) = some .warned := by decide

/-! ### Witnesses: for each statement with hypotheses, a state and operands that meet them all

A name witness_<Statement> or witness_<Statement>_<case> says whose hypotheses it meets. -/

theorem validB : ctlB.Valid exParams := by decide

theorem validA : ctlA.Valid exParams := by decide

/-- EX-B with caller 0 idle is ready for every lock, whatever the registers hold. -/
theorem readyB (regs : Store Word) (d : Domain) : (stB regs).Ready ctlB d :=
  ⟨⟨Nat.succ_pos 1, rfl, rfl, validB⟩, by cases d <;> rfl⟩

theorem readyA (regs : Store Word) (d : Domain) : (stA regs).Ready ctlA d :=
  ⟨⟨Nat.succ_pos 1, rfl, rfl, validA⟩, by cases d <;> rfl⟩

/-- Caller 0 inside a transaction on EX-B. -/
theorem insideB (regs : Store Word) (x : Tx) : (inTx (stB regs) x).Inside ctlB x :=
  ⟨Nat.succ_pos 1, rfl, rfl, validB⟩

/-- A read transaction to (5, 3) in the phase `p` after `k` polls. -/
def txRead (p : Phase) (k : Nat) : Tx := { phase := p, tgt := 5, sub := some 3, wr := false, dat := 0, k }

/-- A write transaction likewise. -/
def txWrite (p : Phase) (k : Nat) : Tx := { phase := p, tgt := 5, sub := some 3, wr := true, dat := 0xBEEF, k }

theorem witness_DecodingIsTotalByOpselAndCommandBits :
    (0x2 : Word).getLsbD defaultCmdLayout.cmdLsb = false ∧
      ((0x1 : Word).getLsbD defaultCmdLayout.cmdLsb = true ∧
        (0x1 : Word).getLsbD defaultCmdLayout.rwopLsb = false) ∧
      (0x3 : Word).getLsbD defaultCmdLayout.cmdLsb = true ∧
        (0x3 : Word).getLsbD defaultCmdLayout.rwopLsb = true := by decide

/-- Fields an operation does not use are ignored (R80). -/
theorem witness_DecodingIsTotalByOpselAndCommandBits_request :
    ({ opsel := 0x06, port := 5, data := 9 } : Request).opsel = 0x06 ∧
      ({ opsel := 0xF2, off := 4, msk := 1, led := 7 } : Request).opsel = 0xF2 ∧
      ({ opsel := 0x09 } : Request).opsel.toNat ∉ [0x08, 0x10] := by decide

theorem witness_RequestBytesRoundTrip :
    (Instr.ctlConstruct (List.replicate 255 7) 52 3 0).wellFormed defaultCmdLayout = true ∧
      (encodeBytes (.ctlConstruct (List.replicate 255 7) 52 3 0)).isSome = true := by decide

theorem witness_CommandWordRoundTrip :
    cmdLayoutOk defaultCmdLayout = true ∧ (Instr.miimCmdWrite 0xFFFF 31 31 0x3C).wellFormed defaultCmdLayout = true ∧
      encodeCommand defaultCmdLayout (.miimCmdWrite 0xFFFF 31 31 0x3C) = some 0xFFFFFFFF := by decide

theorem witness_DecodedCommandSpellsItsWord :
    cmdLayoutOk defaultCmdLayout = true ∧
      decodeCommand defaultCmdLayout 0xFFFFFFFF = .ok (.miimCmdWrite 0xFFFF 31 31 0x3C) := ⟨by decide, rfl⟩

/-- A layout other than the default, with the fields in the reverse order, is legal too. -/
theorem witness_IssuedWordHasTheComposedFields :
    cmdLayoutOk { cmdLsb := 31, rwopLsb := 30, phyLsb := 21, regLsb := 16, dataLsb := 0 } = true := by decide

theorem witness_RmwChangesExactlyTheMaskedBits : ctlB.isReg 0x220 = true ∧ ctlB.isReg 0x1CC = false := by decide

theorem witness_ReadReturnsTheLastWrite :
    (ctlB.isReg 0x004 = true ∧ ctlB.isLoad 0x004 = false) ∧
      (0x208 : Nat) ≠ 0x004 ∧ ctlB.isReg 0x208 = true ∧ ctlB.isLoad 0x208 = false := by decide

/-- Caller 0 is to issue `r`, and it is its turn. -/
def queued (s : State) (r : Request) : State :=
  { s with
    callers := [{ Caller.initial with queue := [r] }, Caller.initial]
    sched := [.caller 0] }

theorem witness_StepKeepsMemoriesCanonical :
    (queued (stB [(4, 1)]) { opsel := 0x06 }).Canonical ∧
      ∃ t, step (queued (stB [(4, 1)]) { opsel := 0x06 }) = .next t := ⟨by decide, _, rfl⟩

/-- Caller 0 in its last poll, and it is its turn. -/
def lastPoll : State := { inTx (stB [(4, 1)]) (txRead .poll 299) with sched := [.caller 0] }

theorem witness_StepKeepsSingleFlight :
    lastPoll.SingleFlight ∧ ∃ t, step lastPoll = .next t := ⟨by decide, _, rfl⟩

theorem witness_StepKeepsControllerValidAndPollsBounded :
    lastPoll.ControllerValid ∧ lastPoll.PollsBounded ∧ ∃ t, step lastPoll = .next t := by
  refine ⟨fun c hc => ?_, fun k t ht => ?_, _, rfl⟩
  · cases hc; exact validB
  · match k, ht with
    | 0, ht => injection ht with ht; subst ht; decide
    | 1, ht => exact nomatch ht
    | k + 2, ht => exact nomatch ht

theorem witness_StepNeverChangesTheController :
    ∃ t, step (queued (stB []) { opsel := 0x30 }) = .next t := ⟨_, rfl⟩

theorem witness_RefusedMarkIsNeverCleared :
    ({ queued (stB []) { opsel := 0x06 } with refused := true }).refused = true ∧
      ∃ t, step { queued (stB []) { opsel := 0x06 } with refused := true } = .next t := ⟨rfl, _, rfl⟩

theorem witness_StepRunsTheCallersRequest :
    (queued (stB []) { opsel := 0x08, port := 27 }).sched = .caller 0 :: [] ∧
      0 < (queued (stB []) { opsel := 0x08, port := 27 }).callers.length ∧
      (queued (stB []) { opsel := 0x08, port := 27 }).nextRequest 0 = some { opsel := 0x08, port := 27 } ∧
      decodeRequest { opsel := 0x08, port := 27 } = .ok (.plSetUserMode 27 0 0) := ⟨rfl, by decide, rfl, rfl⟩

theorem witness_StepRunsTheEnginesCommand :
    ({ stB [(4, 0xBEEF1943)] with sched := [.engine] }).sched = .engine :: [] ∧
      (stB [(4, 0xBEEF1943)]).ctl = some ctlB ∧
      decodeCommand ctlB.lay.cmd ((stB [(4, 0xBEEF1943)]).peek ctlB.lay.miimCmd) =
        .ok (.miimCmdWrite 0xBEEF 3 5 0) ∧
      cmdBit ctlB.lay.cmd ((stB [(4, 0xBEEF1942)]).peek ctlB.lay.miimCmd) = false ∧ State.reset.ctl = none :=
  ⟨rfl, rfl, rfl, by decide, rfl⟩

theorem witness_ReservedOpselIsRefused :
    (queued (stB []) { opsel := 0x09 }).sched = .caller 0 :: [] ∧
      0 < (queued (stB []) { opsel := 0x09 }).callers.length ∧
      (queued (stB []) { opsel := 0x09 }).nextRequest 0 = some { opsel := 0x09 } ∧
      decodeRequest { opsel := 0x09 } = .error (.reservedOpsel 0x09) := ⟨rfl, by decide, rfl, rfl⟩

/-- Caller 0 holds a request with a reserved opsel, with another one behind it in its queue. -/
def heldReserved : State :=
  { queued (stB []) { opsel := 0x06 } with
    callers := [{ Caller.initial with req := some { opsel := 0xFF }, queue := [{ opsel := 0x06 }] },
      Caller.initial] }

theorem witness_ReservedOpselIsRefused_held :
    heldReserved.sched = .caller 0 :: [] ∧ 0 < heldReserved.callers.length ∧
      heldReserved.nextRequest 0 = some { opsel := 0xFF } ∧
      decodeRequest { opsel := 0xFF } = .error (.reservedOpsel 0xFF) ∧
      (heldReserved.caller 0).req ≠ none := ⟨rfl, by decide, rfl, rfl, by decide⟩

theorem witness_UnconstructedBlockRefusesEveryOtherOperation :
    encodeRequest .plInitAll = some { opsel := 0x06 } ∧ (0x06 : Byte) ≠ 0x30 ∧
      State.reset.cur < State.reset.callers.length ∧ State.reset.me.flight = .idle ∧ State.reset.ctl = none := by
  decide

/-- EX-B with every lock in the hands of caller 1. -/
def lockedB : State :=
  { stB [] with globalOwner := some 1, portledOwner := some 1, miimOwner := some 1 }

theorem witness_OperationWaitsWhileItsLockIsHeld :
    lockedB.Idle ctlB ∧ (lockOf ctlB .plInitAll = some .portled ∧ lockedB.owner .portled = some 1) ∧
      (lockOf ctlB .miimEnable = some .global ∧ lockedB.owner .global = some 1) ∧
      offsetOk lockedB.params (0x004 : Word).toNat = true ∧ ctlB.domainOf (0x004 : Word).toNat = some .miim ∧
      lockedB.owner .miim = some 1 :=
  ⟨⟨by decide, rfl, rfl, validB⟩, by decide, by decide, by decide, by decide, rfl⟩

theorem witness_PrimitiveOutsideTheWindowIsRefused :
    (stB []).Idle ctlB ∧ ctlB.isReg 0x220 = true ∧ (0x002 : Word).toNat % 4 ≠ 0 ∧
      (stB []).params.windowSize ≤ (0x400 : Word).toNat := ⟨(readyB [] .miim).1, by decide, by decide, by decide⟩

theorem witness_RaRead32ReturnsTheRegister :
    (stB []).Idle ctlB ∧ (offsetOk exParams (0x3FC : Word).toNat = true ∧ (stB []).LockFree ctlB (0x3FC : Word).toNat) ∧
      offsetOk exParams (0x220 : Word).toNat = true ∧ (stB []).LockFree ctlB (0x220 : Word).toNat ∧
      ctlB.isReg (0x220 : Word).toNat = true := ⟨(readyB [] .miim).1, by decide⟩

theorem witness_RaWrite32ReplacesTheRegister :
    (stB []).Idle ctlB ∧ (offsetOk exParams (0x3FC : Word).toNat = true ∧ (stB []).LockFree ctlB (0x3FC : Word).toNat) ∧
      offsetOk exParams (0x000 : Word).toNat = true ∧ (stB []).LockFree ctlB (0x000 : Word).toNat ∧
      ctlB.isReg (0x000 : Word).toNat = true := ⟨(readyB [] .miim).1, by decide⟩

theorem witness_RaRmw32MergesUnderItsMask :
    (stB []).Idle ctlB ∧ offsetOk exParams (0x220 : Word).toNat = true ∧ (stB []).LockFree ctlB (0x220 : Word).toNat ∧
      ctlB.domainOf (0x220 : Word).toNat ≠ some .miim ∧ ctlB.isReg (0x220 : Word).toNat = true :=
  ⟨(readyB [] .miim).1, by decide⟩

/-- Caller 0 between the two steps of a raw RMW on MIIM_CMD. -/
def midRmw : State :=
  { stB [] with
    miimOwner := some 0
    callers := [{ Caller.initial with req := some { opsel := 0xF2 }, flight := .rawRmw 1 1 0xBEEF1940 }] }

theorem witness_RaRmw32OnMiimCmdTakesTwoSteps :
    (0x004 : Word).toNat = ctlB.lay.miimCmd ∧ (stB []).Ready ctlB .miim ∧
      midRmw.cur < midRmw.callers.length ∧ midRmw.me.flight = .rawRmw 1 1 0xBEEF1940 ∧
      midRmw.ctl = some ctlB ∧ ctlB.Valid midRmw.params :=
  ⟨by decide, readyB [] .miim, by decide, rfl, rfl, validB⟩

theorem witness_MiimEnableSetsTheEnableBit : (stB []).Ready ctlB .global := readyB [] .global

theorem witness_MiimSetClockWritesTheClockField :
    ((stA []).Ready ctlA .global ∧ ctlA.lay.miimClk.isSome = true) ∧
      (stB []).Ready ctlB .global ∧ ctlB.lay.miimClk = none :=
  ⟨⟨readyA [] .global, by decide⟩, readyB [] .global, rfl⟩

theorem witness_TransactionInvocationValidatesThenTakesTheLock :
    (stB []).Idle ctlB ∧ 32 ≤ (32 : Byte).toNat ∧ (32 ≤ (0xFE : Byte).toNat ∧ (0xFE : Byte) ≠ 0xFF) ∧
      ((31 : Byte).toNat < 32 ∧ (stB []).miimOwner = none) ∧ lockedB.Idle ctlB ∧ lockedB.miimOwner ≠ none :=
  ⟨(readyB [] .miim).1, by decide, by decide, by decide, ⟨by decide, rfl, rfl, validB⟩, by decide⟩

/-- The sub-register at the ends of its range: 31 and 0xFF (NONE) are accepted, 32 is not. -/
theorem witness_TransactionInvocationValidatesThenTakesTheLock_sub :
    (stB []).Idle ctlB ∧ (0 : Byte).toNat < 32 ∧ ((31 : Byte).toNat < 32 ∨ (31 : Byte) = 0xFF) ∧
      ((0xFF : Byte).toNat < 32 ∨ (0xFF : Byte) = 0xFF) ∧ (32 ≤ (32 : Byte).toNat ∧ (32 : Byte) ≠ 0xFF) ∧
      (stB []).miimOwner = none := ⟨(readyB [] .miim).1, by decide⟩

theorem witness_LatchStepComposesTheCommand :
    (inTx (stB []) (txRead .latch 0)).Inside ctlB (txRead .latch 0) ∧ IsTransaction false (.miimRead 5 3) ∧
      (txRead .latch 0).phase = .latch := ⟨insideB _ _, rfl, rfl⟩

/-- A write transaction about to issue what its LATCH step composed from an idle word. -/
def txIssue : Tx :=
  { txWrite .issueWr 0 with
    m := composeMask ctlB.lay.cmd 0 5 (some 3) true, v := composeValue ctlB.lay.cmd 5 (some 3) true 0xBEEF }

theorem witness_IssueStepsReadThenWriteTheCommand :
    ((inTx (stB []) (txWrite .issueRd 0)).Inside ctlB (txWrite .issueRd 0) ∧ (txWrite .issueRd 0).phase = .issueRd) ∧
      (inTx (stB []) txIssue).Inside ctlB txIssue ∧ txIssue.phase = .issueWr ∧
      IsTransaction true (.miimWrite 5 3 0xBEEF) ∧
      txIssue.m = composeMask ctlB.lay.cmd 0 txIssue.tgt txIssue.sub txIssue.wr ∧
      txIssue.v = composeValue ctlB.lay.cmd txIssue.tgt txIssue.sub txIssue.wr txIssue.dat :=
  ⟨⟨insideB _ _, rfl⟩, insideB _ _, rfl, rfl, rfl, rfl⟩

theorem witness_PollStepCountsWhileTheStrobeIsSet :
    (inTx (stB [(4, 1)]) (txRead .poll 298)).Inside ctlB (txRead .poll 298) ∧ IsTransaction false (.miimRead 5 3) ∧
      (txRead .poll 298).phase = .poll ∧
      cmdBit ctlB.lay.cmd ((inTx (stB [(4, 1)]) (txRead .poll 298)).peek ctlB.lay.miimCmd) = true ∧
      (txRead .poll 298).k + 1 ≠ exParams.pollMax := ⟨insideB _ _, rfl, rfl, by decide, by decide⟩

theorem witness_LastPollTimesOut :
    (inTx (stB [(4, 1)]) (txRead .poll 299)).Inside ctlB (txRead .poll 299) ∧ IsTransaction false (.miimRead 5 3) ∧
      (txRead .poll 299).phase = .poll ∧
      cmdBit ctlB.lay.cmd ((inTx (stB [(4, 1)]) (txRead .poll 299)).peek ctlB.lay.miimCmd) = true ∧
      (txRead .poll 299).k + 1 = exParams.pollMax := ⟨insideB _ _, rfl, rfl, by decide, by decide⟩

theorem witness_PollOfAClearStrobeCompletes :
    (inTx (stB [(4, 0xBEEF1940)]) (txRead .poll 299)).Inside ctlB (txRead .poll 299) ∧
      (txRead .poll 299).phase = .poll ∧
      cmdBit ctlB.lay.cmd ((inTx (stB [(4, 0xBEEF1940)]) (txRead .poll 299)).peek ctlB.lay.miimCmd) = false ∧
      (txRead .poll 299).wr = false ∧ (txRead .poll 299).tainted = false := ⟨insideB _ _, rfl, by decide, rfl, rfl⟩

theorem witness_PollOfAClearStrobeCompletes_write :
    (inTx (stB [(4, 0xBEEF1942)]) (txWrite .poll 0)).Inside ctlB (txWrite .poll 0) ∧
      (txWrite .poll 0).phase = .poll ∧
      cmdBit ctlB.lay.cmd ((inTx (stB [(4, 0xBEEF1942)]) (txWrite .poll 0)).peek ctlB.lay.miimCmd) = false ∧
      (txWrite .poll 0).wr = true := ⟨insideB _ _, rfl, by decide, rfl⟩

theorem witness_TransactionEndsWithinItsBound :
    (inTx (stB [(4, 1)]) (txRead .poll 299)).Inside ctlB (txRead .poll 299) ∧ IsTransaction false (.miimRead 5 3) ∧
      (txRead .poll 299).k < exParams.pollMax := ⟨insideB _ _, rfl, by decide⟩

theorem witness_EngineExecutesTheCommand :
    (stB [(4, 0xBEEF1943)]).ctl = some ctlB ∧ ctlB.Valid exParams ∧ (stB [(4, 0xBEEF1943)]).tainted = false ∧
      decodeCommand ctlB.lay.cmd ((stB [(4, 0xBEEF1943)]).peek ctlB.lay.miimCmd) =
        .ok (.miimCmdWrite 0xBEEF 3 5 0) ∧
      decodeCommand ctlB.lay.cmd ((stB [(4, 0xFFFFFFC1)]).peek ctlB.lay.miimCmd) =
        .ok (.miimCmdRead 0xFFFF 31 31 0) ∧ expKey 31 31 ∉ exParams.expVolatile :=
  ⟨rfl, validB, rfl, rfl, rfl, by decide⟩

theorem witness_TaintedCompletionTouchesOnlyItsCommands :
    (stB [(4, 0xBEEF1943)]).ctl = some ctlB ∧ ctlB.Valid exParams ∧
      decodeCommand ctlB.lay.cmd ((stB [(4, 0xBEEF1943)]).peek ctlB.lay.miimCmd) =
        .ok (.miimCmdWrite 0xBEEF 3 5 0) ∧
      ({ stB [(4, 0xBEEF1943)] with miimStale := some { tgt := 9, reg := 0, wr := true } }).miimStale ≠ none ∧
      (inTx (stB [(4, 0xBEEF1943)]) { txRead .poll 0 with tainted := true }).holderTainted = true ∧
      (0 : Word) = 0 := ⟨rfl, validB, rfl, by decide, by decide, rfl⟩

theorem witness_TaintedCompletionTouchesOnlyItsCommands_reserved :
    (stB [(4, 0xFFFFFFFD)]).ctl = some ctlB ∧ ctlB.Valid exParams ∧
      decodeCommand ctlB.lay.cmd ((stB [(4, 0xFFFFFFFD)]).peek ctlB.lay.miimCmd) =
        .ok (.miimCmdRead 0xFFFF 31 31 0x3C) ∧ (0x3C : Word) ≠ 0 := ⟨rfl, validB, rfl, by decide⟩

/-- EX-B, where caller 0 is to issue `r` and the engine moves right after the command is issued. -/
def prompt (regs : Store Word) (r : Request) : State :=
  { queued (stB regs) r with
    sched := [.caller 0, .caller 0, .caller 0, .caller 0, .engine, .caller 0] }

theorem witness_UndisturbedReadReturnsTheExpanderRegister :
    let s := prompt [(4, 0xBEEF1942)] { opsel := 0x12, tgt := 5, sub := 0xFF }
    s.sched = .caller 0 :: .caller 0 :: .caller 0 :: .caller 0 :: .engine :: .caller 0 :: [] ∧
      0 < s.callers.length ∧ s.nextRequest 0 = some { opsel := 0x12, tgt := 5, sub := 0xFF } ∧
      decodeRequest { opsel := 0x12, tgt := 5, sub := 0xFF } = .ok (.miimRead 5 0xFF) ∧
      (s.caller 0).flight = .idle ∧ s.ctl = some ctlB ∧ ctlB.Valid s.params ∧ s.miimOwner = none ∧
      (5 : Byte).toNat < 32 ∧ (0xFF : Byte) = 0xFF ∧ cmdBit ctlB.lay.cmd (s.peek ctlB.lay.miimCmd) = false ∧
      reservedBits ctlB.lay.cmd (s.peek ctlB.lay.miimCmd) = 0 ∧ expKey 5 3 ∉ s.params.expVolatile :=
  ⟨rfl, by decide, rfl, rfl, rfl, rfl, validB, rfl, by decide, rfl, by decide, by decide, by decide⟩

theorem witness_UndisturbedWriteStoresInTheExpanderRegister :
    let s := prompt [(4, 0xBEEF1940)] { opsel := 0x13, tgt := 31, sub := 31, data := 0xFFFF }
    s.sched = .caller 0 :: .caller 0 :: .caller 0 :: .caller 0 :: .engine :: .caller 0 :: [] ∧
      0 < s.callers.length ∧ s.nextRequest 0 = some { opsel := 0x13, tgt := 31, sub := 31, data := 0xFFFF } ∧
      decodeRequest { opsel := 0x13, tgt := 31, sub := 31, data := 0xFFFF } = .ok (.miimWrite 31 31 0xFFFF) ∧
      (s.caller 0).flight = .idle ∧ s.ctl = some ctlB ∧ ctlB.Valid s.params ∧ s.miimOwner = none ∧
      (31 : Byte).toNat < 32 ∧ cmdBit ctlB.lay.cmd (s.peek ctlB.lay.miimCmd) = false ∧
      reservedBits ctlB.lay.cmd (s.peek ctlB.lay.miimCmd) = 0 :=
  ⟨rfl, by decide, rfl, rfl, rfl, rfl, validB, rfl, by decide, by decide, by decide⟩

theorem witness_PlActivateSetsTheActiveBit :
    ((stA []).Idle ctlA ∧ ctlA.lay.plActive = none) ∧
      (stB []).Idle ctlB ∧ ctlB.lay.plActive = some { off := 0, bit := 8 } ∧ (stB []).globalOwner = none :=
  ⟨⟨(readyA [] .global).1, rfl⟩, (readyB [] .global).1, rfl, rfl⟩

theorem witness_SetPsetWritesTheNamedSelectors :
    (stB []).Ready ctlB .portled ∧ ctlB.lay.hasPsetSel = true ∧ (3 : Byte).toNat ≤ ctlB.psetMax ∧
      mediaOf 1 = some .fibre ∧ mediaOf 0 = some .copper ∧ 27 < ctlB.portCount ∧ 1 < ctlB.nSel :=
  ⟨readyB [] .portled, rfl, by decide, by decide, by decide, by decide, by decide⟩

theorem witness_GetPsetReturnsTheMembers :
    (stB []).Ready ctlB .portled ∧ ctlB.lay.hasPsetSel = true ∧ (0 : Byte).toNat ≤ ctlB.psetMax ∧
      mediaOf 1 = some .fibre := ⟨readyB [] .portled, rfl, by decide, by decide⟩

theorem witness_MembershipErrorsComeInOrder :
    ((stA []).Ready ctlA .portled ∧ ctlA.lay.hasPsetSel = false) ∧ (stB []).Ready ctlB .portled ∧
      ctlB.lay.hasPsetSel = true ∧ ctlB.psetMax < (4 : Byte).toNat ∧ (3 : Byte).toNat ≤ ctlB.psetMax ∧
      2 ≤ (2 : Byte).toNat :=
  ⟨⟨readyA [] .portled, rfl⟩, readyB [] .portled, rfl, by decide, by decide, by decide⟩

theorem witness_SetLedModeWritesItsFields :
    ((stB []).Ready ctlB .portled ∧ (3 : Byte).toNat ≤ ctlB.psetMax ∧ (2 : Byte).toNat < ctlB.ledCount ∧
        (31 : Byte).toNat ≤ ctlB.lay.modeMax ∧ ctlB.family ≠ .A) ∧
      (stA []).Ready ctlA .portled ∧ (0 : Byte).toNat ≤ ctlA.psetMax ∧ (1 : Byte).toNat < ctlA.ledCount ∧
        (15 : Byte).toNat ≤ ctlA.lay.modeMax ∧ (15 : Byte).toNat ≠ exParams.mode10G :=
  ⟨⟨readyB [] .portled, by decide⟩, readyA [] .portled, by decide⟩

theorem witness_SetLedModeErrorsComeInOrder :
    ((stA []).Ready ctlA .portled ∧ ctlA.family = .A ∧ (7 : Byte).toNat = exParams.mode10G) ∧
      (stB []).Ready ctlB .portled ∧ ctlB.family ≠ .A ∧ ctlB.psetMax < (4 : Byte).toNat ∧
      (3 : Byte).toNat ≤ ctlB.psetMax ∧ ctlB.ledCount ≤ (3 : Byte).toNat ∧
      ctlB.lay.modeMax < (32 : Byte).toNat := ⟨⟨readyA [] .portled, by decide⟩, readyB [] .portled, by decide⟩

theorem witness_GetLedModeReturnsTheField : (stB []).Ready ctlB .portled ∧ (stA []).Ready ctlA .portled :=
  ⟨readyB [] .portled, readyA [] .portled⟩

theorem witness_TwoModeWritesBothSurvive :
    (stB []).Ready ctlB .portled ∧ ctlB.family ≠ .A ∧ 1 < (stB []).callers.length ∧
      ((stB []).caller 1).flight = .idle ∧ (3 : Byte).toNat ≤ ctlB.psetMax ∧ (2 : Byte).toNat < ctlB.ledCount ∧
      (31 : Byte).toNat ≤ ctlB.lay.modeMax ∧ ((2 : Byte), (2 : Byte)) ≠ (3, 2) ∧
      ∃ t u, exec (.plSetMode 2 2 31) (stB []) = .next t ∧ exec (.plSetMode 3 2 17) { t with cur := 1 } = .next u :=
  ⟨readyB [] .portled, by decide, by decide, rfl, by decide, by decide, by decide, by decide, _, _, rfl, rfl⟩

/-- Family A, LED indices 0 and 1, neither mode the 10-gigabit code. -/
theorem witness_TwoModeWritesBothSurvive_familyA :
    (stA []).Ready ctlA .portled ∧ 1 < (stA []).callers.length ∧ ((stA []).caller 1).flight = .idle ∧
      (0 : Byte).toNat ≤ ctlA.psetMax ∧ (1 : Byte).toNat < ctlA.ledCount ∧ (15 : Byte).toNat ≤ ctlA.lay.modeMax ∧
      (15 : Byte).toNat ≠ (stA []).params.mode10G ∧ (8 : Byte).toNat ≠ (stA []).params.mode10G ∧
      (0 : Byte) ≠ 1 ∧ ((0 : Byte), (0 : Byte)) ≠ (0, 1) ∧
      ∃ t u, exec (.plSetMode 0 0 15) (stA []) = .next t ∧ exec (.plSetMode 0 1 8) { t with cur := 1 } = .next u :=
  ⟨readyA [] .portled, by decide, rfl, by decide, by decide, by decide, by decide, by decide, by decide, by decide,
    _, _, rfl, rfl⟩

theorem witness_TwoMembershipWritesBothSurvive :
    (stB []).Ready ctlB .portled ∧ 1 < (stB []).callers.length ∧ ((stB []).caller 1).flight = .idle ∧
      ctlB.lay.hasPsetSel = true ∧ (3 : Byte).toNat ≤ ctlB.psetMax ∧ (0 : Byte).toNat ≤ ctlB.psetMax ∧
      mediaOf 1 = some .fibre ∧ 27 < ctlB.portCount ∧
      ∃ t u, exec (.plSetPset 3 0x8000000 1) (stB []) = .next t ∧
        exec (.plSetPset 0 0x30 1) { t with cur := 1 } = .next u :=
  ⟨readyB [] .portled, by decide, rfl, rfl, by decide, by decide, by decide, by decide, _, _, rfl, rfl⟩

theorem witness_SetUserModeWritesAndCommits :
    ((stB []).Ready ctlB .portled ∧ (27 : Byte).toNat < ctlB.portCount ∧ (2 : Byte).toNat < ctlB.ledCount ∧
        swRaw ctlB.lay 7 = some 6) ∧
      (stA []).Ready ctlA .portled ∧ (51 : Byte).toNat < ctlA.portCount ∧ (1 : Byte).toNat < ctlA.ledCount ∧
        swRaw ctlA.lay 6 = some 6 := ⟨⟨readyB [] .portled, by decide⟩, readyA [] .portled, by decide⟩

theorem witness_RegisterUserLedWritesTheEnableBit :
    (stB []).Ready ctlB .portled ∧ (27 : Byte).toNat < ctlB.portCount ∧ (2 : Byte).toNat < ctlB.ledCount :=
  ⟨readyB [] .portled, by decide⟩

theorem witness_UserLedErrorsChangeNothing :
    (stB []).Ready ctlB .portled ∧ ctlB.portCount ≤ (28 : Byte).toNat ∧ ctlB.ledCount ≤ (3 : Byte).toNat ∧
      7 < (8 : Byte).toNat ∧ ctlB.lay.swMap.getD (6 : Byte).toNat none = none := ⟨readyB [] .portled, by decide⟩

theorem witness_InitAllClearsEveryLed :
    (stB []).Ready ctlB .portled ∧ 27 < ctlB.portCount ∧ 2 < ctlB.ledCount := ⟨readyB [] .portled, by decide⟩

theorem witness_ConstructMakesTheController :
    State.reset.cur < State.reset.callers.length ∧ State.reset.me.flight = .idle ∧ State.reset.ctl = none ∧
      compatLookup exParams exCompatB = some (.family .B) ∧
      (newCtl exParams .B 28 3 0xFFFFFFFFFFFFFFF0).ok exParams = true := by decide

/-- The counts at both ends of R7's range are legal. -/
theorem witness_ConstructMakesTheController_bounds :
    (newCtl exParams .A 52 0 0).ok exParams = true ∧ (newCtl exParams .B 3 3 0).ok exParams = true := by decide

theorem witness_ConstructRefusesAndReportsInOrder :
    ((stB []).cur < (stB []).callers.length ∧ (stB []).me.flight = .idle ∧ (stB []).ctl ≠ none) ∧
      State.reset.cur < State.reset.callers.length ∧ State.reset.me.flight = .idle ∧ State.reset.ctl = none ∧
      compatLookup exParams [97] = none ∧ compatLookup exParams exCompatC = some .placeholder ∧
      compatLookup exParams exCompatA = some (.family .A) ∧
      (2 : Byte).toNat < 3 ∧ 52 < (53 : Byte).toNat ∧ 3 < (4 : Byte).toNat := by decide

/-- MODE_MAX[B] = 40 breaks R7 for Family A too, and so does a SW_MAP[A] that uses a code twice. -/
theorem witness_ConstructRefusesAndReportsInOrder_otherFamily :
    (newCtl { exParams with layoutB := { exLayoutB with modeMax := 40 } } .A 52 2 0).ok
        { exParams with layoutB := { exLayoutB with modeMax := 40 } } = false ∧
      (newCtl { exParams with layoutA := { exLayoutA with swMap := [some 0, some 1, some 1] } } .B 28 3 0).ok
        { exParams with layoutA := { exLayoutA with swMap := [some 0, some 1, some 1] } } = false := by decide

theorem witness_ConstructRefusesAndReportsInOrder_R7 :
    ¬SatisfiesR7 { exParams with psetMaxA := 3 } (newCtl { exParams with psetMaxA := 3 } .B 28 3 0) :=
  fun h => absurd h.2.2.2.1 (by decide)

theorem witness_BindRegistersThePair :
    (stB []).Ready ctlB .portled ∧ (27 : Byte).toNat < ctlB.portCount ∧ (2 : Byte).toNat < ctlB.ledCount ∧
      ctlB.validMask.getLsbD (27 : Byte).toNat = true ∧ (stB []).binding 27 2 = .none :=
  ⟨readyB [] .portled, by decide⟩

/-- EX-B where (27, 2) is bound to software and (4, 0) to the ASIC. -/
def boundB : State := { stB [] with bind := [(256 * 4, .asic), (256 * 27 + 2, .user)] }

theorem witness_UnbindReleasesThePair :
    boundB.Ready ctlB .portled ∧ (27 : Byte).toNat < ctlB.portCount ∧ (2 : Byte).toNat < ctlB.ledCount ∧
      ctlB.validMask.getLsbD (27 : Byte).toNat = true ∧ boundB.binding 27 2 ≠ .none ∧
      boundB.binding 4 0 ≠ .user ∧ boundB.binding 4 0 ≠ .none :=
  ⟨⟨⟨by decide, rfl, rfl, validB⟩, rfl⟩, by decide⟩

theorem witness_RegistryWarningsChangeNothing :
    boundB.Ready ctlB .portled ∧ (27 : Byte).toNat < ctlB.portCount ∧ (2 : Byte).toNat < ctlB.ledCount ∧
      ctlB.validMask.getLsbD (27 : Byte).toNat = true ∧ boundB.binding 27 2 ≠ .none ∧ boundB.binding 27 1 = .none :=
  ⟨⟨⟨by decide, rfl, rfl, validB⟩, rfl⟩, by decide⟩

theorem witness_RegistryErrorsChangeNothing :
    (stB []).Ready ctlB .portled ∧ ctlB.portCount ≤ (28 : Byte).toNat ∧ ctlB.ledCount ≤ (3 : Byte).toNat ∧
      ctlB.validMask.getLsbD (3 : Byte).toNat = false := ⟨readyB [] .portled, by decide⟩

theorem witness_BindThenUnbindRestoresTheEnableBit :
    (stB []).Ready ctlB .portled ∧ (27 : Byte).toNat < ctlB.portCount ∧ (2 : Byte).toNat < ctlB.ledCount ∧
      ctlB.validMask.getLsbD (27 : Byte).toNat = true ∧ (stB []).binding 27 2 = .none ∧
      ∃ t u, exec (.regBind 27 2 true) (stB []) = .next t ∧ exec (.regUnbind 27 2) t = .next u :=
  ⟨readyB [] .portled, by decide, by decide, by decide, by decide, _, _, rfl, rfl⟩

theorem witness_RegistryOperationsKeepUserBindingsEnabled :
    (stB []).Ready ctlB .portled ∧ (stB []).RegistryConsistent ctlB ∧ (stB []).EnabledOnlyUser ctlB ∧
      (∀ port led : Byte, (stB []).binding port led = .none) ∧ (∃ t, exec .plInitAll (stB []) = .next t) ∧
      ∃ t, exec (.regBind 27 2 true) (stB []) = .next t := by
  refine ⟨readyB [] .portled, fun _ _ _ h => (nomatch h), fun port led _ h => ?_, fun _ _ => rfl, ⟨_, rfl⟩, _, rfl⟩
  have e : (stB []).enabled ctlB port.toNat led.toNat = false := by
    unfold State.enabled
    rw [fld_one_eq]; exact BitVec.getLsbD_zero
  rw [e] at h; cases h

/-- EX-B where caller 0 executes a request for set 4. -/
def badSet : State := { stB [] with callers := [{ Caller.initial with req := some { opsel := 0x04, pset := 4 } }] }

theorem witness_RejectedCallChangesNothing :
    badSet.me.req ≠ none ∧
      (ran (.plSetMode 4 0 1) badSet).map (fun t => (t.me.req, t.me.rsp.status, t.refused)) =
        some (none, .rangeError, badSet.refused) := by decide

end Sys2Proof.Tests
end

namespace Sys2Proof.Machine

/-! SUPPORT. The bits of a field put in its place, and the five fields of the word that the issuing
RMW stores (R88, R114), for every legal layout. -/

section PlacedFields

theorem getLsbD_mask_inside {l w b : Nat} (h32 : b < 32) (hl : l ≤ b) (hw : b < l + w) :
    (mask l w).getLsbD b = true :=
  (getLsbD_mask_iff l w b).mpr ⟨h32, hl, hw⟩

theorem getLsbD_mask_outside {l w b : Nat} (h : b < l ∨ l + w ≤ b) : (mask l w).getLsbD b = false := by
  rw [Bool.eq_false_iff, ne_eq, getLsbD_mask_iff]; omega

/-- A field put at `l` has its bits there. -/
theorem getLsbD_placed {n : Nat} (x : BitVec n) {l i : Nat} (h32 : l + i < 32) :
    (x.setWidth 32 <<< l).getLsbD (l + i) = x.getLsbD i := by
  simp [h32]

/-- A field put at `l` has no bit outside its place. -/
theorem getLsbD_placed_outside {n : Nat} (x : BitVec n) {l b : Nat} (h : b < l ∨ l + n ≤ b) :
    (x.setWidth 32 <<< l).getLsbD b = false := by
  rw [BitVec.getLsbD_shiftLeft, BitVec.getLsbD_setWidth]
  obtain h | h := h
  · simp [h]
  · simp [BitVec.getLsbD_of_ge x (b - l) (by omega)]

/-- A bit of a word that stands only under a condition. -/
theorem getLsbD_ite_zero (p : Bool) (w : Word) (b : Nat) :
    (if p then w else 0).getLsbD b = (p && w.getLsbD b) := by
  cases p <;> simp

/-- The composed value is its five fields in their places, CMD = 1 (R88). -/
theorem composeValue_eq_placed (L : CmdLayout) (tgt : BusAddr) (sub : Option BusAddr) (wr : Bool)
    (dat : Half) :
    composeValue L tgt sub wr dat =
      ((1 : BitVec 1).setWidth 32 <<< L.cmdLsb) ||| ((BitVec.ofBool wr).setWidth 32 <<< L.rwopLsb) |||
        (tgt.setWidth 32 <<< L.phyLsb) ||| ((sub.getD 0).setWidth 32 <<< L.regLsb) |||
        (if wr then dat.setWidth 32 <<< L.dataLsb else 0) := by
  cases wr <;> rfl

end PlacedFields

section IssuedWord

variable {L : CmdLayout} (hL : cmdLayoutOk L = true) (old cur : Word) (tgt : BusAddr)
  (sub : Option BusAddr) (wr : Bool) (dat : Half)
include hL

/-! ### Which fields the composed mask engages -/

theorem composeMask_engages_cmd : (composeMask L cur tgt sub wr).getLsbD L.cmdLsb = true := by
  obtain ⟨⟨hcmd, -⟩, -⟩ := cmdLayoutOk_fields hL
  have h : (mask L.cmdLsb 1).getLsbD L.cmdLsb = true :=
    getLsbD_mask_inside hcmd (Nat.le_refl _) (Nat.lt_succ_self _)
  simp only [composeMask, BitVec.getLsbD_or, h, Bool.true_or]

theorem composeMask_engages_rwop : (composeMask L cur tgt sub wr).getLsbD L.rwopLsb = true := by
  obtain ⟨⟨-, hrwop, -⟩, -⟩ := cmdLayoutOk_fields hL
  have h : (mask L.rwopLsb 1).getLsbD L.rwopLsb = true :=
    getLsbD_mask_inside hrwop (Nat.le_refl _) (Nat.lt_succ_self _)
  simp only [composeMask, BitVec.getLsbD_or, h, Bool.true_or, Bool.or_true]

theorem composeMask_engages_phy {i : Nat} (hi : i < 5) :
    (composeMask L cur tgt sub wr).getLsbD (L.phyLsb + i) = true := by
  obtain ⟨⟨-, -, hphy, -⟩, -⟩ := cmdLayoutOk_fields hL
  have h : (mask L.phyLsb 5).getLsbD (L.phyLsb + i) = true :=
    getLsbD_mask_inside (by omega) (by omega) (by omega)
  simp only [composeMask, BitVec.getLsbD_or, h, Bool.true_or, Bool.or_true]

/-- REG is engaged where a sub-register is given or the target changes (R88). -/
theorem composeMask_reg {i : Nat} (hi : i < 5) :
    (composeMask L cur tgt sub wr).getLsbD (L.regLsb + i) = (sub.isSome || phyField L cur != tgt) := by
  have hf := cmdLayoutOk_fields hL
  rw [composeMask]
  simp (disch := omega) only [BitVec.getLsbD_or, getLsbD_ite_zero, getLsbD_mask_inside,
    getLsbD_mask_outside, Bool.and_true, Bool.and_false, Bool.or_false, Bool.false_or]

/-- DATA is engaged by a write alone (R88). -/
theorem composeMask_data {i : Nat} (hi : i < 16) :
    (composeMask L cur tgt sub wr).getLsbD (L.dataLsb + i) = wr := by
  have hf := cmdLayoutOk_fields hL
  rw [composeMask]
  simp (disch := omega) only [BitVec.getLsbD_or, getLsbD_ite_zero, getLsbD_mask_inside,
    getLsbD_mask_outside, Bool.and_true, Bool.and_false, Bool.or_false, Bool.false_or]

/-! ### What the composed value holds in each field -/

theorem composeValue_cmd : (composeValue L tgt sub wr dat).getLsbD L.cmdLsb = true := by
  have hf := cmdLayoutOk_fields hL
  have h := getLsbD_placed (1 : BitVec 1) (show L.cmdLsb + 0 < 32 by omega)
  rw [Nat.add_zero] at h
  simp only [composeValue_eq_placed, BitVec.getLsbD_or, h]
  rfl

theorem composeValue_rwop : (composeValue L tgt sub wr dat).getLsbD L.rwopLsb = wr := by
  have hf := cmdLayoutOk_fields hL
  have h := getLsbD_placed (BitVec.ofBool wr) (show L.rwopLsb + 0 < 32 by omega)
  rw [Nat.add_zero] at h
  rw [composeValue_eq_placed]
  simp (disch := omega) only [BitVec.getLsbD_or, getLsbD_ite_zero, getLsbD_placed_outside, h,
    Bool.and_false, Bool.or_false, Bool.false_or]
  cases wr <;> rfl

theorem composeValue_phy {i : Nat} (hi : i < 5) :
    (composeValue L tgt sub wr dat).getLsbD (L.phyLsb + i) = tgt.getLsbD i := by
  have hf := cmdLayoutOk_fields hL
  rw [composeValue_eq_placed]
  simp (disch := omega) only [BitVec.getLsbD_or, getLsbD_ite_zero, getLsbD_placed,
    getLsbD_placed_outside, Bool.and_false, Bool.or_false, Bool.false_or]

theorem composeValue_reg {i : Nat} (hi : i < 5) :
    (composeValue L tgt sub wr dat).getLsbD (L.regLsb + i) = (sub.getD 0).getLsbD i := by
  have hf := cmdLayoutOk_fields hL
  rw [composeValue_eq_placed]
  simp (disch := omega) only [BitVec.getLsbD_or, getLsbD_ite_zero, getLsbD_placed,
    getLsbD_placed_outside, Bool.and_false, Bool.or_false, Bool.false_or]

theorem composeValue_data {i : Nat} (hi : i < 16) :
    (composeValue L tgt sub wr dat).getLsbD (L.dataLsb + i) = (wr && dat.getLsbD i) := by
  have hf := cmdLayoutOk_fields hL
  rw [composeValue_eq_placed]
  simp (disch := omega) only [BitVec.getLsbD_or, getLsbD_ite_zero, getLsbD_placed,
    getLsbD_placed_outside, Bool.or_false, Bool.false_or]

/-! ### The fields of the issued word -/

theorem cmdBit_issued :
    cmdBit L (mergeBits old (composeMask L cur tgt sub wr) (composeValue L tgt sub wr dat)) = true := by
  rw [cmdBit_eq, getLsbD_mergeBits, if_pos (composeMask_engages_cmd hL ..), composeValue_cmd hL]

theorem rwopBit_issued :
    rwopBit L (mergeBits old (composeMask L cur tgt sub wr) (composeValue L tgt sub wr dat)) = wr := by
  rw [rwopBit_eq, getLsbD_mergeBits, if_pos (composeMask_engages_rwop hL ..), composeValue_rwop hL]

theorem phyField_issued :
    phyField L (mergeBits old (composeMask L cur tgt sub wr) (composeValue L tgt sub wr dat)) = tgt := by
  apply BitVec.eq_of_getLsbD_eq
  intro i hi
  rw [getLsbD_phyField, getLsbD_mergeBits, if_pos (composeMask_engages_phy hL _ _ _ _ hi),
    composeValue_phy hL _ _ _ _ hi, decide_eq_true hi, Bool.true_and]

/-- REG is the sub-register given; without one, the sub-register that was there if the target is the
one `cur` names, and 0 if it is another (R88). -/
theorem regField_issued :
    regField L (mergeBits old (composeMask L cur tgt sub wr) (composeValue L tgt sub wr dat)) =
      sub.getD (if phyField L cur = tgt then regField L old else 0) := by
  apply BitVec.eq_of_getLsbD_eq
  intro i hi
  rw [getLsbD_regField, getLsbD_mergeBits, composeMask_reg hL _ _ _ _ hi, composeValue_reg hL _ _ _ _ hi,
    decide_eq_true hi, Bool.true_and]
  cases sub with
  | some r => rfl
  | none =>
    by_cases ht : phyField L cur = tgt
    · simp [ht, hi, -BitVec.getLsbD_eq_getElem]
    · simp [ht]

theorem dataField_issued (hw : wr = true) :
    dataField L (mergeBits old (composeMask L cur tgt sub wr) (composeValue L tgt sub wr dat)) = dat := by
  apply BitVec.eq_of_getLsbD_eq
  intro i hi
  rw [getLsbD_dataField, getLsbD_mergeBits, if_pos ((composeMask_data hL _ _ _ _ hi).trans hw),
    composeValue_data hL _ _ _ _ hi, decide_eq_true hi, hw, Bool.true_and, Bool.true_and]

end IssuedWord

/-! SUPPORT. What the operation of a caller inside a transaction does: the step of its phase (R40). -/

section TransactionStep

variable {s : State} {c : Ctl} {x : Tx} {i : Instr}

theorem miimPhaseStep_latch (h : x.phase = .latch) : miimPhaseStep c x s = miimLatch c x s := by
  simp only [miimPhaseStep, h]

theorem miimPhaseStep_issueRd (h : x.phase = .issueRd) : miimPhaseStep c x s = miimIssueRead c x s := by
  simp only [miimPhaseStep, h]

theorem miimPhaseStep_issueWr (h : x.phase = .issueWr) : miimPhaseStep c x s = miimIssueWrite c x s := by
  simp only [miimPhaseStep, h]

theorem miimPhaseStep_poll (h : x.phase = .poll) : miimPhaseStep c x s = miimPoll c x s := by
  simp only [miimPhaseStep, h]

theorem miimContinue_eq (hc : s.ctl = some c) : miimContinue x.wr x s = miimPhaseStep c x s := by
  simp only [miimContinue, hc, if_pos]

/-- The operation a transaction belongs to takes the step of the transaction's phase (R120, R121). -/
theorem State.Inside.exec_eq (h : s.Inside c x) (hi : IsTransaction x.wr i) :
    exec i s = .next (miimPhaseStep c x s) := by
  obtain ⟨-, hf, hc, -⟩ := h
  cases i with
  | miimRead tgt sub =>
    have hw : x.wr = false := hi
    rw [← miimContinue_eq hc, hw]
    simp only [exec, execMiimRead, hf]
  | miimWrite tgt sub data =>
    have hw : x.wr = true := hi
    rw [← miimContinue_eq hc, hw]
    simp only [exec, execMiimWrite, hf]
  | _ => exact hi.elim

/-- A step that goes on leaves the new flight with its caller and no other caller changed (R40). -/
theorem State.continueAs_onlyMe {t : State} (fl : Flight) (hlt : s.cur < s.callers.length)
    (hcur : t.cur = s.cur) (hcal : t.callers = s.callers) :
    OnlyMe s (t.continueAs fl) { s.me with flight := fl } :=
  have h : (t.continueAs fl).callers = s.callers.modify s.cur fun k => { k with flight := fl } := by
    rw [State.continueAs_callers, hcur, hcal]
  onlyMe_of_callers hlt ((State.continueAs_cur t fl).trans hcur) h

/-- The LATCH step forgets a stale command where none is pending, and goes on with what it composed. -/
theorem miimLatch_eq (c : Ctl) (x : Tx) (s : State) :
    miimLatch c x s =
      let w := s.peek c.lay.miimCmd
      State.continueAs { s with miimStale := if cmdBit c.lay.cmd w then s.miimStale else none }
        (.miim { x with
          phase := .issueRd, cur := w, tainted := cmdBit c.lay.cmd w
          m := composeMask c.lay.cmd w x.tgt x.sub x.wr
          v := composeValue c.lay.cmd x.tgt x.sub x.wr x.dat }) := by
  simp only [miimLatch]
  cases cmdBit c.lay.cmd (s.peek c.lay.miimCmd) <;> rfl

/-- The write of the issuing RMW stores the merged word in MIIM_CMD, without a commit (R114). -/
theorem Ctl.Valid.miimIssueWrite_eq (h : c.Valid s.params) (x : Tx) :
    miimIssueWrite c x s =
      (s.poke c.lay.miimCmd (mergeBits x.old x.m x.v)).continueAs
        (.miim { x with phase := .poll, k := 0 }) := by
  rw [miimIssueWrite, State.writeReg_plain s c _ (Ctl.isReg_of_domain h.domainOf_miimCmd) h.notLoad_miimCmd]

/-- The poll that reaches POLL_MAX with the strobe set is the timeout (R116). -/
theorem miimPoll_last (hcmd : cmdBit c.lay.cmd (s.peek c.lay.miimCmd) = true)
    (hk : x.k + 1 = s.params.pollMax) : miimPoll c x s = miimTimeout c (s.peek c.lay.miimCmd) s := by
  simp only [miimPoll, hcmd, hk, if_true]

end TransactionStep

/-! PROOFS. The phases of a transaction. -/

/-- Settles O29: the step is `miimLatch`, whose one update outside its caller is that of miimStale. -/
theorem latchStepComposesTheCommand : Obligations.LatchStepComposesTheCommand := by
  intro s c x i hin hi hphase
  refine ⟨miimLatch c x s, ?_, ?_, ?_⟩
  · rw [hin.exec_eq hi, miimPhaseStep_latch hphase]
  · rw [miimLatch_eq]; rfl
  · rw [miimLatch_eq]
    exact State.continueAs_onlyMe _ hin.1 rfl rfl

/-- Settles O30: ISSUE_RD is a read, ISSUE_WR one write of MIIM_CMD, and the fields of the word written
are those of the issued word. -/
theorem issueStepsReadThenWriteTheCommand : Obligations.IssueStepsReadThenWriteTheCommand := by
  intro s c x i hin hi
  refine ⟨fun hphase => ⟨miimIssueRead c x s, ?_, rfl, State.continueAs_onlyMe _ hin.1 rfl rfl⟩,
    fun hphase => ⟨miimIssueWrite c x s, ?_, ?_⟩⟩
  · rw [hin.exec_eq hi, miimPhaseStep_issueRd hphase]
  · rw [hin.exec_eq hi, miimPhaseStep_issueWr hphase]
  · obtain ⟨hlt, -, -, hvalid⟩ := hin
    have hpeek : (miimIssueWrite c x s).peek c.lay.miimCmd = mergeBits x.old x.m x.v :=
      State.writeReg_peek_same s c _ (Ctl.isReg_of_domain hvalid.domainOf_miimCmd)
    refine ⟨by rw [hvalid.miimIssueWrite_eq]; rfl, hpeek, fun o ho => State.writeReg_peek_other s c _ ho,
      State.continueAs_onlyMe _ hlt (by simp) (by simp), fun cur hm hv => ?_⟩
    have hL := hvalid.cmd
    rw [hpeek, hm, hv]
    exact ⟨cmdBit_issued hL .., rwopBit_issued hL .., phyField_issued hL .., regField_issued hL ..,
      dataField_issued hL _ _ _ _ _ _⟩

/-- Settles O32: the step is `miimTimeout`, which releases the lock, notes the stale command and
responds, and writes no register. -/
theorem lastPollTimesOut : Obligations.LastPollTimesOut := by
  intro s c x i hin hi hphase w hcmd hk
  refine ⟨miimTimeout c w s, ?_, returned_of_callers hin.1 rfl rfl, rfl⟩
  rw [hin.exec_eq hi, miimPhaseStep_poll hphase, miimPoll_last hcmd hk]

end Sys2Proof.Machine

namespace Sys2Proof.Machine

/-! SUPPORT. What construction leaves behind: every caller idle, and a controller of the family with
the valid ports cut to those that exist (R46, R180, R181). -/

section Construction

/-- Construction makes every caller idle and keeps the rest of its record (R46); a caller that is no
agent reads as the initial one, which is idle. -/
theorem State.construct_caller (s : State) (c : Ctl) (k : Nat) :
    (s.construct c).caller k = { s.caller k with flight := .idle } :=
  List.getD_map s.callers Caller.initial fun k => ({ k with flight := .idle } : Caller)

/-- With an idle caller and no controller, where the string names `f` and the configuration passes,
the controller is made and the caller told so (R180). -/
theorem execCtlConstruct_accepted {s : State} {compat : List Byte} {nports nleds : Byte} {vmask : PortMask}
    {f : Family} (hidle : s.me.flight = .idle) (hctl : s.ctl = none)
    (hf : compatLookup s.params compat = some (.family f))
    (hok : (newCtl s.params f nports nleds vmask).ok s.params = true) :
    execCtlConstruct compat nports nleds vmask s =
      .next ((s.construct (newCtl s.params f nports nleds vmask)).respond (.ok 0)) := by
  simp only [execCtlConstruct, hidle, hctl, hf, hok, Option.isSome_none, Bool.false_eq_true, if_true, if_false]

variable {P : Params} {f : Family} {nports nleds : Byte} {vmask : PortMask}

/-- Construction cuts the valid ports to those below PORT_COUNT (R181), so the model's check is all that
a valid controller still asks. -/
theorem newCtl_valid (hok : (newCtl P f nports nleds vmask).ok P = true) :
    (newCtl P f nports nleds vmask).Valid P := by
  refine ⟨hok, rfl, rfl, ?_⟩
  change vmask &&& portsBelow nports.toNat &&& ~~~portsBelow nports.toNat = 0
  rw [BitVec.and_assoc, BitVec.and_not_self]
  exact BitVec.and_zero

/-- VALID_PORT_MASK is the given mask without the bits at or above PORT_COUNT (R181). -/
theorem newCtl_getLsbD_validMask (hports : nports.toNat < 64) (p : Nat) :
    (newCtl P f nports nleds vmask).validMask.getLsbD p = (vmask.getLsbD p && decide (p < nports.toNat)) := by
  rw [newCtl, BitVec.getLsbD_and, getLsbD_portsBelow _ _ hports]

/-- PSET_MAX is 3 on Family B and a parameter on Family A (R180, C6). -/
theorem familyPsetMax_eq_ite (P : Params) (f : Family) :
    familyPsetMax P f = if f = .B then 3 else P.psetMaxA := by
  cases f <;> rfl

end Construction

/-! PROOFS. Construction (R180, R181). -/

/-- Settles O51: the step is `construct` and then `respond`, and the controller is `newCtl`. -/
theorem constructMakesTheController : Obligations.ConstructMakesTheController := by
  intro s compat nports nleds vmask f hlt hidle hctl hf hok
  let c := newCtl s.params f nports nleds vmask
  have hvalid : c.Valid s.params := newCtl_valid hok
  have hports : nports.toNat < 64 := Nat.lt_of_le_of_lt hvalid.counts.2.1 (by decide)
  have hlt' : (s.construct c).cur < (s.construct c).callers.length := by simpa using hlt
  have hme : ((s.construct c).respond (.ok 0)).me =
      { s.me with req := none, flight := .idle, rsp := .ok 0 } := by
    rw [State.respond, State.setMe_me _ _ hlt', State.me, State.construct_caller]
    rfl
  have hothers (k : Nat) (hk : k ≠ s.cur) :
      ((s.construct c).respond (.ok 0)).caller k = { s.caller k with flight := .idle } := by
    rw [State.respond, State.setMe_caller_other (s.construct c) _ hk, State.construct_caller]
  exact ⟨(s.construct c).respond (.ok 0), c, execCtlConstruct_accepted hidle hctl hf hok,
    rfl, rfl, rfl, rfl, rfl, familyPsetMax_eq_ite _ _, newCtl_getLsbD_validMask hports, hvalid,
    fun _ _ => rfl, rfl, rfl, rfl, rfl, by simp, hme, hothers, rfl⟩

end Sys2Proof.Machine

namespace Sys2Proof.Machine

/-! SUPPORT. An operation under a lock that only responds, and the branches of REG_BIND and REG_UNBIND
that warn (R182, R183, R194). -/

section RegistryWarnings

@[simp] theorem State.acquire_binding (s : State) (d : Domain) (port led : Byte) :
    (s.acquire d).binding port led = s.binding port led := by
  rw [State.binding, State.acquire_bind]; rfl

/-- The registry's checks are the range of the port and of the LED, and the port's bit in the mask of the
valid ports (R192). -/
theorem Ctl.bindable_iff (c : Ctl) (port led : Byte) :
    c.bindable port led = true ↔
      port.toNat < c.portCount ∧ led.toNat < c.ledCount ∧ c.validMask.getLsbD port.toNat = true := by
  simp only [Ctl.bindable, Ctl.inRange, portBit, Bool.and_eq_true, decide_eq_true_eq, and_assoc]

variable {s : State} {c : Ctl} {port led : Byte}

/-- An operation that under its lock does nothing but respond leaves everything but its caller as it was. -/
theorem State.Ready.responds {d : Domain} (h : s.Ready c d) (r : Response) :
    Returned s (((s.acquire d).respond r).release d) r ∧
      ((s.acquire d).respond r).release d =
        { s with callers := (((s.acquire d).respond r).release d).callers } := by
  obtain ⟨hret, hframe⟩ := h.returns (u := s.acquire d) r rfl
  simp only [State.acquire_window, State.acquire_swLatch, State.acquire_exp, State.acquire_bind,
    State.acquire_free] at hframe
  exact ⟨hret, hframe⟩

/-- REG_BIND of a bound pair, in either mode, only responds with the warning (R182). -/
theorem execRegBind_bound (h : s.Ready c .portled) (hok : c.bindable port led = true)
    (hb : s.binding port led ≠ .none) (asUser : Bool) :
    execRegBind port led asUser s = .next (((s.acquire .portled).respond .warned).release .portled) := by
  rw [execRegBind, h.run, if_pos hok, State.acquire_binding, if_neg hb]

/-- REG_UNBIND of an unbound pair only responds with the warning (R183). -/
theorem execRegUnbind_unbound (h : s.Ready c .portled) (hok : c.bindable port led = true)
    (hb : s.binding port led = .none) :
    execRegUnbind port led s = .next (((s.acquire .portled).respond .warned).release .portled) := by
  rw [execRegUnbind, h.run, if_pos hok, State.acquire_binding, hb]

end RegistryWarnings

/-! PROOFS. The warnings of the registry (R194). -/

/-- Settles O55: both operations take the branch that only responds, and responding under a lock keeps
everything but the caller. -/
theorem registryWarningsChangeNothing : Obligations.RegistryWarningsChangeNothing := by
  intro s c port led i hready hport hled hvalid hop
  have hok : c.bindable port led = true := (c.bindable_iff port led).mpr ⟨hport, hled, hvalid⟩
  refine ⟨((s.acquire .portled).respond .warned).release .portled, ?_, hready.responds .warned⟩
  obtain ⟨hbound, asUser, rfl⟩ | ⟨hunbound, rfl⟩ := hop
  · exact execRegBind_bound hready hok hbound asUser
  · exact execRegUnbind_unbound hready hok hunbound

end Sys2Proof.Machine

namespace Sys2Proof.Machine

/-! SUPPORT. Numbers in little-endian bytes, and the request record as it stands in its bytes (R80). -/

section RequestBytes

@[simp] theorem length_leBytes (n v : Nat) : (leBytes n v).length = n := by
  induction n generalizing v with
  | zero => rfl
  | succ n ih => simp [leBytes, ih]

/-- A number behind some bytes is read at its place among the bytes that follow. -/
theorem leAt_append_right {pre l : List Byte} {k : Nat} (n : Nat) (h : pre.length ≤ k) :
    leAt (pre ++ l) k n = leAt l (k - pre.length) n := by
  induction n generalizing k with
  | zero => rfl
  | succ n ih =>
    rw [leAt, leAt, List.getD_append_right _ _ _ _ h, ih (Nat.le_succ_of_le h), Nat.succ_sub h]

/-- The bytes of a number, read where they stand, give the number as far as they reach. -/
theorem leAt_leBytes (n v : Nat) (rest : List Byte) : leAt (leBytes n v ++ rest) 0 n = v % 256 ^ n := by
  induction n generalizing v with
  | zero => simp [leAt, Nat.mod_one]
  | succ n ih =>
    have htail : leAt (leBytes (n + 1) v ++ rest) 1 n = leAt (leBytes n (v / 256) ++ rest) 0 n :=
      leAt_append_right (pre := [BitVec.ofNat 8 v]) n (Nat.le_refl 1)
    have hhead : ((leBytes (n + 1) v ++ rest).getD 0 0).toNat = v % 256 := rfl
    rw [leAt, hhead, Nat.zero_add, htail, ih, Nat.pow_succ', Nat.mod_mul]

/-- A field of whole bytes is read back from its bytes. -/
theorem ofNat_leAt_leBytes {w n : Nat} (x : BitVec w) (rest : List Byte) (hw : 256 ^ n = 2 ^ w) :
    BitVec.ofNat w (leAt (leBytes n x.toNat ++ rest) 0 n) = x := by
  rw [leAt_leBytes, hw, Nat.mod_eq_of_lt x.isLt, BitVec.ofNat_toNat, BitVec.setWidth_eq]

/-- A list read position by position is the list. -/
theorem map_getD_range (l : List Byte) : ((List.range l.length).map fun k => l.getD k 0) = l := by
  apply List.ext_getElem
  · simp
  · intro k h hl
    simp [List.getD_eq_getElem?_getD, List.getElem?_eq_getElem hl]

/-- What follows the string's length byte is the string. -/
theorem toBytes_getD_compat (r : Request) (k : Nat) : r.toBytes.getD (42 + k) 0 = r.compat.getD k 0 := by
  rw [Request.toBytes, List.getD_append_right _ _ _ _ (by simp)]
  simp

/-- The fields of more than a byte are read back from their bytes. -/
theorem toBytes_leAt (r : Request) :
    BitVec.ofNat 64 (leAt r.toBytes 6 8) = r.pmask ∧ BitVec.ofNat 16 (leAt r.toBytes 16 2) = r.data ∧
      BitVec.ofNat 32 (leAt r.toBytes 19 4) = r.off ∧ BitVec.ofNat 32 (leAt r.toBytes 23 4) = r.val ∧
      BitVec.ofNat 32 (leAt r.toBytes 27 4) = r.msk ∧ BitVec.ofNat 64 (leAt r.toBytes 33 8) = r.vmask := by
  simp only [Request.toBytes, List.append_assoc]
  refine ⟨?_, ?_, ?_, ?_, ?_, ?_⟩
  all_goals
    simp (disch := simp) only [leAt_append_right, length_leBytes, List.length_cons, List.length_nil,
      Nat.reduceAdd, Nat.reduceSub]
    exact ofNat_leAt_leBytes _ _ (by norm_num)

/-- The one-byte fields behind the first longer one stand at their places. -/
theorem toBytes_getD (r : Request) :
    r.toBytes.getD 14 0 = r.tgt ∧ r.toBytes.getD 15 0 = r.sub ∧
      r.toBytes.getD 18 0 = (if r.flag then 1 else 0) ∧ r.toBytes.getD 31 0 = r.nports ∧
      r.toBytes.getD 32 0 = r.nleds ∧ r.toBytes.getD 41 0 = BitVec.ofNat 8 r.compat.length := by
  simp only [Request.toBytes, List.append_assoc]
  refine ⟨?_, ?_, ?_, ?_, ?_, ?_⟩
  all_goals
    simp (disch := simp) only [List.getD_append_right, length_leBytes, List.length_cons, List.length_nil,
      Nat.reduceAdd, Nat.reduceSub]
    rfl

/-- The bytes of a record give the record back, if its string is short enough for the length byte. -/
theorem ofBytes_toBytes (r : Request) (h : r.compat.length ≤ maxCompat) :
    Request.ofBytes r.toBytes = r := by
  obtain ⟨hpmask, hdata, hoff, hval, hmsk, hvmask⟩ := toBytes_leAt r
  obtain ⟨htgt, hsub, hflag, hnports, hnleds, hlen⟩ := toBytes_getD r
  have hbit : (if r.flag then (1 : Byte) else 0).getLsbD 0 = r.flag := by cases r.flag <;> rfl
  have hcompat : (BitVec.ofNat 8 r.compat.length).toNat = r.compat.length :=
    Nat.mod_eq_of_lt (Nat.lt_succ_of_le h)
  simp only [Request.ofBytes, hpmask, hdata, hoff, hval, hmsk, hvmask, htgt, hsub, hflag, hbit, hnports, hnleds,
    hlen, hcompat, toBytes_getD_compat, map_getD_range]
  rfl

end RequestBytes
/-! SUPPORT. Requests and their operations: each decodes from the record that spells it, and a record
decodes by its opsel alone (R82, R83). -/

section Requests

/-- The record that spells an operation decodes to it. -/
theorem decodeRequest_encodeRequest {i : Instr} {q : Request} (h : encodeRequest i = some q) :
    decodeRequest q = .ok i := by
  cases i with
  | _ => cases h <;> rfl

/-- The record that spells an operation has a short enough string if the operation has an encoding. -/
theorem encodeRequest_compat_le {L : CmdLayout} {i : Instr} {q : Request} (hwf : i.wellFormed L = true)
    (h : encodeRequest i = some q) : q.compat.length ≤ maxCompat := by
  cases i with
  | ctlConstruct compat nports nleds vmask =>
    cases h
    exact of_decide_eq_true hwf
  | _ => cases h <;> exact Nat.zero_le _

/-- The opsels of R82's map. -/
def opsels : List Nat :=
  [0x01, 0x02, 0x03, 0x04, 0x05, 0x06, 0x07, 0x08, 0x10, 0x11, 0x12, 0x13, 0x20, 0x21, 0x30, 0xF0, 0xF1,
    0xF2]

/-- A record with an opsel of the map decodes to an operation. -/
theorem decodeRequest_of_mem {r : Request} (h : r.opsel.toNat ∈ opsels) :
    ∃ i, decodeRequest r = .ok i := by
  simp only [opsels, List.mem_cons, List.not_mem_nil, or_false] at h
  unfold decodeRequest
  rcases h with h | h | h | h | h | h | h | h | h | h | h | h | h | h | h | h | h | h <;>
    (rw [h]; exact ⟨_, rfl⟩)

/-- The operation a record decodes to has a record of its own with the same opsel. -/
theorem encodeRequest_of_decodeRequest {r : Request} {i : Instr} (h : decodeRequest r = .ok i) :
    ∃ q, encodeRequest i = some q ∧ q.opsel = r.opsel := by
  unfold decodeRequest at h
  split at h
  case h_19 => cases h
  all_goals
    rename_i hop
    cases h
    exact ⟨_, rfl, BitVec.eq_of_toNat_eq hop.symm⟩

/-- A record with any other opsel is reserved (R83). -/
theorem decodeRequest_of_not_mem {r : Request} (h : r.opsel.toNat ∉ opsels) :
    decodeRequest r = .error (.reservedOpsel r.opsel) := by
  unfold decodeRequest
  split
  case h_19 => rfl
  all_goals
    rename_i heq
    rw [heq] at h
    exact absurd (by decide) h

end Requests

/-! PROOFS. The request record and its bytes (R80, R82, R99). -/

/-- Settles O2: the bytes give back the record, and the record the operation. -/
theorem requestBytesRoundTrip : Obligations.RequestBytesRoundTrip := by
  intro L i bs hwf henc
  obtain ⟨q, hq, rfl⟩ := Option.map_eq_some_iff.mp henc
  rw [decodeBytes, ofBytes_toBytes q (encodeRequest_compat_le hwf hq), decodeRequest_encodeRequest hq]

/-- Settles O1: a record by its opsel, a command word by its CMD and RWOP bits. -/
theorem decodingIsTotalByOpselAndCommandBits : Obligations.DecodingIsTotalByOpselAndCommandBits := by
  refine ⟨fun r => ?_, fun r => ?_, fun L w => ⟨fun hcmd => ?_, fun hcmd hrw => ?_, fun hcmd hrw => ?_⟩⟩
  · split
    · obtain ⟨i, hdec⟩ := decodeRequest_of_mem (r := r) ‹_›
      obtain ⟨q, henc, hop⟩ := encodeRequest_of_decodeRequest hdec
      exact ⟨i, q, hdec, henc, hop, decodeRequest_encodeRequest henc⟩
    · exact decodeRequest_of_not_mem ‹_›
  · and_intros <;> exact fun h => by rw [decodeRequest, h]; rfl
  · rw [decodeCommand, cmdBit_eq, if_neg (by simp [hcmd])]
  · rw [decodeCommand, cmdBit_eq, if_pos hcmd, rwopBit_eq, if_neg (by simp [hrw])]
  · rw [decodeCommand, cmdBit_eq, if_pos hcmd, rwopBit_eq, if_pos hrw]

/-- Settles O5, by evaluation. -/
theorem specEncodingsDecode : Obligations.SpecEncodingsDecode := by
  unfold Obligations.SpecEncodingsDecode
  decide

end Sys2Proof.Machine

namespace Sys2Proof.Machine

/-! SUPPORT. The word of a command, bit by bit (R87, R89), for every legal layout. -/

section CommandWords

/-- The bits of the five fields together. -/
theorem getLsbD_cmdFieldsMask (L : CmdLayout) (b : Nat) :
    (cmdFieldsMask L).getLsbD b = ((mask L.cmdLsb 1).getLsbD b || (mask L.rwopLsb 1).getLsbD b ||
      (mask L.phyLsb 5).getLsbD b || (mask L.regLsb 5).getLsbD b || (mask L.dataLsb 16).getLsbD b) := by
  simp only [cmdFieldsMask, BitVec.getLsbD_or]

/-- The reserved bits of a word are its bits outside the fields (R89). -/
theorem getLsbD_reservedBits (L : CmdLayout) (w : Word) (b : Nat) :
    (reservedBits L w).getLsbD b = (w.getLsbD b && !(cmdFieldsMask L).getLsbD b) := by
  rw [reservedBits, BitVec.getLsbD_and, BitVec.getLsbD_not]
  by_cases hb : b < 32
  · rw [decide_eq_true hb, Bool.true_and]
  · rw [BitVec.getLsbD_of_ge w b (by omega), Bool.false_and, Bool.false_and]

/-- Reserved bits have none of their bits inside a field. -/
theorem reservedBits_and_fields (L : CmdLayout) (w : Word) : reservedBits L w &&& cmdFieldsMask L = 0 := by
  rw [reservedBits, BitVec.and_assoc, BitVec.and_comm (~~~_), BitVec.and_not_self]
  exact BitVec.and_zero

theorem getLsbD_of_and_eq_zero {x m : Word} {b : Nat} (h : x &&& m = 0) (hm : m.getLsbD b = true) :
    x.getLsbD b = false := by
  have hb := congrArg (fun v : Word => v.getLsbD b) h
  simpa only [BitVec.getLsbD_and, hm, Bool.and_true, BitVec.ofNat_eq_ofNat, BitVec.getLsbD_zero] using hb

/-- A command word is its five fields in their places, CMD = 1, beside the reserved bits (R87). -/
theorem commandWord_eq_placed (L : CmdLayout) (wr : Bool) (data : Half) (reg phy : BusAddr) (rsv : Word) :
    commandWord L wr data reg phy rsv =
      ((1 : BitVec 1).setWidth 32 <<< L.cmdLsb) ||| ((BitVec.ofBool wr).setWidth 32 <<< L.rwopLsb) |||
        (phy.setWidth 32 <<< L.phyLsb) ||| (reg.setWidth 32 <<< L.regLsb) |||
        (data.setWidth 32 <<< L.dataLsb) ||| rsv := by
  cases wr with
  | true => rfl
  | false =>
    have h : (BitVec.ofBool false).setWidth 32 <<< L.rwopLsb = (0 : Word) := BitVec.zero_shiftLeft _
    rw [h]
    rfl


/-- Reserved bits are 0 in every field. -/
theorem reserved_zero_in_field {L : CmdLayout} {rsv : Word} (hrsv : rsv &&& cmdFieldsMask L = 0) {b : Nat}
    (h : b < 32 ∧ (b = L.cmdLsb ∨ b = L.rwopLsb ∨ L.phyLsb ≤ b ∧ b < L.phyLsb + 5 ∨
      L.regLsb ≤ b ∧ b < L.regLsb + 5 ∨ L.dataLsb ≤ b ∧ b < L.dataLsb + 16)) : rsv.getLsbD b = false := by
  refine getLsbD_of_and_eq_zero hrsv ?_
  simp only [getLsbD_cmdFieldsMask, Bool.or_eq_true, getLsbD_mask_iff]
  omega

section Fields

variable {L : CmdLayout} (hL : cmdLayoutOk L = true) (wr : Bool) (data : Half) (reg phy : BusAddr)
  {rsv : Word}

include hL in
theorem cmdBit_commandWord : cmdBit L (commandWord L wr data reg phy rsv) = true := by
  have hf := cmdLayoutOk_fields hL
  have h := getLsbD_placed (1 : BitVec 1) (show L.cmdLsb + 0 < 32 by omega)
  rw [Nat.add_zero] at h
  simp only [cmdBit_eq, commandWord_eq_placed, BitVec.getLsbD_or, h]
  rfl

variable (hrsv : rsv &&& cmdFieldsMask L = 0)
include hL hrsv

theorem rwopBit_commandWord : rwopBit L (commandWord L wr data reg phy rsv) = wr := by
  have hf := cmdLayoutOk_fields hL
  have h := getLsbD_placed (BitVec.ofBool wr) (show L.rwopLsb + 0 < 32 by omega)
  rw [Nat.add_zero] at h
  rw [rwopBit_eq, commandWord_eq_placed]
  simp (disch := omega) only [BitVec.getLsbD_or, getLsbD_placed_outside, h, reserved_zero_in_field hrsv,
    Bool.or_false, Bool.false_or]
  cases wr <;> rfl

theorem phyField_commandWord : phyField L (commandWord L wr data reg phy rsv) = phy := by
  have hf := cmdLayoutOk_fields hL
  apply BitVec.eq_of_getLsbD_eq
  intro i hi
  rw [getLsbD_phyField, commandWord_eq_placed]
  simp (disch := omega) only [BitVec.getLsbD_or, getLsbD_placed, getLsbD_placed_outside,
    reserved_zero_in_field hrsv, hi, decide_true, Bool.or_false, Bool.false_or, Bool.true_and]

theorem regField_commandWord : regField L (commandWord L wr data reg phy rsv) = reg := by
  have hf := cmdLayoutOk_fields hL
  apply BitVec.eq_of_getLsbD_eq
  intro i hi
  rw [getLsbD_regField, commandWord_eq_placed]
  simp (disch := omega) only [BitVec.getLsbD_or, getLsbD_placed, getLsbD_placed_outside,
    reserved_zero_in_field hrsv, hi, decide_true, Bool.or_false, Bool.false_or, Bool.true_and]

theorem dataField_commandWord : dataField L (commandWord L wr data reg phy rsv) = data := by
  have hf := cmdLayoutOk_fields hL
  apply BitVec.eq_of_getLsbD_eq
  intro i hi
  rw [getLsbD_dataField, commandWord_eq_placed]
  simp (disch := omega) only [BitVec.getLsbD_or, getLsbD_placed, getLsbD_placed_outside,
    reserved_zero_in_field hrsv, hi, decide_true, Bool.or_false, Bool.false_or, Bool.true_and]

omit hL in
/-- Outside the fields a command word is its reserved bits. -/
theorem reservedBits_commandWord : reservedBits L (commandWord L wr data reg phy rsv) = rsv := by
  apply BitVec.eq_of_getLsbD_eq
  intro b hb
  rw [getLsbD_reservedBits]
  cases hm : (cmdFieldsMask L).getLsbD b with
  | true => rw [getLsbD_of_and_eq_zero hrsv hm, Bool.not_true, Bool.and_false]
  | false =>
    simp only [getLsbD_cmdFieldsMask, Bool.or_eq_false_iff] at hm
    simp only [← Bool.not_eq_true, getLsbD_mask_iff] at hm
    obtain ⟨⟨⟨⟨hcmd, hrwop⟩, hphy⟩, hreg⟩, hdata⟩ := hm
    rw [commandWord_eq_placed]
    simp (disch := omega) only [BitVec.getLsbD_or, getLsbD_placed_outside, Bool.false_or, Bool.not_false,
      Bool.and_true]

end Fields

/-- A field taken out of a word and put back in its place is the word's bits there. -/
theorem getLsbD_placed_fld {n : Nat} (x : BitVec n) (w : Word) {l : Nat}
    (hx : ∀ i, x.getLsbD i = (decide (i < n) && w.getLsbD (l + i))) (b : Nat) :
    (x.setWidth 32 <<< l).getLsbD b = ((mask l n).getLsbD b && w.getLsbD b) := by
  by_cases h : b < 32 ∧ l ≤ b ∧ b < l + n
  · obtain ⟨h32, hl, hn⟩ := h
    have hb : l + (b - l) = b := by omega
    have hplaced := getLsbD_placed x (l := l) (i := b - l) (by omega)
    rw [hb, hx, hb, decide_eq_true (by omega : b - l < n), Bool.true_and] at hplaced
    rw [hplaced, getLsbD_mask_inside h32 hl hn, Bool.true_and]
  · have hmask : (mask l n).getLsbD b = false := by rwa [Bool.eq_false_iff, ne_eq, getLsbD_mask_iff]
    rw [hmask, Bool.false_and]
    by_cases h32 : b < 32
    · exact getLsbD_placed_outside x (by omega)
    · exact BitVec.getLsbD_of_ge _ _ (by omega)

/-- A word with CMD = 1 is spelled by its fields and its reserved bits (R87). -/
theorem commandWord_of_fields {L : CmdLayout} {w : Word} (hcmd : cmdBit L w = true) :
    commandWord L (rwopBit L w) (dataField L w) (regField L w) (phyField L w) (reservedBits L w) = w := by
  have hone : ∀ i, (1 : BitVec 1).getLsbD i = (decide (i < 1) && w.getLsbD (L.cmdLsb + i)) := fun i => by
    cases i with
    | zero => rw [Nat.add_zero, ← cmdBit_eq, hcmd]; rfl
    | succ i => simp
  have hrw : ∀ i, (BitVec.ofBool (rwopBit L w)).getLsbD i =
      (decide (i < 1) && w.getLsbD (L.rwopLsb + i)) := fun i => by
    cases i with
    | zero => simp
    | succ i => simp
  apply BitVec.eq_of_getLsbD_eq
  intro b _
  simp only [commandWord_eq_placed, BitVec.getLsbD_or, getLsbD_reservedBits, getLsbD_cmdFieldsMask,
    getLsbD_placed_fld _ w hone, getLsbD_placed_fld _ w hrw, getLsbD_placed_fld _ w (getLsbD_phyField L w),
    getLsbD_placed_fld _ w (getLsbD_regField L w), getLsbD_placed_fld _ w (getLsbD_dataField L w)]
  cases w.getLsbD b
  · simp only [Bool.and_false, Bool.false_and, Bool.or_false]
  · simp only [Bool.and_true, Bool.true_and, Bool.or_not_self]

end CommandWords

/-! SUPPORT. What the issuing RMW leaves of the word it overwrites (R88, R89). -/

section IssuedOverOld

variable {L : CmdLayout} (hL : cmdLayoutOk L = true) (old cur : Word) (tgt : BusAddr)
  (sub : Option BusAddr) (wr : Bool) (dat : Half)

include hL in
/-- A read leaves the DATA of the word it overwrites (R88). -/
theorem dataField_issued_read (hw : wr = false) :
    dataField L (mergeBits old (composeMask L cur tgt sub wr) (composeValue L tgt sub wr dat)) =
      dataField L old := by
  apply BitVec.eq_of_getLsbD_eq
  intro i hi
  rw [getLsbD_dataField, getLsbD_mergeBits, composeMask_data hL _ _ _ _ hi, hw, getLsbD_dataField]
  rfl

/-- The composed mask engages no bit outside the fields (R89). -/
theorem composeMask_outside {b : Nat} (h : (cmdFieldsMask L).getLsbD b = false) :
    (composeMask L cur tgt sub wr).getLsbD b = false := by
  simp only [getLsbD_cmdFieldsMask, Bool.or_eq_false_iff] at h
  obtain ⟨⟨⟨⟨hcmd, hrwop⟩, hphy⟩, hreg⟩, hdata⟩ := h
  simp only [composeMask, BitVec.getLsbD_or, getLsbD_ite_zero, hcmd, hrwop, hphy, hreg, hdata, Bool.and_false,
    Bool.or_false]

/-- The issuing RMW keeps the reserved bits (R89). -/
theorem reservedBits_issued :
    reservedBits L (mergeBits old (composeMask L cur tgt sub wr) (composeValue L tgt sub wr dat)) =
      reservedBits L old := by
  apply BitVec.eq_of_getLsbD_eq
  intro b _
  rw [getLsbD_reservedBits, getLsbD_reservedBits, getLsbD_mergeBits]
  cases hm : (cmdFieldsMask L).getLsbD b with
  | true => simp only [Bool.not_true, Bool.and_false]
  | false => rw [composeMask_outside cur tgt sub wr hm, if_neg Bool.false_ne_true]

end IssuedOverOld

/-! PROOFS. The command word (R87 to R89). -/

/-- A command word decodes to the command it spells. -/
theorem decodeCommand_commandWord {L : CmdLayout} (hL : cmdLayoutOk L = true) (wr : Bool) (data : Half)
    (reg phy : BusAddr) {rsv : Word} (hrsv : rsv &&& cmdFieldsMask L = 0) :
    decodeCommand L (commandWord L wr data reg phy rsv) =
      .ok (if wr then .miimCmdWrite data reg phy rsv else .miimCmdRead data reg phy rsv) := by
  rw [decodeCommand, if_pos (cmdBit_commandWord hL wr data reg phy), rwopBit_commandWord hL _ _ _ _ hrsv,
    dataField_commandWord hL _ _ _ _ hrsv, regField_commandWord hL _ _ _ _ hrsv,
    phyField_commandWord hL _ _ _ _ hrsv, reservedBits_commandWord _ _ _ _ hrsv]
  cases wr <;> rfl

/-- Settles O3: each field of the word is the operand put there. -/
theorem commandWordRoundTrip : Obligations.CommandWordRoundTrip := by
  intro L i w hL hwf henc
  cases i with
  | miimCmdRead data reg phy rsv =>
    cases henc
    exact decodeCommand_commandWord hL false data reg phy (beq_iff_eq.mp hwf)
  | miimCmdWrite data reg phy rsv =>
    cases henc
    exact decodeCommand_commandWord hL true data reg phy (beq_iff_eq.mp hwf)
  | _ => cases henc

/-- Settles O4: the decoded operands are the word's fields and its reserved bits, which together are
all of its bits. -/
theorem decodedCommandSpellsItsWord : Obligations.DecodedCommandSpellsItsWord := by
  intro L i w _ hdec
  have hrsv : (reservedBits L w &&& cmdFieldsMask L == 0) = true :=
    beq_iff_eq.mpr (reservedBits_and_fields L w)
  rw [decodeCommand] at hdec
  split at hdec
  · have hword := commandWord_of_fields ‹cmdBit L w = true›
    split at hdec
    · cases hdec
      rw [‹rwopBit L w = true›] at hword
      exact ⟨congrArg some hword, hrsv⟩
    · cases hdec
      rw [Bool.eq_false_iff.mpr ‹¬rwopBit L w = true›] at hword
      exact ⟨congrArg some hword, hrsv⟩
  · cases hdec

/-- Settles O6, field by field. -/
theorem issuedWordHasTheComposedFields : Obligations.IssuedWordHasTheComposedFields := by
  intro L cur old tgt sub wr dat hL w
  refine ⟨cmdBit_issued hL .., rwopBit_issued hL .., phyField_issued hL .., regField_issued hL .., ?_,
    reservedBits_issued ..⟩
  cases wr with
  | true => exact dataField_issued hL _ _ _ _ _ _ rfl
  | false => exact dataField_issued_read hL _ _ _ _ _ _ rfl

end Sys2Proof.Machine

namespace Sys2Proof.Machine

/-! PROOFS. The properties that every named update of the state keeps (Laws/Kept.lean): the canonical
memories, the controller and the parameters, the refusal mark. -/

section KeptProperties

theorem canonical_keptByUpdates : KeptByUpdates State.Canonical where
  acquire s d h := by simpa [State.Canonical] using h
  release s d h := by simpa [State.Canonical] using h
  respond _ _ h := h
  continueAs _ _ h := h
  refuse _ h := h
  tick _ h := h
  poke s o v h := ⟨Store.write_canonical 0 s.window o v h.1, h.2⟩
  latchAll s c h := ⟨h.1, Store.foldl_write_canonical 0 _ (fun p => s.peek (c.swReg p)) _ h.2.1, h.2.2⟩
  setBinding s p l b h := ⟨h.1, h.2.1, h.2.2.1, Store.write_canonical _ s.bind (bindKey p l) b h.2.2.2⟩
  expWrite s t r d h := ⟨h.1, h.2.1, Store.write_canonical 0 s.exp (expKey t r) d h.2.2.1, h.2.2.2⟩
  scrambleAll s h :=
    ⟨h.1, h.2.1, Store.foldl_write_canonical 0 _ (fun k => Config.anyHalf (s.free + k)) _ h.2.2.1, h.2.2.2⟩
  setStale _ _ h := h
  afterSched _ _ h := h
  issue _ _ _ h := h

/-- What no step takes from the state `s`: its parameters, and its controller once it has one. -/
def KeepsConfig (s u : State) : Prop := u.params = s.params ∧ ∀ c ∈ s.ctl, u.ctl = some c

theorem keepsConfig_keptByUpdates (s : State) : KeptByUpdates (KeepsConfig s) where
  acquire u d h := by simpa [KeepsConfig] using h
  release u d h := by simpa [KeepsConfig] using h
  respond _ _ h := h
  continueAs _ _ h := h
  refuse _ h := h
  tick _ h := h
  poke _ _ _ h := h
  latchAll _ _ h := h
  setBinding _ _ _ _ h := h
  expWrite _ _ _ _ h := h
  scrambleAll _ h := h
  setStale _ _ h := h
  afterSched _ _ h := h
  issue _ _ _ h := h

theorem refused_keptByUpdates : KeptByUpdates fun s => s.refused = true where
  acquire s d h := by simpa using h
  release s d h := by simpa using h
  respond _ _ h := h
  continueAs _ _ h := h
  refuse _ _ := rfl
  tick _ h := h
  poke _ _ _ h := h
  latchAll _ _ h := h
  setBinding _ _ _ _ h := h
  expWrite _ _ _ _ h := h
  scrambleAll _ h := h
  setStale _ _ h := h
  afterSched _ _ h := h
  issue _ _ _ h := h

end KeptProperties

/-- Settles O9: each named update writes a memory in canonical form or none, and construction empties
the registry. -/
theorem stepKeepsMemoriesCanonical : Obligations.StepKeepsMemoriesCanonical := fun s t h e =>
  canonical_keptByUpdates.step_kept
    (fun _ _ _ _ _ h _ _ => ⟨h.1, h.2.1, h.2.2.1, Store.nil_canonical _⟩) s t h e

/-- Settles O12: no named update touches them, and construction runs only where there is no controller. -/
theorem stepNeverChangesTheController : Obligations.StepNeverChangesTheController := fun s t e =>
  (keepsConfig_keptByUpdates s).step_kept
    (fun u f nports nleds vmask h hnone _ => by
      refine ⟨h.1, fun c hc => ?_⟩
      rw [h.2 c hc] at hnone
      cases hnone)
    s t ⟨rfl, fun _ hc => hc⟩ e

/-- Settles O15: the one update of the mark sets it, and construction leaves it. -/
theorem refusedMarkIsNeverCleared : Obligations.RefusedMarkIsNeverCleared := fun s t h e =>
  refused_keptByUpdates.step_kept (fun _ _ _ _ _ h _ _ => h) s t h e

/-! SUPPORT. What one instruction can do to the callers, the locks and the controller, said once. -/

section Moves

/-- Nothing but the memories and the count of free values differs. -/
structure OnlyMemories (s u : State) : Prop where
  params : u.params = s.params
  ctl : u.ctl = s.ctl
  globalOwner : u.globalOwner = s.globalOwner
  portledOwner : u.portledOwner = s.portledOwner
  miimOwner : u.miimOwner = s.miimOwner
  callers : u.callers = s.callers
  miimStale : u.miimStale = s.miimStale
  refused : u.refused = s.refused
  cur : u.cur = s.cur
  sched : u.sched = s.sched

variable {s t u : State} {c : Ctl}

theorem OnlyMemories.refl (s : State) : OnlyMemories s s := by constructor <;> rfl

theorem OnlyMemories.trans (h : OnlyMemories s t) (h' : OnlyMemories t u) : OnlyMemories s u where
  params := h'.params.trans h.params
  ctl := h'.ctl.trans h.ctl
  globalOwner := h'.globalOwner.trans h.globalOwner
  portledOwner := h'.portledOwner.trans h.portledOwner
  miimOwner := h'.miimOwner.trans h.miimOwner
  callers := h'.callers.trans h.callers
  miimStale := h'.miimStale.trans h.miimStale
  refused := h'.refused.trans h.refused
  cur := h'.cur.trans h.cur
  sched := h'.sched.trans h.sched

/-- As an update of the state. -/
theorem OnlyMemories.eq (h : OnlyMemories s u) :
    u = { s with window := u.window, swLatch := u.swLatch, exp := u.exp, bind := u.bind, free := u.free } :=
  State.eq_of_fields h.params rfl rfl rfl rfl h.ctl h.globalOwner h.portledOwner h.miimOwner h.callers h.miimStale
    h.refused h.cur h.sched rfl

theorem OnlyMemories.me (h : OnlyMemories s u) : u.me = s.me := by
  rw [State.me, State.me, State.caller, State.caller, h.cur, h.callers]

theorem OnlyMemories.foldl {α : Type} {f : State → α → State} (hf : ∀ s a, OnlyMemories s (f s a)) (l : List α)
    (s : State) : OnlyMemories s (l.foldl f s) := by
  induction l generalizing s with
  | nil => exact .refl s
  | cons a l ih => exact (hf s a).trans (ih (f s a))

theorem State.tick_onlyMemories (s : State) : OnlyMemories s s.tick := by constructor <;> rfl

theorem State.poke_onlyMemories (s : State) (o : Nat) (v : Word) : OnlyMemories s (s.poke o v) := by
  constructor <;> rfl

theorem State.afterRead_onlyMemories (s : State) (c : Ctl) (o : Nat) : OnlyMemories s (s.afterRead c o) := by
  constructor <;> simp

theorem State.writeReg_onlyMemories (s : State) (c : Ctl) (o : Nat) (v : Word) :
    OnlyMemories s (s.writeReg c o v) := by
  constructor <;> simp

theorem State.rmw_onlyMemories (s : State) (c : Ctl) (o : Nat) (m v : Word) :
    OnlyMemories s (s.rmw c o m v) := by
  constructor <;> simp

theorem State.commit_onlyMemories (s : State) (c : Ctl) : OnlyMemories s (s.commit c) := by
  constructor <;> simp

theorem State.setBinding_onlyMemories (s : State) (port led : Byte) (b : BindMode) :
    OnlyMemories s (s.setBinding port led b) := by
  constructor <;> rfl

theorem State.expWrite_onlyMemories (s : State) (t r : BusAddr) (d : Half) :
    OnlyMemories s (s.expWrite t r d) := by
  constructor <;> rfl

theorem State.afterExpRead_onlyMemories (s : State) (t r : BusAddr) :
    OnlyMemories s (s.afterExpRead t r) := by
  rw [State.afterExpRead_eq]
  constructor <;> rfl

theorem setSelReg_onlyMemories (c : Ctl) (m : Media) (pm : PortMask) (pset : Byte) (s : State) (r : Nat) :
    OnlyMemories s (setSelReg c m pm pset s r) := by
  unfold setSelReg
  split
  · exact .refl s
  · exact s.rmw_onlyMemories c _ _ _

theorem getSelReg_foldl_onlyMemories (c : Ctl) (m : Media) (pset : Byte) (l : List Nat) (acc : State × PortMask) :
    OnlyMemories acc.1 (l.foldl (getSelReg c m pset) acc).1 := by
  induction l generalizing acc with
  | nil => exact .refl _
  | cons r l ih => exact (acc.1.afterRead_onlyMemories c _).trans (ih (getSelReg c m pset acc r))

theorem clearBits_onlyMemories (c : Ctl) (o : Nat) (m : Word) (s : State) : OnlyMemories s (clearBits c o m s) := by
  unfold clearBits
  split
  · exact .refl s
  · exact s.rmw_onlyMemories c _ _ _

/-! ### The engine -/

theorem scrambleIfWrite_onlyMemories (wr : Bool) (t r : BusAddr) (s : State) :
    OnlyMemories s (scrambleIfWrite wr t r s) := by
  rw [scrambleIfWrite_eq]
  constructor <;> rfl

theorem scrambleStale_onlyMemories (s : State) : OnlyMemories s (scrambleStale s) := by
  rw [scrambleStale_eq]
  constructor <;> rfl

theorem anyData_onlyMemories (c : Ctl) (s : State) : OnlyMemories s (anyData c s) := by
  constructor <;> rfl

theorem scrambleAll_onlyMemories (s : State) : OnlyMemories s (scrambleAll s) := by
  constructor <;> rfl

theorem engineComplete_onlyMemories (c : Ctl) (wr : Bool) (t r : BusAddr) (rsv : Word) {s body : State}
    (hb : OnlyMemories s body) : OnlyMemories s (engineComplete c wr t r rsv s body) := by
  unfold engineComplete
  split
  · exact (anyData_onlyMemories c s).trans (scrambleAll_onlyMemories _)
  · split
    · exact ((anyData_onlyMemories c s).trans (scrambleIfWrite_onlyMemories wr t r _)).trans
        (scrambleStale_onlyMemories _)
    · exact hb

theorem engineStep_onlyMemories {i : Instr} {body : Ctl → State} (hb : ∀ c, OnlyMemories s (body c)) :
    OnlyMemories s (s.engineStep i body) := by
  unfold State.engineStep
  split
  · exact .refl s
  · split
    · exact hb _
    · exact .refl s

/-! ### Operations that answer in one step -/

/-- The operation answered: memories changed, and none of them where the status is an error (R191). -/
def Answer (s t : State) : Prop :=
  ∃ u r, t = State.respond u r ∧ OnlyMemories s u ∧ (r.status ≠ .ok → u = s)

theorem Answer.ok (h : OnlyMemories s u) (v : BitVec 64) : Answer s (u.respond (.ok v)) :=
  ⟨u, _, rfl, h, fun hr => absurd rfl hr⟩

theorem Answer.unchanged (s : State) (r : Response) : Answer s (s.respond r) :=
  ⟨s, r, rfl, .refl s, fun _ => rfl⟩

theorem psetChecks_answer {pset media : Byte} {body : Media → State} (hb : ∀ m, Answer s (body m)) :
    Answer s (psetChecks c pset media s body) := by
  unfold psetChecks
  split
  · split
    · split
      · exact hb _
      · exact .unchanged s _
    · exact .unchanged s _
  · exact .unchanged s _

/-- What one instruction does to the callers, the locks and the controller: nothing (a wait, the engine),
a refusal, an answer in one step, construction, or the beginning, a middle step or the end of an
operation on MIIM_CMD. -/
inductive Moves (s : State) : State → Prop
  | quiet {t : State} (h : OnlyMemories s t) : Moves s t
  | refused : Moves s s.refuse
  | answered {t : State} (hidle : s.me.flight = .idle) (h : Answer s t) : Moves s t
  | constructed (c : Ctl) (hidle : s.me.flight = .idle) (hnone : s.ctl = none) (hc : c.Valid s.params) :
      Moves s ((s.construct c).respond (.ok 0))
  | entered (c : Ctl) (fl : Flight) (hidle : s.me.flight = .idle) (hc : s.ctl = some c)
      (hfree : s.miimOwner = none) (hne : fl ≠ .idle) (hk : ∀ x, fl = .miim x → x.k = 0) :
      Moves s ((s.acquire .miim).continueAs fl)
  | continued (u : State) (x y : Tx) (hx : s.me.flight = .miim x)
      (h : OnlyMemories { s with miimStale := u.miimStale } u)
      (hk : x.k < s.params.pollMax → y.k < s.params.pollMax) : Moves s (u.continueAs (.miim y))
  | ended (u : State) (r : Response) (hbusy : s.me.flight ≠ .idle)
      (h : OnlyMemories { s with miimStale := u.miimStale } u) (hr : r.status = .ok ∨ r.status = .busTimeout) :
      Moves s ((u.release .miim).respond r)

theorem start_moves {body : Ctl → State}
    (hb : ∀ c, s.ctl = some c → s.me.flight = .idle → Moves s (body c)) : Moves s (s.start body) := by
  unfold State.start
  split
  · split
    · exact .refused
    · exact hb _ ‹_› ‹_›
  · exact .quiet (.refl s)
  · exact .quiet (.refl s)

/-- A lock that was free is free again after an operation under it. -/
theorem OnlyMemories.release_acquire {d : Domain} (hfree : s.owner d = none)
    (h : OnlyMemories (s.acquire d) u) : OnlyMemories s (u.release d) := by
  obtain ⟨hg, hp, hm⟩ := State.release_of_acquire s u hfree h.globalOwner h.portledOwner h.miimOwner
  exact {
    globalOwner := hg, portledOwner := hp, miimOwner := hm
    params := by simp [h.params], ctl := by simp [h.ctl], callers := by simp [h.callers]
    miimStale := by simp [h.miimStale], refused := by simp [h.refused], cur := by simp [h.cur]
    sched := by simp [h.sched] }

theorem release_acquire_self {d : Domain} (hfree : s.owner d = none) : (s.acquire d).release d = s := by
  cases d <;> cases s <;> cases hfree <;> rfl

theorem release_respond (u : State) (d : Domain) (r : Response) :
    (u.respond r).release d = (u.release d).respond r := by
  cases d <;> rfl

theorem withLock_moves (hidle : s.me.flight = .idle) (d : Domain) {body : State → State}
    (hb : ∀ s, Answer s (body s)) : Moves s (s.withLock d body) := by
  unfold State.withLock
  split
  · exact .quiet (.refl s)
  · rename_i hfree
    obtain ⟨u, r, hbody, hu, herr⟩ := hb (s.acquire d)
    rw [hbody, release_respond]
    refine .answered hidle ⟨u.release d, r, rfl, hu.release_acquire hfree, fun hr => ?_⟩
    rw [herr hr, release_acquire_self hfree]

theorem withLockOf_moves (hidle : s.me.flight = .idle) (c : Ctl) (o : Nat) {body : State → State}
    (hb : ∀ s, Answer s (body s)) : Moves s (s.withLockOf c o body) := by
  unfold State.withLockOf
  split
  · exact withLock_moves hidle _ hb
  · exact .answered hidle (hb s)

/-! ### The operations on MIIM_CMD -/

theorem miimInvoke_moves (hidle : s.me.flight = .idle) (hc : s.ctl = some c) (tgt sub : Byte) (wr : Bool)
    (dat : Half) : Moves s (miimInvoke tgt sub wr dat s) := by
  unfold miimInvoke
  split
  · exact .answered hidle (.unchanged s _)
  · split
    · exact .answered hidle (.unchanged s _)
    · split
      · exact .quiet (.refl s)
      · exact .entered c _ hidle hc ‹_› nofun (fun x hx => by cases hx; rfl)

theorem miimPhaseStep_moves (c : Ctl) {x : Tx} (hx : s.me.flight = .miim x) : Moves s (miimPhaseStep c x s) := by
  have hbusy : s.me.flight ≠ .idle := by rw [hx]; nofun
  unfold miimPhaseStep
  split
  · rw [miimLatch_eq]
    exact .continued _ x _ hx (by constructor <;> rfl) id
  · exact .continued s x _ hx (.refl s) id
  · exact .continued _ x _ hx (by constructor <;> simp)
      (Nat.lt_of_le_of_lt (Nat.zero_le _))
  · unfold miimPoll
    dsimp only
    split
    · split
      · exact .ended { s with miimStale := _ } _ hbusy (.refl _) (.inr rfl)
      · exact .continued s x _ hx (.refl s) (fun h => Nat.lt_of_le_of_ne h ‹_›)
    · unfold miimComplete
      split
      · exact .ended s _ hbusy (.refl s) (.inl rfl)
      · split
        · exact .ended s.tick _ hbusy (by constructor <;> rfl) (.inl rfl)
        · exact .ended s _ hbusy (.refl s) (.inl rfl)

theorem miimContinue_moves {x : Tx} (hx : s.me.flight = .miim x) (wr : Bool) : Moves s (miimContinue wr x s) := by
  unfold miimContinue
  split
  · exact .quiet (.refl s)
  · split
    · exact miimPhaseStep_moves _ hx
    · exact .quiet (.refl s)

theorem rawRmwLoad_moves (hidle : s.me.flight = .idle) (hc : s.ctl = some c) (msk val : Word) :
    Moves s (rawRmwLoad c msk val s) := by
  unfold rawRmwLoad
  split
  · exact .quiet (.refl s)
  · exact .entered c _ hidle hc ‹_› nofun nofun

theorem rawRmwStore_moves (c : Ctl) (hbusy : s.me.flight ≠ .idle) (msk val old : Word) :
    Moves s (rawRmwStore c msk val old s) :=
  .ended _ _ hbusy (by constructor <;> simp) (.inl rfl)

/-! ### The inversion -/

/-- Every instruction makes one of the moves. -/
theorem exec_moves {i : Instr} (e : exec i s = .next t) : Moves s t := by
  cases i <;> injection e with e <;> subst e
  case plActivate =>
    refine start_moves fun c _ hidle => ?_
    split
    · exact .answered hidle (.unchanged s _)
    · exact withLock_moves hidle _ fun s => .ok (s.rmw_onlyMemories c _ _ _) 0
  case plSetPset =>
    exact start_moves fun c _ hidle => withLock_moves hidle _ fun s => psetChecks_answer fun m =>
      .ok (OnlyMemories.foldl (setSelReg_onlyMemories c m _ _) _ s) 0
  case plGetPset =>
    exact start_moves fun c _ hidle => withLock_moves hidle _ fun s => psetChecks_answer fun m =>
      .ok (getSelReg_foldl_onlyMemories c m _ _ (s, 0)) _
  case plSetMode =>
    refine start_moves fun c _ hidle => withLock_moves hidle _ fun s => ?_
    split
    · exact .unchanged s _
    · exact .ok (s.rmw_onlyMemories c _ _ _) 0
  case plGetMode =>
    refine start_moves fun c _ hidle => withLock_moves hidle _ fun s => ?_
    split
    · exact .unchanged s _
    · exact .ok (s.afterRead_onlyMemories c _) _
  case plInitAll =>
    exact start_moves fun c _ hidle => withLock_moves hidle _ fun s =>
      .ok (((OnlyMemories.foldl (fun s p => clearBits_onlyMemories c _ _ s) _ s).trans
        (OnlyMemories.foldl (fun s r => clearBits_onlyMemories c _ _ s) _ _)).trans
        (State.commit_onlyMemories _ c)) 0
  case plRegisterUserLed =>
    refine start_moves fun c _ hidle => withLock_moves hidle _ fun s => ?_
    split
    · exact .ok (s.rmw_onlyMemories c _ _ _) 0
    · exact .unchanged s _
  case plSetUserMode =>
    refine start_moves fun c _ hidle => withLock_moves hidle _ fun s => ?_
    split
    · split
      · exact .unchanged s _
      · exact .ok ((s.rmw_onlyMemories c _ _ _).trans (State.commit_onlyMemories _ c)) 0
    · exact .unchanged s _
  case miimEnable =>
    exact start_moves fun c _ hidle => withLock_moves hidle _ fun s => .ok (s.rmw_onlyMemories c _ _ _) 0
  case miimSetClock =>
    refine start_moves fun c _ hidle => withLock_moves hidle _ fun s => ?_
    split
    · exact .unchanged s _
    · exact .ok (s.rmw_onlyMemories c _ _ _) 0
  case miimRead =>
    split
    · exact start_moves fun c hc hidle => miimInvoke_moves hidle hc _ _ _ _
    · exact miimContinue_moves ‹_› _
    · exact .quiet (.refl s)
  case miimWrite =>
    split
    · exact start_moves fun c hc hidle => miimInvoke_moves hidle hc _ _ _ _
    · exact miimContinue_moves ‹_› _
    · exact .quiet (.refl s)
  case regBind port led asUser =>
    refine start_moves fun c _ hidle => withLock_moves hidle _ fun s => ?_
    split
    · split
      · split
        · exact .ok ((s.rmw_onlyMemories c _ _ _).trans (State.setBinding_onlyMemories _ port led .user)) 0
        · exact .ok (s.setBinding_onlyMemories port led .asic) 0
      · exact .unchanged s _
    · exact .unchanged s _
  case regUnbind port led =>
    refine start_moves fun c _ hidle => withLock_moves hidle _ fun s => ?_
    split
    · split
      · exact .unchanged s _
      · exact .ok (s.setBinding_onlyMemories port led .none) 0
      · exact .ok ((s.rmw_onlyMemories c _ _ _).trans (State.setBinding_onlyMemories _ port led .none)) 0
    · exact .unchanged s _
  case ctlConstruct =>
    split
    · split
      · exact .refused
      · split
        · split
          · exact .constructed _ ‹_› (by simpa using ‹¬s.ctl.isSome = true›) (newCtl_valid ‹_›)
          · exact .refused
        · exact .answered ‹_› (.unchanged s _)
        · exact .answered ‹_› (.unchanged s _)
    · exact .quiet (.refl s)
    · exact .quiet (.refl s)
  case raRead32 =>
    refine start_moves fun c _ hidle => ?_
    split
    · exact withLockOf_moves hidle c _ fun s => .ok (s.afterRead_onlyMemories c _) _
    · exact .refused
  case raWrite32 =>
    refine start_moves fun c _ hidle => ?_
    split
    · exact withLockOf_moves hidle c _ fun s => .ok (s.writeReg_onlyMemories c _ _) 0
    · exact .refused
  case raRmw32 =>
    split
    · refine start_moves fun c hc hidle => ?_
      split
      · split
        · exact rawRmwLoad_moves hidle hc _ _
        · exact withLockOf_moves hidle c _ fun s => .ok (s.rmw_onlyMemories c _ _ _) 0
      · exact .refused
    · exact .quiet (.refl s)
    · split
      · exact .quiet (.refl s)
      · exact rawRmwStore_moves _ (by rw [‹s.me.flight = _›]; nofun) _ _ _
  case miimCmdRead =>
    exact .quiet (engineStep_onlyMemories fun c => engineComplete_onlyMemories c _ _ _ _
      ((s.afterExpRead_onlyMemories _ _).trans (State.poke_onlyMemories _ _ _)))
  case miimCmdWrite =>
    exact .quiet (engineStep_onlyMemories fun c => engineComplete_onlyMemories c _ _ _ _
      ((s.expWrite_onlyMemories _ _ _).trans (State.poke_onlyMemories _ _ _)))

/-- What the engine executes changes nothing but memories. -/
theorem engineTurn_onlyMemories (e : engineTurn s = .next t) : OnlyMemories s t := by
  unfold engineTurn at e
  split at e
  · cases e
    exact .refl s
  · rename_i i hcmd
    unfold State.engineCommand at hcmd
    obtain ⟨c, -, hdec⟩ := Option.bind_eq_some_iff.mp hcmd
    unfold decodeCommand at hdec
    split at hdec
    · split at hdec <;> cases hdec <;> injection e with e <;> subst e
      · exact engineStep_onlyMemories fun c => engineComplete_onlyMemories c _ _ _ _
          ((s.expWrite_onlyMemories _ _ _).trans (State.poke_onlyMemories _ _ _))
      · exact engineStep_onlyMemories fun c => engineComplete_onlyMemories c _ _ _ _
          ((s.afterExpRead_onlyMemories _ _).trans (State.poke_onlyMemories _ _ _))
    · cases hdec

/-- A step moves the schedule on, and then nothing but memories changes, or the move is that of a caller
that has issued its request. -/
theorem step_moves (e : step s = .next t) :
    ∃ rest, OnlyMemories (s.afterSched rest) t ∨
      ∃ k r, k < s.callers.length ∧ Moves ((s.afterSched rest).issue k r) t := by
  unfold step at e
  split at e
  · cases e
    exact ⟨s.sched, .inl (.refl s)⟩
  · exact ⟨_, .inl (engineTurn_onlyMemories e)⟩
  · rename_i k rest _
    refine ⟨rest, ?_⟩
    unfold callerTurn at e
    split at e
    · split at e
      · cases e
        exact .inl (.refl _)
      · rename_i r _
        refine .inr ⟨k, r, ‹_›, ?_⟩
        split at e
        · exact exec_moves e
        · cases e
          exact .refused
    · cases e
      exact .inl (.refl _)

end Moves
end Sys2Proof.Machine

namespace Sys2Proof.Machine

/-! SUPPORT. The callers after a change of the current one's record, and after a move. -/

section Callers

variable {s t u : State}

theorem State.setMe_caller (s : State) (f : Caller → Caller) (hlt : s.cur < s.callers.length) (k : Nat) :
    (s.setMe f).caller k = if k = s.cur then f (s.caller k) else s.caller k := by
  by_cases hk : k = s.cur
  · rw [if_pos hk, hk]
    exact s.setMe_me f hlt
  · rw [if_neg hk, s.setMe_caller_other f hk]

/-- Whether or not the current caller is an agent: its record is changed, or nothing is. -/
theorem State.setMe_caller_cases (s : State) (f : Caller → Caller) (k : Nat) :
    (k = s.cur ∧ (s.setMe f).caller k = f s.me) ∨ (s.setMe f).caller k = s.caller k := by
  by_cases hlt : s.cur < s.callers.length
  · rw [s.setMe_caller f hlt k]
    by_cases hk : k = s.cur
    · exact .inl ⟨hk, by rw [if_pos hk, hk]; rfl⟩
    · exact .inr (if_neg hk)
  · exact .inr (by rw [State.caller, State.setMe_callers, List.modify_eq_self (by omega)]; rfl)

theorem State.me_of_not_lt (h : ¬s.cur < s.callers.length) : s.me = Caller.initial := by
  rw [State.me, State.caller, List.getD_eq_default _ _ (by omega)]

/-- A change that keeps every flight keeps each caller's flight. -/
theorem State.setMe_flight (s : State) {f : Caller → Caller} (hf : (f s.me).flight = s.me.flight) (k : Nat) :
    ((s.setMe f).caller k).flight = (s.caller k).flight := by
  obtain ⟨rfl, h⟩ | h := s.setMe_caller_cases f k <;> rw [h]
  exact hf

theorem OnlyMemories.caller (h : OnlyMemories s t) (k : Nat) : t.caller k = s.caller k := by
  rw [State.caller, State.caller, h.callers]

theorem State.issue_caller (s : State) (k j : Nat) (r : Request) :
    (s.issue k r).caller j = if j = k ∧ k < s.callers.length then (s.caller j).issue r else s.caller j := by
  simp only [State.caller, State.issue_callers, List.getD_eq_getElem?_getD, List.getElem?_modify]
  by_cases hj : j = k
  · subst hj
    by_cases hlt : j < s.callers.length
    · simp [hlt]
    · simp [hlt]
  · simp [hj, Ne.symm hj]

theorem Caller.issue_flight (k : Caller) (r : Request) : (k.issue r).flight = k.flight := by
  unfold Caller.issue
  split <;> rfl

theorem State.issue_flight (s : State) (k j : Nat) (r : Request) :
    ((s.issue k r).caller j).flight = (s.caller j).flight := by
  rw [State.issue_caller]
  split
  · exact Caller.issue_flight _ r
  · rfl

/-- A response leaves every flight as it is where its caller is idle already. -/
theorem respond_flight (hidle : s.me.flight = .idle) (hu : OnlyMemories s u) (r : Response) (k : Nat) :
    ((u.respond r).caller k).flight = (s.caller k).flight := by
  rw [State.respond, State.setMe_flight u (by rw [hu.me, hidle]), hu.caller]

theorem Answer.flight (hidle : s.me.flight = .idle) (h : Answer s t) (k : Nat) :
    (t.caller k).flight = (s.caller k).flight := by
  obtain ⟨u, r, rfl, hu, -⟩ := h
  exact respond_flight hidle hu r k

end Callers

/-! SUPPORT. Single flight, the controller and the poll counts under a move. -/

section Invariants

variable {s t : State}

/-- Single flight needs of two states that they agree on the locks and on which callers are idle. -/
theorem State.SingleFlight.of_agree (h : s.SingleFlight) (hg : t.globalOwner = s.globalOwner)
    (hp : t.portledOwner = s.portledOwner) (hm : t.miimOwner = s.miimOwner)
    (hlen : t.callers.length = s.callers.length) (hctl : s.ctl.isSome → t.ctl.isSome)
    (hf : ∀ k, (t.caller k).flight = .idle ↔ (s.caller k).flight = .idle) : t.SingleFlight := by
  obtain ⟨hglobal, hportled, hiff, hholder⟩ := h
  refine ⟨hg.trans hglobal, hp.trans hportled, fun k hk => ?_, fun k hk => ?_⟩
  · rw [ne_eq, hf, hm]
    exact hiff k (hlen ▸ hk)
  · rw [hm] at hk
    exact ⟨hlen ▸ (hholder k hk).1, hctl (hholder k hk).2⟩

theorem State.SingleFlight.onlyMemories (h : s.SingleFlight) (hm : OnlyMemories s t) : t.SingleFlight :=
  h.of_agree hm.globalOwner hm.portledOwner hm.miimOwner (by rw [hm.callers]) (by rw [hm.ctl]; exact id)
    fun k => by rw [hm.caller]

/-- Every move of a caller that is an agent keeps single flight. -/
theorem Moves.singleFlight (hlt : s.cur < s.callers.length) (h : s.SingleFlight) (m : Moves s t) :
    t.SingleFlight := by
  cases m with
  | quiet hm => exact h.onlyMemories hm
  | refused =>
    refine h.of_agree rfl rfl rfl (by simp) id fun k => ?_
    exact iff_of_eq (congrArg (· = Flight.idle) (s.setMe_flight (f := fun k => { k with req := none }) rfl k))
  | answered hidle ha =>
    have hf := ha.flight hidle
    obtain ⟨u, r, rfl, hu, -⟩ := ha
    exact h.of_agree hu.globalOwner hu.portledOwner hu.miimOwner (by simp [hu.callers])
      (by simp [hu.ctl]) fun k => by rw [hf]
  | constructed c =>
    refine ⟨rfl, rfl, fun k _ => ?_, nofun⟩
    have hidle : (((s.construct c).respond (.ok 0)).caller k).flight = .idle := by
      obtain ⟨-, hk⟩ | hk := (s.construct c).setMe_caller_cases _ k
      · exact congrArg Caller.flight hk
      · exact (congrArg Caller.flight hk).trans (by rw [State.construct_caller])
    exact iff_of_false (not_not_intro hidle) nofun
  | entered c fl hidle hc hfree hne =>
    obtain ⟨hglobal, hportled, hiff, -⟩ := h
    refine ⟨hglobal, hportled, fun k hk => ?_, fun k hk => ?_⟩
    · rw [State.continueAs, State.setMe_caller (s.acquire .miim) _ hlt, State.acquire_cur]
      by_cases hkc : k = s.cur
      · exact iff_of_true (by rw [if_pos hkc]; exact hne) (congrArg some hkc.symm)
      · rw [if_neg hkc]
        refine iff_of_false (fun hbusy => ?_) (fun he => hkc (Option.some.inj he).symm)
        have hown := (hiff k (by simpa using hk)).mp hbusy
        rw [hfree] at hown
        cases hown
    · have hk' : s.cur = k := Option.some.inj hk
      exact ⟨by simpa [← hk'] using hlt, by simp [State.acquire, State.setOwner, hc]⟩
  | continued u x y hx hu =>
    refine h.of_agree hu.globalOwner hu.portledOwner hu.miimOwner (by simp [hu.callers])
      (by simp [hu.ctl]) fun k => ?_
    have hlt' : u.cur < u.callers.length := by rw [hu.cur, hu.callers]; exact hlt
    rw [State.continueAs, State.setMe_caller _ _ hlt', hu.caller, hu.cur]
    by_cases hkc : k = s.cur
    · have hbusy : (s.caller k).flight = .miim x := by rw [hkc]; exact hx
      rw [if_pos hkc, hbusy]
      exact iff_of_false nofun nofun
    · rw [if_neg hkc]
      rfl
  | ended u r hbusy hu =>
    obtain ⟨hglobal, hportled, hiff, -⟩ := h
    refine ⟨hu.globalOwner.trans hglobal, hu.portledOwner.trans hportled, fun k hk => ?_, nofun⟩
    have hlt' : (u.release .miim).cur < (u.release .miim).callers.length := by
      rw [State.release_cur, State.release_callers, hu.cur, hu.callers]; exact hlt
    rw [State.respond, State.setMe_caller _ _ hlt']
    refine iff_of_false (not_not_intro ?_) nofun
    by_cases hkc : k = s.cur
    · rw [if_pos (by rw [State.release_cur, hu.cur, hkc])]
    · rw [if_neg (by rw [State.release_cur, hu.cur]; exact hkc)]
      have hcal : (u.release .miim).caller k = s.caller k := hu.caller k
      rw [hcal]
      by_contra hk'
      have hown := (hiff k (by simpa [hu.callers] using hk)).mp hk'
      rw [(hiff s.cur hlt).mp hbusy] at hown
      exact hkc (Option.some.inj hown).symm

theorem Moves.params (m : Moves s t) : t.params = s.params := by
  cases m with
  | quiet hm => exact hm.params
  | refused => rfl
  | answered _ ha =>
    obtain ⟨u, r, rfl, hu, -⟩ := ha
    exact hu.params
  | constructed => rfl
  | entered => rfl
  | continued _ _ _ _ hu => exact hu.params
  | ended _ _ _ hu => exact hu.params

/-- A move keeps the controller, or makes a valid one. -/
theorem Moves.ctl (m : Moves s t) : t.ctl = s.ctl ∨ ∃ c, t.ctl = some c ∧ c.Valid s.params := by
  cases m with
  | quiet hm => exact .inl hm.ctl
  | refused => exact .inl rfl
  | answered _ ha =>
    obtain ⟨u, r, rfl, hu, -⟩ := ha
    exact .inl hu.ctl
  | constructed c _ _ hc => exact .inr ⟨c, rfl, hc⟩
  | entered => exact .inl rfl
  | continued _ _ _ _ hu => exact .inl hu.ctl
  | ended _ _ _ hu => exact .inl hu.ctl

theorem Moves.controllerValid (h : s.ControllerValid) (m : Moves s t) : t.ControllerValid := by
  intro c hc
  rw [m.params]
  obtain hctl | ⟨c', hctl, hvalid⟩ := m.ctl
  · exact h c (hctl ▸ hc)
  · rw [hctl] at hc
    cases hc
    exact hvalid

/-- The poll counts are bounded after a change of the current caller, if its new one is. -/
theorem State.PollsBounded.setMe (h : s.PollsBounded) (f : Caller → Caller)
    (hf : ∀ y, (f s.me).flight = .miim y → y.k < s.params.pollMax) : (s.setMe f).PollsBounded := by
  intro k y hy
  obtain ⟨-, hk⟩ | hk := s.setMe_caller_cases f k <;> rw [hk] at hy
  · exact hf y hy
  · exact h k y hy

theorem State.PollsBounded.of_callers (h : s.PollsBounded) (hp : t.params = s.params)
    (hc : t.callers = s.callers) : t.PollsBounded := by
  intro k y hy
  rw [State.caller, hc] at hy
  rw [hp]
  exact h k y hy

/-- Every move keeps the poll counts below POLL_MAX. -/
theorem Moves.pollsBounded (hv : s.ControllerValid) (h : s.PollsBounded) (m : Moves s t) : t.PollsBounded := by
  cases m with
  | quiet hm => exact h.of_callers hm.params hm.callers
  | refused => exact h.setMe _ (h s.cur)
  | answered _ ha =>
    obtain ⟨u, r, rfl, hu, -⟩ := ha
    exact (h.of_callers hu.params hu.callers).setMe _ nofun
  | constructed c =>
    have hidle : (s.construct c).PollsBounded := fun k y hy => by
      rw [State.construct_caller] at hy
      cases hy
    exact hidle.setMe _ nofun
  | entered c fl _ hc _ _ hk =>
    refine State.PollsBounded.setMe (h.of_callers rfl rfl) _ fun y hy => ?_
    rw [hk y hy]
    exact (hv c hc).counts.2.2.2.2
  | continued u x y hx hu hk =>
    refine (h.of_callers hu.params hu.callers).setMe _ fun z hz => ?_
    cases hz
    rw [hu.params]
    exact hk (h s.cur x hx)
  | ended u r _ hu => exact State.PollsBounded.setMe (h.of_callers hu.params hu.callers) _ nofun

end Invariants

/-! PROOFS. The invariants of every step (R38, R41, R115, R122). -/

/-- Settles O10: by the move the step makes. -/
theorem stepKeepsSingleFlight : Obligations.StepKeepsSingleFlight := by
  intro s t h e
  obtain ⟨rest, hm | ⟨k, r, hk, m⟩⟩ := step_moves e
  · exact State.SingleFlight.onlyMemories (s := s.afterSched rest) h hm
  · refine m.singleFlight (by simpa using hk) ?_
    exact State.SingleFlight.of_agree (s := s) h rfl rfl rfl (by simp) id fun j => by
      rw [State.issue_flight]
      rfl

/-- Settles O11: by the move the step makes; a transaction begins with no polls and POLL_MAX ≥ 1. -/
theorem stepKeepsControllerValidAndPollsBounded : Obligations.StepKeepsControllerValidAndPollsBounded := by
  intro s t hv h e
  obtain ⟨rest, hm | ⟨k, r, -, m⟩⟩ := step_moves e
  · have m : Moves (s.afterSched rest) t := .quiet hm
    exact ⟨Moves.controllerValid (s := s.afterSched rest) hv m,
      Moves.pollsBounded (s := s.afterSched rest) hv h m⟩
  · have hissue : ((s.afterSched rest).issue k r).PollsBounded := fun j x hx => by
      rw [State.issue_flight] at hx
      exact h j x hx
    exact ⟨Moves.controllerValid (s := (s.afterSched rest).issue k r) hv m,
      Moves.pollsBounded (s := (s.afterSched rest).issue k r) hv hissue m⟩

/-- Settles O13, field by field. -/
theorem resetIsUnconstructedAndIdle : Obligations.ResetIsUnconstructedAndIdle := by
  have hcaller : ∀ k, State.reset.caller k = Caller.initial := fun k =>
    match k with
    | 0 => rfl
    | 1 => rfl
    | _ + 2 => rfl
  refine ⟨rfl, rfl, rfl, rfl, rfl, rfl, fun k => by rw [hcaller]; exact ⟨rfl, rfl⟩,
    ⟨Store.nil_canonical _, Store.nil_canonical _, Store.nil_canonical _, Store.nil_canonical _⟩,
    ⟨rfl, rfl, fun k _ => ?_, nofun⟩, nofun, fun k t ht => ?_⟩
  · rw [hcaller]
    exact iff_of_false (not_not_intro rfl) nofun
  · rw [hcaller] at ht
    cases ht

/-! PROOFS. What a step runs (R71, R200). -/

theorem exec_answers (i : Instr) (s : State) : ∃ t, exec i s = .next t := by
  cases i with
  | _ => exact ⟨_, rfl⟩

/-- Settles O14: every arm of exec answers a next state. -/
theorem everyStepAnswersANextState : Obligations.EveryStepAnswersANextState := by
  intro s
  unfold step engineTurn callerTurn
  split
  · exact ⟨_, rfl⟩
  · split
    · exact ⟨_, rfl⟩
    · exact exec_answers _ _
  · split
    · split
      · exact ⟨_, rfl⟩
      · split
        · exact exec_answers _ _
        · exact ⟨_, rfl⟩
    · exact ⟨_, rfl⟩

section CallerTurn

variable {s : State} {k : Nat} {rest : List Agent} {r : Request}

/-- The turn of a caller whose request `r` decodes to `i`. -/
theorem step_caller {i : Instr} (hs : s.sched = .caller k :: rest) (hk : k < s.callers.length)
    (hr : s.nextRequest k = some r) (hdec : decodeRequest r = .ok i) :
    step s = exec i ((s.afterSched rest).issue k r) := by
  have hr' : (s.afterSched rest).nextRequest k = some r := hr
  simp only [step, hs, callerTurn, State.afterSched_callers, hk, if_true, hr', hdec]

/-- The turn of a caller whose request has a reserved opsel. -/
theorem step_caller_reserved {x : Reject} (hs : s.sched = .caller k :: rest) (hk : k < s.callers.length)
    (hr : s.nextRequest k = some r) (hdec : decodeRequest r = .error x) :
    step s = .next ((s.afterSched rest).issue k r).refuse := by
  have hr' : (s.afterSched rest).nextRequest k = some r := hr
  simp only [step, hs, callerTurn, State.afterSched_callers, hk, if_true, hr', hdec]

/-- The turn of the engine while it has a command. -/
theorem step_engine {i : Instr} (hs : s.sched = .engine :: rest)
    (hcmd : (s.afterSched rest).engineCommand = some i) : step s = exec i (s.afterSched rest) := by
  simp only [step, hs, engineTurn, hcmd]

/-- The turn of the engine without one. -/
theorem step_engine_idle (hs : s.sched = .engine :: rest)
    (hcmd : (s.afterSched rest).engineCommand = none) : step s = .next (s.afterSched rest) := by
  simp only [step, hs, engineTurn, hcmd]

/-- A caller that issues its next request holds it, and keeps its flight and its response; a request from
its program has left the queue. -/
theorem issue_of_nextRequest (hr : s.nextRequest k = some r) :
    ((s.caller k).issue r).req = some r ∧ ((s.caller k).issue r).flight = (s.caller k).flight ∧
      ((s.caller k).issue r).rsp = (s.caller k).rsp ∧
      ((s.caller k).issue r).queue =
        (if (s.caller k).req = none then (s.caller k).queue.tail else (s.caller k).queue) := by
  unfold State.nextRequest at hr
  unfold Caller.issue
  cases hreq : (s.caller k).req with
  | none => exact ⟨rfl, rfl, rfl, rfl⟩
  | some q =>
    rw [hreq] at hr
    exact ⟨hreq.trans hr, rfl, rfl, rfl⟩

theorem afterSched_issue_caller (hk : k < s.callers.length) :
    ((s.afterSched rest).issue k r).caller k = (s.caller k).issue r := by
  rw [State.issue_caller, if_pos ⟨rfl, hk⟩]
  rfl

theorem afterSched_issue_caller_other {j : Nat} (hj : j ≠ k) :
    ((s.afterSched rest).issue k r).caller j = s.caller j := by
  rw [State.issue_caller, if_neg fun h => hj h.1]
  rfl

end CallerTurn

/-- Settles O16: the state exec runs in is `issue` after `afterSched`. -/
theorem stepRunsTheCallersRequest : Obligations.StepRunsTheCallersRequest := by
  intro s k rest r i hs hk hr hdec
  refine ⟨(s.afterSched rest).issue k r, step_caller hs hk hr hdec, rfl, rfl, rfl, by simp,
    fun j hj => afterSched_issue_caller_other hj, ?_⟩
  rw [afterSched_issue_caller hk]
  exact issue_of_nextRequest hr

/-- Settles O17: the engine's command is the word's, none while CMD = 0 or without a controller. -/
theorem stepRunsTheEnginesCommand : Obligations.StepRunsTheEnginesCommand := by
  intro s rest hs
  have hcommand : (s.afterSched rest).engineCommand =
      s.ctl.bind fun c => (decodeCommand c.lay.cmd (s.peek c.lay.miimCmd)).instr? := rfl
  refine ⟨fun c i hc hdec => step_engine hs ?_, fun c hc hcmd => step_engine_idle hs ?_,
    fun hc => step_engine_idle hs ?_⟩
  · rw [hcommand, hc, Option.bind_some, hdec]
    rfl
  · rw [hcommand, hc, Option.bind_some, decodeCommand, hcmd]
    rfl
  · rw [hcommand, hc]
    rfl

/-- Settles O18: the step is `refuse` after `issue`. -/
theorem reservedOpselIsRefused : Obligations.ReservedOpselIsRefused := by
  intro s k rest r x hs hk hr hdec
  have hlt : ((s.afterSched rest).issue k r).cur < ((s.afterSched rest).issue k r).callers.length := by
    simpa using hk
  have hcaller := State.setMe_caller ((s.afterSched rest).issue k r) (fun k => { k with req := none }) hlt
  refine ⟨((s.afterSched rest).issue k r).refuse, step_caller_reserved hs hk hr hdec, rfl, rfl, by simp,
    fun j hj => ?_, ?_⟩
  · exact (hcaller j).trans ((if_neg hj).trans (afterSched_issue_caller_other hj))
  · have hme : ((s.afterSched rest).issue k r).refuse.caller k = { (s.caller k).issue r with req := none } := by
      refine (hcaller k).trans ((if_pos rfl).trans ?_)
      rw [afterSched_issue_caller hk]
    obtain ⟨-, hflight, hrsp, hqueue⟩ := issue_of_nextRequest hr
    rw [hme]
    exact ⟨rfl, hflight, hrsp, hqueue⟩

/-! PROOFS. An error changes nothing (R191). -/

/-- Settles O59: of the moves, only an answer ends the caller's request with an error, and an answer with
an error left the memories as they were. -/
theorem rejectedCallChangesNothing : Obligations.RejectedCallChangesNothing := by
  intro s t i e hreq hdone hok hbus hrefused
  have hlt : s.cur < s.callers.length := by
    by_contra h
    rw [State.me_of_not_lt h] at hreq
    exact hreq rfl
  cases exec_moves e with
  | quiet hm => exact absurd (hm.me ▸ hdone) hreq
  | refused =>
    refine ⟨?_, fun j hj => s.setMe_caller_other _ hj⟩
    exact State.eq_of_fields rfl rfl rfl rfl rfl rfl rfl rfl rfl rfl rfl hrefused rfl rfl rfl
  | answered _ ha =>
    obtain ⟨u, r, rfl, hu, herr⟩ := ha
    have hlt' : u.cur < u.callers.length := by rw [hu.cur, hu.callers]; exact hlt
    have hstatus : (u.respond r).me.rsp.status = r.status := by
      rw [State.respond, u.setMe_me _ hlt']
    cases herr (hstatus ▸ hok)
    exact ⟨rfl, fun j hj => s.setMe_caller_other _ hj⟩
  | constructed c =>
    refine absurd ?_ hok
    rw [State.respond, State.setMe_me _ _ (by simpa using hlt)]
    rfl
  | entered c fl =>
    rw [State.continueAs, State.setMe_me _ _ (by simpa using hlt)] at hdone
    exact absurd (by simpa using hdone) hreq
  | continued u x y _ hu =>
    rw [State.continueAs, State.setMe_me _ _ (by rw [hu.cur, hu.callers]; exact hlt), hu.me] at hdone
    exact absurd hdone hreq
  | ended u r _ hu hr =>
    have hstatus : ((u.release .miim).respond r).me.rsp.status = r.status := by
      rw [State.respond, State.setMe_me _ _ (by
        rw [State.release_cur, State.release_callers, hu.cur, hu.callers]; exact hlt)]
    rw [hstatus] at hok hbus
    exact (hr.elim hok hbus).elim

end Sys2Proof.Machine

namespace Sys2Proof.Machine

/-! SUPPORT. Registers under a read-modify-write, whatever the layout (R63, R71, R102). -/

section Registers

variable (s : State) (c : Ctl)

theorem Ctl.isLoad_iff {o : Nat} : c.isLoad o = true ↔ ∃ l ∈ c.lay.load, l.off = o := by
  cases hl : c.lay.load <;> simp [Ctl.isLoad, hl]

theorem Ctl.strobes_iff {o : Nat} {v : Word} :
    c.strobes o v = true ↔ ∃ l ∈ c.lay.load, l.off = o ∧ v.getLsbD l.bit = true := by
  cases hl : c.lay.load <;> simp [Ctl.strobes, hl, -BitVec.getLsbD_eq_getElem]

/-- A read of a register returns its bits, but for the LOAD bit (R36, R100). -/
theorem State.readValue_getLsbD {o b : Nat} (hr : c.isReg o = true)
    (hb : ∀ l ∈ c.lay.load, l.off = o → l.bit ≠ b) :
    (s.readValue c o).getLsbD b = (s.peek o).getLsbD b := by
  cases hload : c.isLoad o with
  | false => rw [s.readValue_plain c hr hload]
  | true =>
    obtain ⟨l, hl, rfl⟩ := (c.isLoad_iff).mp hload
    rw [s.readValue_load c hl, getLsbD_putBit, if_neg fun h => hb l hl rfl h.2.symm]

/-- The word an RMW stores in its register: the masked bits of the value, and the old bits but for a LOAD
bit outside the mask (R63, R102). -/
theorem State.rmw_peek_same {o : Nat} (m v : Word) (hr : c.isReg o = true) :
    ∃ w, (s.rmw c o m v).peek o = mergeBits w m v ∧
      ∀ b, (∀ l ∈ c.lay.load, l.off = o → l.bit ≠ b) → w.getLsbD b = (s.peek o).getLsbD b := by
  obtain ⟨_, e⟩ | ⟨_, e⟩ := s.rmw_cases c o m v
  · exact ⟨s.peek o, by rw [e, State.writeReg_peek_same _ c _ hr], fun _ _ => rfl⟩
  · exact ⟨s.readValue c o, by rw [e, State.writeReg_peek_same _ c _ hr],
      fun b hb => s.readValue_getLsbD c hr hb⟩

end Registers

/-- Settles O7. -/
theorem rmwChangesExactlyTheMaskedBits : Obligations.RmwChangesExactlyTheMaskedBits := by
  intro s c o m v hr
  obtain ⟨w, hw, hold⟩ := s.rmw_peek_same c m v hr
  refine ⟨fun b hb => ?_, fun b hb hload => ?_, fun o' ho' => s.rmw_peek_other c m v ho'⟩
  · rw [hw, getLsbD_mergeBits, if_pos hb]
  · rw [hw, getLsbD_mergeBits, if_neg (by rw [hb]; exact Bool.false_ne_true), hold b hload]

/-- Settles O8: away from the load register a write is a poke and a read a peek. -/
theorem readReturnsTheLastWrite : Obligations.ReadReturnsTheLastWrite := by
  intro s c o v hr hl
  rw [s.writeReg_plain c v hr hl]
  refine ⟨by rw [State.readValue_plain _ c hr hl, State.peek_poke_same], fun o' ho' hr' hl' => ?_⟩
  rw [State.readValue_plain _ c hr' hl', State.readValue_plain _ c hr' hl', s.peek_poke_other v ho']

/-! SUPPORT. The registers of a valid controller. -/

section ValidRegisters

variable {P : Params} {c : Ctl} (h : c.Valid P)
include h

theorem Ctl.Valid.load_isReg {l : BitLoc} (hl : c.lay.load = some l) : c.isReg l.off = true :=
  Ctl.isReg_of_domain (h.domainOf_portled (Ctl.isLoad_mem ((c.isLoad_iff).mpr ⟨l, hl, rfl⟩)))

/-- An RMW of a global register is a merge in place (R102). -/
theorem Ctl.Valid.rmw_global {o : Nat} (ho : o ∈ c.globalRegs) (s : State) (m v : Word) :
    s.rmw c o m v = s.poke o (mergeBits (s.peek o) m v) :=
  s.rmw_plain c m v (Ctl.isReg_of_domain (Ctl.domainOf_global ho)) (h.notLoad_global ho)

/-- And so is one of a port-LED register but the load register. -/
theorem Ctl.Valid.rmw_led {o : Nat} (ho : o ∈ c.ledRegs) (s : State) (m v : Word) :
    s.rmw c o m v = s.poke o (mergeBits (s.peek o) m v) :=
  s.rmw_plain c m v (Ctl.isReg_of_domain (h.domainOf_led ho)) (h.notLoad_led ho)

/-- A software-LED register is not the load register. -/
theorem Ctl.Valid.swReg_ne_load {p : Nat} (hp : p < c.portCount) {l : BitLoc} (hl : c.lay.load = some l) :
    c.swReg p ≠ l.off := fun he => by
  have hn := h.notLoad_led (Ctl.swReg_mem hp)
  rw [he, (c.isLoad_iff).mpr ⟨l, hl, rfl⟩] at hn
  cases hn

/-- The latches after a write: each takes its register if the write sets the LOAD bit (R101, R165). -/
theorem Ctl.Valid.writeReg_swLatch (s : State) (o : Nat) (v : Word) (p : Nat) :
    (s.writeReg c o v).swLatch.read 0 p =
      if (∃ l ∈ c.lay.load, l.off = o ∧ v.getLsbD l.bit = true) ∧ p < c.portCount
      then s.peek (c.swReg p) else s.swLatch.read 0 p := by
  by_cases hs : c.strobes o v = true
  · have hex := (c.strobes_iff).mp hs
    obtain ⟨l, hl, rfl, -⟩ := id hex
    rw [State.writeReg, if_pos (h.load_isReg hl), if_pos hs, State.latchAll_read]
    by_cases hp : p < c.portCount
    · rw [if_pos hp, if_pos ⟨hex, hp⟩, State.peek_poke_other s v (h.swReg_ne_load hp hl)]
    · rw [if_neg hp, if_neg fun h' => hp h'.2]
      rfl
  · rw [if_neg fun h' => hs ((c.strobes_iff).mpr h'.1), State.writeReg]
    split <;> rfl

end ValidRegisters

/-! SUPPORT. An operation under a lock runs as it would without one: what it does ignores the locks. -/

section IgnoringLocks

/-- `f` neither sees nor touches the locks. -/
structure IgnoresLocks (f : State → State) : Prop where
  acquire : ∀ s d, f (s.acquire d) = (f s).acquire d
  owner : ∀ s d, (f s).owner d = s.owner d

variable {s : State} {c : Ctl} {d : Domain}

/-- Between taking and releasing a free lock, such an operation does what it does without. -/
theorem IgnoresLocks.run {f : State → State} (hf : IgnoresLocks f) (hfree : s.owner d = none) :
    (f (s.acquire d)).release d = f s := by
  rw [hf.acquire, release_acquire_self (by rw [hf.owner, hfree])]

theorem IgnoresLocks.comp {f g : State → State} (hg : IgnoresLocks g) (hf : IgnoresLocks f) :
    IgnoresLocks fun s => g (f s) where
  acquire s d := by rw [hf.acquire, hg.acquire]
  owner s d := by rw [hg.owner, hf.owner]

theorem IgnoresLocks.foldl {α : Type} {f : State → α → State} (hf : ∀ a, IgnoresLocks fun s => f s a)
    (l : List α) : IgnoresLocks fun s => l.foldl f s := by
  induction l with
  | nil => exact ⟨fun _ _ => rfl, fun _ _ => rfl⟩
  | cons a l ih => exact ih.comp (hf a)

theorem OnlyMemories.owner {u : State} (h : OnlyMemories s u) (d : Domain) : u.owner d = s.owner d := by
  cases d
  · exact h.globalOwner
  · exact h.portledOwner
  · exact h.miimOwner

theorem respond_ignoresLocks (r : Response) : IgnoresLocks fun s => s.respond r where
  acquire _ d := by cases d <;> rfl
  owner _ d := by cases d <;> rfl

theorem afterRead_ignoresLocks (c : Ctl) (o : Nat) : IgnoresLocks fun s => s.afterRead c o where
  acquire s d := by
    unfold State.afterRead
    cases d <;> (split; · rfl) <;> split <;> rfl
  owner s d := (s.afterRead_onlyMemories c o).owner d

theorem writeReg_ignoresLocks (c : Ctl) (o : Nat) (v : Word) : IgnoresLocks fun s => s.writeReg c o v where
  acquire s d := by
    unfold State.writeReg
    cases d <;> (split; · split <;> rfl) <;> rfl
  owner s d := (s.writeReg_onlyMemories c o v).owner d

theorem State.acquire_readValue (s : State) (d : Domain) (c : Ctl) (o : Nat) :
    (s.acquire d).readValue c o = s.readValue c o := by
  cases d <;> rfl

theorem rmw_ignoresLocks (c : Ctl) (o : Nat) (m v : Word) : IgnoresLocks fun s => s.rmw c o m v where
  acquire s d := by
    have hwrite (w : Word) := (writeReg_ignoresLocks c o w).acquire
    rw [State.rmw, State.rmw, State.acquire_peek, State.acquire_readValue, (afterRead_ignoresLocks c o).acquire,
      hwrite, hwrite]
    split <;> rfl
  owner s d := (s.rmw_onlyMemories c o m v).owner d

theorem commit_ignoresLocks (c : Ctl) : IgnoresLocks fun s => s.commit c where
  acquire s d := by
    unfold State.commit
    split
    · rfl
    · exact (rmw_ignoresLocks c _ _ _).acquire s d
  owner s d := (s.commit_onlyMemories c).owner d

theorem setBinding_ignoresLocks (port led : Byte) (b : BindMode) :
    IgnoresLocks fun s => s.setBinding port led b where
  acquire _ d := by cases d <;> rfl
  owner _ d := by cases d <;> rfl

/-- An operation that can run, where its body does `f`, does `f`. -/
theorem State.Ready.start_eq (h : s.Ready c d) {body : Ctl → State → State} {f : State → State}
    (hbody : body c (s.acquire d) = f (s.acquire d)) (hf : IgnoresLocks f) :
    (s.start fun c => s.withLock d (body c)) = f s := by
  rw [h.run body, hbody, hf.run h.2]

/-- Where its body answers at once, it answers at once. -/
theorem State.Ready.start_respond (h : s.Ready c d) {body : Ctl → State → State} {r : Response}
    (hbody : body c (s.acquire d) = (s.acquire d).respond r) :
    (s.start fun c => s.withLock d (body c)) = s.respond r :=
  h.start_eq hbody (respond_ignoresLocks r)

/-- A primitive whose register's lock is free does what its body does (R104). -/
theorem State.LockFree.run {o : Nat} (h : s.LockFree c o) {f : State → State} (hf : IgnoresLocks f) :
    s.withLockOf c o f = f s := by
  unfold State.withLockOf
  split
  · have hfree := h _ ‹_›
    rw [s.withLock_free hfree, hf.run hfree]
  · rfl

/-- A caller that is an agent has the response it was answered with (R10, R44). -/
theorem returned_respond {u : State} (hlt : s.cur < s.callers.length) (hu : OnlyMemories s u) (r : Response) :
    Returned s (u.respond r) r :=
  returned_of_callers hlt hu.cur (by rw [State.respond_callers, hu.cur, hu.callers]; rfl)

end IgnoringLocks

/-! PROOFS. Refusals and waiting (R11, R38, R64, R66). -/

section Refusals

variable {s : State} {c : Ctl}

/-- A refusal sets the mark and drops the caller's request, and nothing else (log entry 11). -/
theorem refuse_frame (hlt : s.cur < s.callers.length) :
    s.refuse = { s with refused := true, callers := s.refuse.callers } ∧
      OnlyMe s s.refuse { s.me with req := none } :=
  ⟨rfl, onlyMe_of_callers (f := fun k => { k with req := none }) hlt rfl rfl⟩

/-- Before construction an idle caller's operation is refused, unless it constructs (R38). -/
theorem exec_unconstructed {i : Instr} {q : Request} (henc : encodeRequest i = some q) (hop : q.opsel ≠ 0x30)
    (hidle : s.me.flight = .idle) (hnone : s.ctl = none) : exec i s = .next s.refuse := by
  cases i with
  | ctlConstruct =>
    cases henc
    exact absurd rfl hop
  | miimCmdRead => cases henc
  | miimCmdWrite => cases henc
  | miimRead => simp only [exec, execMiimRead, hidle, s.start_unconstructed hidle hnone]
  | miimWrite => simp only [exec, execMiimWrite, hidle, s.start_unconstructed hidle hnone]
  | raRmw32 => simp only [exec, execRaRmw32, hidle, s.start_unconstructed hidle hnone]
  | _ => exact congrArg _ (s.start_unconstructed hidle hnone)

/-- What an idle caller's primitive does, by whether its offset is one (R64, R104). -/
theorem execRaRead32_idle (h : s.Idle c) (off : Word) :
    exec (.raRead32 off) s = .next (if offsetOk s.params off.toNat then
      s.withLockOf c off.toNat fun s =>
        (s.afterRead c off.toNat).respond (.ok ((s.readValue c off.toNat).setWidth 64))
      else s.refuse) :=
  congrArg _ (s.start_idle c h.2.1 h.2.2.1)

theorem execRaWrite32_idle (h : s.Idle c) (off val : Word) :
    exec (.raWrite32 off val) s = .next (if offsetOk s.params off.toNat then
      s.withLockOf c off.toNat fun s => (s.writeReg c off.toNat val).respond (.ok 0) else s.refuse) :=
  congrArg _ (s.start_idle c h.2.1 h.2.2.1)

theorem execRaRmw32_idle (h : s.Idle c) (off msk val : Word) :
    exec (.raRmw32 off msk val) s = .next (if offsetOk s.params off.toNat then
      if c.domainOf off.toNat = some .miim then rawRmwLoad c msk val s
      else s.withLockOf c off.toNat fun s => (s.rmw c off.toNat msk val).respond (.ok 0)
      else s.refuse) := by
  simp only [exec, execRaRmw32, h.2.1]
  exact congrArg _ (s.start_idle c h.2.1 h.2.2.1)

theorem withLockOf_held {o k : Nat} {d : Domain} {body : State → State} (hd : c.domainOf o = some d)
    (ho : s.owner d = some k) : s.withLockOf c o body = s := by
  simp only [State.withLockOf, hd]
  exact s.withLock_held ho

theorem rawRmwLoad_held {k : Nat} (ho : s.owner .miim = some k) (msk val : Word) :
    rawRmwLoad c msk val s = s := by
  simp only [rawRmwLoad, ho]

end Refusals

/-- Settles O19: the operation is refused at its start. -/
theorem unconstructedBlockRefusesEveryOtherOperation :
    Obligations.UnconstructedBlockRefusesEveryOtherOperation := by
  intro s i q henc hop hlt hidle hnone
  exact ⟨s.refuse, exec_unconstructed henc hop hidle hnone, refuse_frame hlt⟩

/-- Settles O20: the operation under a lock waits in `withLock`, the primitive in `withLockOf`. -/
theorem operationWaitsWhileItsLockIsHeld : Obligations.OperationWaitsWhileItsLockIsHeld := by
  intro s c hidle
  refine ⟨fun i d k hd ho => ?_, fun off val msk d k hok hd ho => ⟨?_, ?_, ?_⟩⟩
  · have hwait (body : Ctl → State → State) : (s.start fun c => s.withLock d (body c)) = s :=
      (s.start_idle c hidle.2.1 hidle.2.2.1).trans (s.withLock_held ho)
    cases i with
    | plActivate =>
      simp only [lockOf] at hd
      split at hd
      · cases hd
        obtain ⟨l, hl⟩ := Option.isSome_iff_exists.mp ‹_›
        refine congrArg _ ((s.start_idle c hidle.2.1 hidle.2.2.1).trans ?_)
        simp only [hl, s.withLock_held ho]
      · cases hd
    | miimRead | miimWrite | ctlConstruct | raRead32 | raWrite32 | raRmw32 | miimCmdRead | miimCmdWrite =>
      cases hd
    | _ =>
      cases hd
      exact congrArg _ (hwait _)
  · rw [execRaRead32_idle hidle, if_pos hok, withLockOf_held hd ho]
  · rw [execRaWrite32_idle hidle, if_pos hok, withLockOf_held hd ho]
  · rw [execRaRmw32_idle hidle, if_pos hok]
    split
    · rename_i hmiim
      cases hd.symm.trans hmiim
      rw [rawRmwLoad_held ho]
    · rw [withLockOf_held hd ho]

/-- Settles O21: the check of the offset comes before the lock. -/
theorem primitiveOutsideTheWindowIsRefused : Obligations.PrimitiveOutsideTheWindowIsRefused := by
  intro s c hidle
  refine ⟨fun o ho => hidle.2.2.2.offset_ok ho, fun off val msk i hoff hi =>
    ⟨s.refuse, ?_, refuse_frame hidle.1⟩⟩
  have hbad : ¬offsetOk s.params off.toNat = true := by
    simp only [offsetOk, Bool.and_eq_true, beq_iff_eq, decide_eq_true_eq]
    omega
  obtain rfl | rfl | rfl := hi
  · rw [execRaRead32_idle hidle, if_neg hbad]
  · rw [execRaWrite32_idle hidle, if_neg hbad]
  · rw [execRaRmw32_idle hidle, if_neg hbad]

end Sys2Proof.Machine

namespace Sys2Proof.Machine

/-! PROOFS. The register access primitives (R100 to R104). -/

section Primitives

variable {s : State} {c : Ctl}

/-- The frame of an answered write: the memories it may touch, and its caller. -/
theorem respond_writeReg_frame (s : State) (c : Ctl) (o : Nat) (v : Word) (r : Response) :
    (s.writeReg c o v).respond r = { s with
      window := ((s.writeReg c o v).respond r).window, swLatch := ((s.writeReg c o v).respond r).swLatch
      callers := ((s.writeReg c o v).respond r).callers, free := ((s.writeReg c o v).respond r).free } := by
  apply State.eq_of_fields <;> simp

theorem respond_rmw_frame (s : State) (c : Ctl) (o : Nat) (m v : Word) (r : Response) :
    (s.rmw c o m v).respond r = { s with
      window := ((s.rmw c o m v).respond r).window, swLatch := ((s.rmw c o m v).respond r).swLatch
      callers := ((s.rmw c o m v).respond r).callers, free := ((s.rmw c o m v).respond r).free } := by
  apply State.eq_of_fields <;> simp

/-- The load register, where there is one, is a register: a write elsewhere sets no LOAD bit. -/
theorem Ctl.Valid.no_load_of_not_reg {P : Params} (h : c.Valid P) {o : Nat} (ho : ¬c.isReg o = true) {p : BitLoc → Prop} :
    ¬∃ l ∈ c.lay.load, l.off = o ∧ p l := by
  rintro ⟨l, hl, rfl, -⟩
  exact ho (h.load_isReg hl)

/-- The latches after an RMW, by the LOAD bit it leaves in the register (R102, R165). -/
theorem Ctl.Valid.rmw_swLatch {P : Params} (h : c.Valid P) (s : State) (o : Nat) (m v : Word) (p : Nat) :
    (s.rmw c o m v).swLatch.read 0 p =
      if (∃ l ∈ c.lay.load, l.off = o ∧ ((s.rmw c o m v).peek o).getLsbD l.bit = true) ∧ p < c.portCount
      then s.peek (c.swReg p) else s.swLatch.read 0 p := by
  by_cases hr : c.isReg o = true
  · obtain ⟨_, e⟩ | ⟨_, e⟩ := s.rmw_cases c o m v
    · rw [e, h.writeReg_swLatch, State.writeReg_peek_same _ c _ hr]
    · rw [e, h.writeReg_swLatch, State.writeReg_peek_same _ c _ hr, State.afterRead_swLatch,
        State.peek_congr (s.afterRead_window c o)]
  · rw [if_neg fun h' => h.no_load_of_not_reg hr h'.1]
    have hn (w : Word) : ¬((∃ l ∈ c.lay.load, l.off = o ∧ w.getLsbD l.bit = true) ∧ p < c.portCount) :=
      fun h' => h.no_load_of_not_reg hr h'.1
    obtain ⟨_, e⟩ | ⟨_, e⟩ := s.rmw_cases c o m v
    · rw [e, h.writeReg_swLatch, if_neg (hn _)]
    · rw [e, h.writeReg_swLatch, if_neg (hn _), State.afterRead_swLatch]

end Primitives

/-- Settles O22: the word is `readValue`, and the read takes a free value at most. -/
theorem raRead32ReturnsTheRegister : Obligations.RaRead32ReturnsTheRegister := by
  intro s c off hidle hok hfree
  have hlock : IgnoresLocks fun s : State =>
      (s.afterRead c off.toNat).respond (.ok ((s.readValue c off.toNat).setWidth 64)) :=
    ⟨fun s d => by
      rw [(afterRead_ignoresLocks c _).acquire, s.acquire_readValue, (respond_ignoresLocks _).acquire],
     fun s d => by rw [(respond_ignoresLocks _).owner, (afterRead_ignoresLocks c _).owner]⟩
  refine ⟨(s.afterRead c off.toNat).respond (.ok ((s.readValue c off.toNat).setWidth 64)),
    s.readValue c off.toNat, ?_, returned_respond hidle.1 (s.afterRead_onlyMemories c _) _, ?_,
    fun hr b hb => s.readValue_getLsbD c hr hb⟩
  · rw [execRaRead32_idle hidle, if_pos hok, hfree.run hlock]
  · apply State.eq_of_fields <;> simp

/-- Settles O23: the step is `writeReg`. -/
theorem raWrite32ReplacesTheRegister : Obligations.RaWrite32ReplacesTheRegister := by
  intro s c off val hidle hok hfree
  refine ⟨(s.writeReg c off.toNat val).respond (.ok 0), ?_,
    returned_respond hidle.1 (s.writeReg_onlyMemories c _ _) _, respond_writeReg_frame s c _ _ _,
    fun hr => s.writeReg_peek_same c val hr, fun o ho => s.writeReg_peek_other c val ho,
    fun p => hidle.2.2.2.writeReg_swLatch s _ val p⟩
  rw [execRaWrite32_idle hidle, if_pos hok,
    hfree.run ((respond_ignoresLocks _).comp (writeReg_ignoresLocks c _ val))]

/-- Settles O24: the step is `rmw`. -/
theorem raRmw32MergesUnderItsMask : Obligations.RaRmw32MergesUnderItsMask := by
  intro s c off msk val hidle hok hfree hmiim
  refine ⟨(s.rmw c off.toNat msk val).respond (.ok 0), ?_,
    returned_respond hidle.1 (s.rmw_onlyMemories c _ _ _) _, respond_rmw_frame s c _ _ _ _,
    fun o ho => s.rmw_peek_other c msk val ho, fun hr => ?_,
    fun p => hidle.2.2.2.rmw_swLatch s _ msk val p⟩
  · rw [execRaRmw32_idle hidle, if_pos hok, if_neg hmiim,
      hfree.run ((respond_ignoresLocks _).comp (rmw_ignoresLocks c _ msk val))]
  · obtain ⟨hmasked, hkept, -⟩ := rmwChangesExactlyTheMaskedBits s c off.toNat msk val hr
    exact ⟨hmasked, hkept⟩

/-- Settles O25: the load step is `rawRmwLoad`, the store step `rawRmwStore`. -/
theorem raRmw32OnMiimCmdTakesTwoSteps : Obligations.RaRmw32OnMiimCmdTakesTwoSteps := by
  intro s c off msk val hoff
  refine ⟨fun ⟨hidle, hfree⟩ => ?_, fun old hlt hflight hctl hvalid => ?_⟩
  · have hreg := Ctl.isReg_of_domain hidle.2.2.2.domainOf_miimCmd
    have hok : offsetOk s.params off.toNat = true := by
      obtain ⟨h4, hwin⟩ := hidle.2.2.2.offset_ok hreg
      rw [hoff, offsetOk, h4, decide_eq_true hwin]
      rfl
    refine ⟨(s.acquire .miim).continueAs (.rawRmw msk val (s.peek c.lay.miimCmd)), ?_, rfl,
      State.continueAs_onlyMe _ hidle.1 rfl rfl⟩
    rw [execRaRmw32_idle hidle, if_pos hok, hoff, if_pos hidle.2.2.2.domainOf_miimCmd]
    simp only [rawRmwLoad, hfree]
  · have hreg := Ctl.isReg_of_domain hvalid.domainOf_miimCmd
    have hstore : rawRmwStore c msk val old s =
        ((s.poke c.lay.miimCmd (mergeBits old msk val)).release .miim).respond (.ok 0) := by
      rw [rawRmwStore, s.writeReg_plain c _ hreg hvalid.notLoad_miimCmd]
    refine ⟨rawRmwStore c msk val old s, ?_, ?_⟩
    · simp only [exec, execRaRmw32, hflight, hctl]
    · rw [hstore]
      exact ⟨returned_of_callers hlt rfl rfl, rfl, s.peek_poke_same _ _, fun o ho => s.peek_poke_other _ ho⟩

/-! PROOFS. One register in place: the administrative operations (R110, R111, R140). -/

section OneRegister

variable {s : State} {c : Ctl}

/-- A merge in place changes only the bits of its mask. -/
theorem onlyBits_poke_merge (s : State) (o : Nat) (m v : Word) (r : Response) :
    OnlyBits s ((s.poke o (mergeBits (s.peek o) m v)).respond r) o m := by
  refine ⟨fun b hb => ?_, fun o' ho' => s.peek_poke_other _ ho'⟩
  rw [State.respond_peek, s.peek_poke_same, getLsbD_mergeBits, if_neg (by rw [hb]; exact Bool.false_ne_true)]

/-- A bit set in place is set. -/
theorem getLsbD_poke_setBit (s : State) (o : Nat) {b : Nat} (hb : b < 32) (r : Response) :
    (((s.poke o (mergeBits (s.peek o) (mask b 1) ((1 : Word) <<< b))).respond r).peek o).getLsbD b = true := by
  rw [State.respond_peek, s.peek_poke_same, getLsbD_mergeBits,
    if_pos (getLsbD_mask_inside hb (Nat.le_refl b) (Nat.lt_succ_self b))]
  simp [hb]

theorem execMiimEnable_ready (h : s.Ready c .global) :
    exec .miimEnable s = .next ((s.rmw c c.lay.miimEn.off (mask c.lay.miimEn.bit 1)
      ((1 : Word) <<< c.lay.miimEn.bit)).respond (.ok 0)) :=
  congrArg _ (h.start_eq rfl ((respond_ignoresLocks _).comp (rmw_ignoresLocks c _ _ _)))

theorem execPlActivate_ready (h : s.Ready c .global) {l : BitLoc} (hl : c.lay.plActive = some l) :
    exec .plActivate s =
      .next ((s.rmw c l.off (mask l.bit 1) ((1 : Word) <<< l.bit)).respond (.ok 0)) := by
  refine congrArg _ ((s.start_idle c h.1.2.1 h.1.2.2.1).trans ?_)
  simp only [hl]
  rw [s.withLock_free h.2]
  exact ((respond_ignoresLocks _).comp (rmw_ignoresLocks c _ _ _)).run h.2

end OneRegister

/-- Settles O26: one bit set in place. -/
theorem miimEnableSetsTheEnableBit : Obligations.MiimEnableSetsTheEnableBit := by
  intro s c h
  have hbit : c.lay.miimEn.bit < 32 := h.1.2.2.2.global_fits _ List.mem_cons_self
  rw [execMiimEnable_ready h, h.1.2.2.2.rmw_global c.miimEn_mem]
  exact ⟨_, rfl, returned_respond h.1.1 (s.poke_onlyMemories _ _) _, rfl, getLsbD_poke_setBit s _ hbit _,
    onlyBits_poke_merge s _ _ _ _⟩

/-- Settles O39: one bit set in place, or no access and no lock where the family has no such bit. -/
theorem plActivateSetsTheActiveBit : Obligations.PlActivateSetsTheActiveBit := by
  intro s c h
  refine ⟨fun hnone => ⟨s.respond (.ok 0), ?_, returned_respond h.1 (.refl s) _, rfl⟩, fun l hl hfree => ?_⟩
  · refine congrArg _ ((s.start_idle c h.2.1 h.2.2.1).trans ?_)
    simp only [hnone]
  · have hbit : l.bit < 32 := h.2.2.2.global_fits { off := l.off, lsb := l.bit, width := 1 } (by
      simp [Ctl.globalFields, hl])
    rw [execPlActivate_ready ⟨h, hfree⟩ hl, h.2.2.2.rmw_global (Ctl.plActive_mem hl)]
    exact ⟨_, rfl, returned_respond h.1 (s.poke_onlyMemories _ _) _, rfl, getLsbD_poke_setBit s _ hbit _,
      onlyBits_poke_merge s _ _ _ _⟩

/-- Settles O27: the low bits of the mode put in the clock field. -/
theorem miimSetClockWritesTheClockField : Obligations.MiimSetClockWritesTheClockField := by
  intro s c mode h
  cases hclk : c.lay.miimClk with
  | none =>
    refine ⟨s.respond (.ok 0), congrArg _ (h.start_respond ?_), returned_respond h.1.1 (.refl s) _, rfl, rfl⟩
    simp only [hclk]
  | some f =>
    have hfits : f.lsb + f.width ≤ 32 := h.1.2.2.2.global_fits f (by simp [Ctl.globalFields, hclk])
    have hexec : exec (.miimSetClock mode) s = .next ((s.rmw c f.off (mask f.lsb f.width)
        (mode.setWidth 32 <<< f.lsb)).respond (.ok 0)) := by
      refine congrArg _ (h.start_eq ?_ ((respond_ignoresLocks _).comp (rmw_ignoresLocks c _ _ _)))
      simp only [hclk]
    rw [hexec, h.1.2.2.2.rmw_global (Ctl.miimClk_mem hclk)]
    refine ⟨_, rfl, returned_respond h.1.1 (s.poke_onlyMemories _ _) _, rfl, ?_, onlyBits_poke_merge s _ _ _ _⟩
    rw [State.respond_peek, s.peek_poke_same]
    refine fld_mergeBits (fun i hi => getLsbD_mask_inside (by omega) (by omega) (by omega)) (fun i hi => ?_)
      (fun i hi => ?_)
    · rw [getLsbD_fld, decide_eq_true hi, Bool.and_true, Nat.zero_add]
      simp [show f.lsb + i < 32 by omega, show i < 32 by omega]
    · rw [getLsbD_fld, decide_eq_false (by omega), Bool.and_false]

end Sys2Proof.Machine

namespace Sys2Proof.Machine

/-! SUPPORT. The invocation of a transaction (R84, R112). -/

section Invocation

variable {s : State} {c : Ctl}

theorem tgtOf_valid {b : Byte} (h : b.toNat < 32) : tgtOf b = some (b.setWidth 5) := if_pos h

theorem tgtOf_invalid {b : Byte} (h : 32 ≤ b.toNat) : tgtOf b = none := if_neg (Nat.not_lt.mpr h)

/-- A legal sub-register: NONE for 0xFF, itself otherwise (R84). -/
theorem subOf_valid {b : Byte} (h : b.toNat < 32 ∨ b = 0xFF) :
    subOf b = some (if b = 0xFF then none else some (b.setWidth 5)) := by
  obtain h | rfl := h
  · have hne : b ≠ 0xFF := fun he => by rw [he] at h; exact absurd h (by decide)
    rw [subOf, if_pos h, if_neg hne]
  · rfl

theorem subOf_invalid {b : Byte} (h : 32 ≤ b.toNat) (hne : b ≠ 0xFF) : subOf b = none := by
  rw [subOf, if_neg (Nat.not_lt.mpr h), if_neg hne]

/-- An argument out of range is reported before the lock is looked at (R112). -/
theorem miimInvoke_invalid {tgt sub : Byte} (h : 32 ≤ tgt.toNat ∨ 32 ≤ sub.toNat ∧ sub ≠ 0xFF) (wr : Bool)
    (dat : Half) (s : State) : miimInvoke tgt sub wr dat s = s.respond (.error .invalidArgument) := by
  unfold miimInvoke
  by_cases ht : tgt.toNat < 32
  · obtain ⟨hs, hne⟩ := h.resolve_left (Nat.not_le.mpr ht)
    simp only [tgtOf_valid ht, subOf_invalid hs hne]
  · simp only [tgtOf_invalid (Nat.not_lt.mp ht)]

/-- A valid invocation takes the free lock and is in LATCH (R112). -/
theorem miimInvoke_free {tgt sub : Byte} (ht : tgt.toNat < 32) (hs : sub.toNat < 32 ∨ sub = 0xFF) (wr : Bool)
    (dat : Half) (hfree : s.miimOwner = none) :
    miimInvoke tgt sub wr dat s = (s.acquire .miim).continueAs (.miim {
      phase := .latch, tgt := tgt.setWidth 5
      sub := if sub = 0xFF then none else some (sub.setWidth 5), wr, dat }) := by
  simp only [miimInvoke, tgtOf_valid ht, subOf_valid hs, State.owner, hfree]

/-- A valid invocation waits while the lock is held (R112). -/
theorem miimInvoke_held {tgt sub : Byte} (ht : tgt.toNat < 32) (hs : sub.toNat < 32 ∨ sub = 0xFF) (wr : Bool)
    (dat : Half) {k : Nat} (hheld : s.miimOwner = some k) : miimInvoke tgt sub wr dat s = s := by
  simp only [miimInvoke, tgtOf_valid ht, subOf_valid hs, State.owner, hheld]

/-- The invocation of a read or of a write by an idle caller. -/
theorem exec_invocation (h : s.Idle c) (tgt sub : Byte) (data : Half) (wr : Bool) :
    exec (if wr then .miimWrite tgt sub data else .miimRead tgt sub) s =
      .next (miimInvoke tgt sub wr (if wr then data else 0) s) := by
  obtain ⟨-, hidle, hc, -⟩ := h
  cases wr with
  | true => simp only [exec, execMiimWrite, hidle, s.start_idle c hidle hc, if_true]
  | false =>
    simp only [exec, execMiimRead, hidle, s.start_idle c hidle hc, Bool.false_eq_true, if_false]

end Invocation

/-- Settles O28: the step is `miimInvoke`. -/
theorem transactionInvocationValidatesThenTakesTheLock :
    Obligations.TransactionInvocationValidatesThenTakesTheLock := by
  intro s c tgt sub data wr h i
  have hexec : exec i s = .next (miimInvoke tgt sub wr (if wr then data else 0) s) :=
    exec_invocation h tgt sub data wr
  rw [hexec]
  refine ⟨fun hbad => ?_, fun ht hs hfree => ?_, fun ht hs hheld => ?_⟩
  · rw [miimInvoke_invalid hbad]
    exact ⟨_, rfl, returned_respond h.1 (.refl s) _, rfl⟩
  · rw [miimInvoke_free ht hs _ _ hfree]
    exact ⟨_, rfl, rfl, State.continueAs_onlyMe _ h.1 rfl rfl⟩
  · obtain ⟨k, hk⟩ := Option.ne_none_iff_exists'.mp hheld
    rw [miimInvoke_held ht hs _ _ hk]

/-! PROOFS. The polls of a transaction (R115 to R117, R123). -/

section Polls

variable {s : State} {c : Ctl} {x : Tx}

theorem miimPoll_goes_on (hcmd : cmdBit c.lay.cmd (s.peek c.lay.miimCmd) = true)
    (hk : x.k + 1 ≠ s.params.pollMax) :
    miimPoll c x s = s.continueAs (.miim { x with k := x.k + 1, last := s.peek c.lay.miimCmd }) := by
  simp only [miimPoll, hcmd, if_true, if_neg hk]

theorem miimPoll_completes (hcmd : cmdBit c.lay.cmd (s.peek c.lay.miimCmd) = false) :
    miimPoll c x s = miimComplete c x (s.peek c.lay.miimCmd) s := by
  simp only [miimPoll, hcmd, Bool.false_eq_true, if_false]

theorem miimComplete_write (hw : x.wr = true) (last : Word) (s : State) :
    miimComplete c x last s = (s.release .miim).respond (.ok 0) := by
  simp only [miimComplete, hw, if_true]

theorem miimComplete_read (hw : x.wr = false) (ht : x.tainted = false) (last : Word) (s : State) :
    miimComplete c x last s =
      (s.release .miim).respond (.ok ((dataField c.lay.cmd last).setWidth 64)) := by
  simp only [miimComplete, hw, ht, Bool.false_eq_true, if_false]

theorem miimComplete_read_tainted (hw : x.wr = false) (ht : x.tainted = true) (last : Word) (s : State) :
    miimComplete c x last s = (s.tick.release .miim).respond (.ok (s.freeHalf.setWidth 64)) := by
  simp only [miimComplete, hw, ht, Bool.false_eq_true, if_false, if_true]

/-- A completion leaves its caller idle and the MIIM lock free. -/
theorem miimComplete_ends (hlt : s.cur < s.callers.length) (last : Word) :
    (miimComplete c x last s).me.flight = .idle ∧ (miimComplete c x last s).miimOwner = none := by
  unfold miimComplete
  split
  · exact ⟨congrArg Caller.flight (State.setMe_me _ _ hlt), rfl⟩
  · split
    · exact ⟨congrArg Caller.flight (State.setMe_me _ _ hlt), rfl⟩
    · exact ⟨congrArg Caller.flight (State.setMe_me _ _ hlt), rfl⟩

theorem continueAs_me_flight {u : State} (hlt : u.cur < u.callers.length) (fl : Flight) :
    (u.continueAs fl).me.flight = fl :=
  congrArg Caller.flight (u.setMe_me _ hlt)

end Polls

/-- Settles O31. -/
theorem pollStepCountsWhileTheStrobeIsSet : Obligations.PollStepCountsWhileTheStrobeIsSet := by
  intro s c x i hin hi hphase hcmd hk
  rw [hin.exec_eq hi, miimPhaseStep_poll hphase, miimPoll_goes_on hcmd hk]
  exact ⟨_, rfl, rfl, State.continueAs_onlyMe _ hin.1 rfl rfl⟩

/-- Settles O33: by the direction, and for a read by the taint. -/
theorem pollOfAClearStrobeCompletes : Obligations.PollOfAClearStrobeCompletes := by
  intro s c x hin hphase hcmd
  have hexec {i : Instr} (hi : IsTransaction x.wr i) :
      exec i s = .next (miimComplete c x (s.peek c.lay.miimCmd) s) := by
    rw [hin.exec_eq hi, miimPhaseStep_poll hphase, miimPoll_completes hcmd]
  refine ⟨fun tgt sub hw => ?_, fun tgt sub data hw => ?_⟩
  · rw [hexec (i := .miimRead tgt sub) hw]
    cases ht : x.tainted with
    | true =>
      rw [miimComplete_read_tainted hw ht]
      exact ⟨_, s.freeHalf, rfl, returned_of_callers hin.1 rfl rfl, nofun, rfl⟩
    | false =>
      rw [miimComplete_read hw ht]
      exact ⟨_, dataField c.lay.cmd (s.peek c.lay.miimCmd), rfl, returned_of_callers hin.1 rfl rfl,
        fun _ => rfl, rfl⟩
  · rw [hexec (i := .miimWrite tgt sub data) hw, miimComplete_write hw]
    exact ⟨_, rfl, returned_of_callers hin.1 rfl rfl, rfl⟩

theorem Tx.remaining_le (x : Tx) (pollMax : Nat) : x.remaining pollMax ≤ pollMax + 3 := by
  unfold Tx.remaining
  split <;> omega

/-- Settles O34: phase by phase; a poll that does not end the transaction is one more of POLL_MAX. -/
theorem transactionEndsWithinItsBound : Obligations.TransactionEndsWithinItsBound := by
  intro s c x i hin hi hk
  have hlt := hin.1
  refine ⟨x.remaining_le _, miimPhaseStep c x s, hin.exec_eq hi, ?_⟩
  cases hphase : x.phase with
  | latch =>
    rw [miimPhaseStep_latch hphase, miimLatch_eq]
    refine .inr ⟨_, continueAs_me_flight hlt _, rfl, hk, ?_⟩
    simp only [Tx.remaining, hphase]
    omega
  | issueRd =>
    rw [miimPhaseStep_issueRd hphase]
    refine .inr ⟨_, continueAs_me_flight hlt _, rfl, hk, ?_⟩
    simp only [Tx.remaining, hphase]
    omega
  | issueWr =>
    rw [miimPhaseStep_issueWr hphase]
    refine .inr ⟨_, continueAs_me_flight (by simpa using hlt) _, rfl, Nat.zero_lt_of_lt hk, ?_⟩
    simp only [Tx.remaining, hphase]
    omega
  | poll =>
    rw [miimPhaseStep_poll hphase]
    cases hcmd : cmdBit c.lay.cmd (s.peek c.lay.miimCmd) with
    | false =>
      rw [miimPoll_completes hcmd]
      exact .inl (miimComplete_ends hlt _)
    | true =>
      by_cases hlast : x.k + 1 = s.params.pollMax
      · rw [miimPoll_last hcmd hlast]
        exact .inl ⟨congrArg Caller.flight (State.setMe_me _ _ hlt), rfl⟩
      · rw [miimPoll_goes_on hcmd hlast]
        refine .inr ⟨_, continueAs_me_flight hlt _, rfl, Nat.lt_of_le_of_ne hk hlast, ?_⟩
        simp only [Tx.remaining, hphase]
        omega

end Sys2Proof.Machine

namespace Sys2Proof.Machine

/-! SUPPORT. The command word after an engine step (R118, R119). -/

section CompletedWord

variable {L : CmdLayout} (hL : cmdLayoutOk L = true) (w : Word) (d : Half)

theorem getLsbD_clearCmd (L : CmdLayout) (w : Word) (b : Nat) :
    (clearCmd L w).getLsbD b = (w.getLsbD b && !(mask L.cmdLsb 1).getLsbD b) := by
  rw [clearCmd, BitVec.getLsbD_and, BitVec.getLsbD_not]
  by_cases hb : b < 32
  · rw [decide_eq_true hb, Bool.true_and]
  · rw [BitVec.getLsbD_of_ge w b (by omega), Bool.false_and, Bool.false_and]

/-- Away from the strobe the word with its strobe cleared is the word. -/
theorem getLsbD_clearCmd_of_ne {b : Nat} (h : b ≠ L.cmdLsb) : (clearCmd L w).getLsbD b = w.getLsbD b := by
  rw [getLsbD_clearCmd, getLsbD_mask_outside (by omega), Bool.not_false, Bool.and_true]

theorem cmdBit_clearCmd : cmdBit L (clearCmd L w) = false := by
  rw [cmdBit_eq, getLsbD_clearCmd]
  by_cases h : L.cmdLsb < 32
  · rw [getLsbD_mask_inside h (Nat.le_refl _) (Nat.lt_succ_self _), Bool.not_true, Bool.and_false]
  · rw [BitVec.getLsbD_of_ge w _ (by omega), Bool.false_and]

/-- Away from DATA the word with its DATA replaced is the word. -/
theorem getLsbD_putData_outside {b : Nat} (h : b < L.dataLsb ∨ L.dataLsb + 16 ≤ b) :
    (putData L w d).getLsbD b = w.getLsbD b := by
  rw [putData, BitVec.getLsbD_or, BitVec.getLsbD_and, BitVec.getLsbD_not, getLsbD_mask_outside h,
    getLsbD_placed_outside d h, Bool.or_false, Bool.not_false, Bool.and_true]
  by_cases hb : b < 32
  · rw [decide_eq_true hb, Bool.and_true]
  · rw [BitVec.getLsbD_of_ge w b (by omega), Bool.false_and]

theorem getLsbD_putData_inside {i : Nat} (h : i < 16) (h32 : L.dataLsb + i < 32) :
    (putData L w d).getLsbD (L.dataLsb + i) = d.getLsbD i := by
  rw [putData, BitVec.getLsbD_or, BitVec.getLsbD_and, BitVec.getLsbD_not,
    getLsbD_mask_inside h32 (by omega) (by omega), getLsbD_placed d h32]
  simp only [Bool.not_true, Bool.and_false, Bool.false_or]

/-- A completion leaves every bit but CMD and DATA (R118, R119). -/
theorem getLsbD_completed {b : Nat} (h : (mask L.cmdLsb 1 ||| mask L.dataLsb 16).getLsbD b = false) :
    (clearCmd L (putData L w d)).getLsbD b = w.getLsbD b := by
  rw [BitVec.getLsbD_or, Bool.or_eq_false_iff] at h
  obtain ⟨hcmd, hdata⟩ := h
  rw [getLsbD_clearCmd, hcmd, Bool.not_false, Bool.and_true]
  by_cases hb : b < 32
  · rw [Bool.eq_false_iff, ne_eq, getLsbD_mask_iff] at hdata
    exact getLsbD_putData_outside w d (by omega)
  · rw [BitVec.getLsbD_of_ge _ b (by omega), BitVec.getLsbD_of_ge _ b (by omega)]

include hL

theorem phyField_clearCmd : phyField L (clearCmd L w) = phyField L w := by
  have hf := cmdLayoutOk_fields hL
  apply BitVec.eq_of_getLsbD_eq
  intro i hi
  rw [getLsbD_phyField, getLsbD_phyField, getLsbD_clearCmd_of_ne w (by omega)]

theorem regField_clearCmd : regField L (clearCmd L w) = regField L w := by
  have hf := cmdLayoutOk_fields hL
  apply BitVec.eq_of_getLsbD_eq
  intro i hi
  rw [getLsbD_regField, getLsbD_regField, getLsbD_clearCmd_of_ne w (by omega)]

theorem dataField_clearCmd : dataField L (clearCmd L w) = dataField L w := by
  have hf := cmdLayoutOk_fields hL
  apply BitVec.eq_of_getLsbD_eq
  intro i hi
  rw [getLsbD_dataField, getLsbD_dataField, getLsbD_clearCmd_of_ne w (by omega)]

theorem phyField_putData : phyField L (putData L w d) = phyField L w := by
  have hf := cmdLayoutOk_fields hL
  apply BitVec.eq_of_getLsbD_eq
  intro i hi
  rw [getLsbD_phyField, getLsbD_phyField, getLsbD_putData_outside w d (by omega)]

theorem regField_putData : regField L (putData L w d) = regField L w := by
  have hf := cmdLayoutOk_fields hL
  apply BitVec.eq_of_getLsbD_eq
  intro i hi
  rw [getLsbD_regField, getLsbD_regField, getLsbD_putData_outside w d (by omega)]

theorem dataField_putData : dataField L (putData L w d) = d := by
  have hf := cmdLayoutOk_fields hL
  apply BitVec.eq_of_getLsbD_eq
  intro i hi
  rw [getLsbD_dataField, getLsbD_putData_inside w d hi (by omega), decide_eq_true hi, Bool.true_and]

end CompletedWord

/-! SUPPORT. The engine's step on the command in MIIM_CMD (R118, R119). -/

section EngineStep

variable {s : State} {c : Ctl} {i : Instr}

theorem engineStep_command (hc : s.ctl = some c)
    (hdec : decodeCommand c.lay.cmd (s.peek c.lay.miimCmd) = .ok i) (body : Ctl → State) :
    s.engineStep i body = body c := by
  have hcmd : s.engineCommand = some i := by
    rw [State.engineCommand, hc, Option.bind_some, hdec]
    rfl
  simp only [State.engineStep, hc, hcmd, if_true]

theorem execMiimCmdWrite_command {data : Half} {reg phy : BusAddr} {rsv : Word} (hc : s.ctl = some c)
    (hdec : decodeCommand c.lay.cmd (s.peek c.lay.miimCmd) = .ok (.miimCmdWrite data reg phy rsv)) :
    exec (.miimCmdWrite data reg phy rsv) s =
      .next (engineComplete c true phy reg rsv s (engineWrite c phy reg data s)) :=
  congrArg _ (engineStep_command hc hdec _)

theorem execMiimCmdRead_command {data : Half} {reg phy : BusAddr} {rsv : Word} (hc : s.ctl = some c)
    (hdec : decodeCommand c.lay.cmd (s.peek c.lay.miimCmd) = .ok (.miimCmdRead data reg phy rsv)) :
    exec (.miimCmdRead data reg phy rsv) s =
      .next (engineComplete c false phy reg rsv s (engineRead c phy reg s)) :=
  congrArg _ (engineStep_command hc hdec _)

/-- With nothing tainted and the reserved bits 0 the command is executed as it stands (R118). -/
theorem engineComplete_clean {wr : Bool} {t r : BusAddr} {body : State} (h : s.tainted = false) :
    engineComplete c wr t r 0 s body = body := by
  simp only [engineComplete, h, ne_eq, not_true_eq_false, if_false, Bool.false_eq_true]

/-- Otherwise the data is any value, and after it nothing but expander registers and the count of free
values changes (R119, I4); with the reserved bits 0 only those the commands write. -/
theorem engineComplete_dirty {wr : Bool} {t r : BusAddr} {rsv : Word} {body : State}
    (h : s.tainted = true ∨ rsv ≠ 0) :
    ∃ u, engineComplete c wr t r rsv s body = u ∧ u = { anyData c s with exp := u.exp, free := u.free } ∧
      (rsv = 0 → ∀ a b : BusAddr, ¬(wr = true ∧ a = t ∧ b = r) →
        (∀ x ∈ s.miimStale, ¬(x.wr = true ∧ a = x.tgt ∧ b = x.reg)) →
        u.exp.read 0 (expKey a b) = s.exp.read 0 (expKey a b)) := by
  by_cases hr : rsv = 0
  · have ht : s.tainted = true := h.resolve_right (not_not_intro hr)
    refine ⟨engineTainted c wr t r s, ?_, ?_, fun _ a b hcmd hstale => ?_⟩
    · simp only [engineComplete, hr, ht, ne_eq, not_true_eq_false, if_false, if_true]
    · rw [engineTainted, scrambleStale_eq, scrambleIfWrite_eq]
    · rw [engineTainted, scrambleStale_read _ a b, scrambleIfWrite_read _ _ _ _ _ _ hcmd]
      · rfl
      · rw [scrambleIfWrite_eq]
        exact hstale
  · refine ⟨engineReserved c s, if_pos hr, ?_, fun h0 => absurd h0 hr⟩
    rw [engineReserved, scrambleAll_eq]

end EngineStep

/-! PROOFS. The engine (R118, R119). -/

/-- Settles O35: the completion is `engineWrite` or `engineRead`. -/
theorem engineExecutesTheCommand : Obligations.EngineExecutesTheCommand := by
  intro s c data reg phy rsv hc hvalid hrsv hclean w
  have hL := hvalid.cmd
  subst hrsv
  refine ⟨fun hdec => ?_, fun hdec => ?_⟩
  · rw [execMiimCmdWrite_command hc hdec, engineComplete_clean hclean]
    exact ⟨_, rfl, rfl, fun o ho => State.peek_poke_other _ _ ho, State.peek_poke_same _ _ _,
      fun a b => s.expWrite_read phy reg a b data⟩
  · rw [execMiimCmdRead_command hc hdec, engineComplete_clean hclean]
    have hpeek : (engineRead c phy reg s).peek c.lay.miimCmd =
        clearCmd c.lay.cmd (putData c.lay.cmd w (s.expRead phy reg)) := State.peek_poke_same _ _ _
    refine ⟨_, rfl, ?_, fun o ho => ?_, ?_, fun hvol => ?_, fun b hb => ?_⟩
    · rw [engineRead, s.afterExpRead_eq]
      rfl
    · rw [engineRead, State.peek_poke_other _ _ ho, s.afterExpRead_eq]
      rfl
    · rw [hpeek, cmdBit_clearCmd]
    · rw [hpeek, dataField_clearCmd hL, dataField_putData hL, State.expRead, if_neg hvol]
    · rw [hpeek, getLsbD_completed _ _ hb]

/-- Settles O36: both dirty completions write MIIM_CMD as `anyData` does. -/
theorem taintedCompletionTouchesOnlyItsCommands : Obligations.TaintedCompletionTouchesOnlyItsCommands := by
  intro s c i data reg phy rsv wr hc hvalid hi hdec hdirty
  have hdirty' : s.tainted = true ∨ rsv ≠ 0 := by
    obtain hstale | hholder | hrsv := hdirty
    · exact .inl (by rw [State.tainted, Option.isSome_iff_ne_none.mpr hstale, Bool.true_or])
    · exact .inl (by rw [State.tainted, hholder, Bool.or_true])
    · exact .inr hrsv
  obtain ⟨body, hexec⟩ : ∃ body, exec i s = .next (engineComplete c wr phy reg rsv s body) := by
    subst hi
    cases wr with
    | true => exact ⟨_, execMiimCmdWrite_command hc hdec⟩
    | false => exact ⟨_, execMiimCmdRead_command hc hdec⟩
  obtain ⟨u, hu, hframe, hexp⟩ := engineComplete_dirty (c := c) (wr := wr) (t := phy) (r := reg) (body := body)
    hdirty'
  have hpeek (o : Nat) : u.peek o = (anyData c s).peek o := State.peek_congr (by rw [hframe]) o
  have hcmd : u.peek c.lay.miimCmd =
      clearCmd c.lay.cmd (putData c.lay.cmd (s.peek c.lay.miimCmd) s.freeHalf) := by
    rw [hpeek, anyData, State.peek_poke_same]
  refine ⟨u, by rw [hexec, hu], ?_, fun o ho => ?_, ?_, fun b hb => ?_, hexp⟩
  · have hwindow : u.window = (anyData c s).window := by rw [hframe]
    rw [hwindow]
    exact hframe
  · rw [hpeek, anyData, State.peek_poke_other _ _ ho]
    rfl
  · rw [hcmd, cmdBit_clearCmd]
  · rw [hcmd, getLsbD_completed _ _ hb]

end Sys2Proof.Machine

namespace Sys2Proof.Machine

/-! SUPPORT. A whole transaction, step by step: the states its caller goes through while no other caller
moves (R120, R121). -/

section WholeTransaction

/-- The state while caller `k` is inside an operation on MIIM_CMD: it holds the MIIM lock and its request
`r`; the schedule, its flight, the window, the expander and the stale command are the step's. -/
def State.during (s : State) (k : Nat) (r : Request) (sched : List Agent) (fl : Flight) (window : Store Word)
    (exp : Store Half) (stale : Option Stale) : State :=
  { s with
    cur := k, sched, window, exp, miimStale := stale, miimOwner := some k
    callers := s.callers.modify k fun x => { x.issue r with flight := fl } }

variable {s : State} {k : Nat} {r : Request} {c : Ctl} {sched rest : List Agent} {fl : Flight}
  {window : Store Word} {exp : Store Half} {stale : Option Stale}

theorem Caller.issue_req (x : Caller) (r : Request) : (x.issue r).req.isSome := by
  unfold Caller.issue
  split
  · simp [*]
  · rfl

/-- A caller that holds a request issues no other. -/
theorem Caller.issue_holding {x : Caller} (h : x.req.isSome) (r : Request) : x.issue r = x := by
  obtain ⟨q, hq⟩ := Option.isSome_iff_exists.mp h
  simp only [Caller.issue, hq]

theorem State.during_continueAs (s : State) (fl' : Flight) :
    (s.during k r sched fl window exp stale).continueAs fl' = s.during k r sched fl' window exp stale := by
  have hcallers : ((s.during k r sched fl window exp stale).continueAs fl').callers =
      (s.during k r sched fl' window exp stale).callers :=
    List.modify_modify_eq _ _ k s.callers
  exact State.eq_of_fields rfl rfl rfl rfl rfl rfl rfl rfl rfl hcallers rfl rfl rfl rfl rfl

/-- The caller's next turn moves the schedule on and issues nothing. -/
theorem State.during_turn (s : State) (sched rest : List Agent) :
    ((s.during k r sched fl window exp stale).afterSched rest).issue k r =
      s.during k r rest fl window exp stale := by
  have hcallers : (((s.during k r sched fl window exp stale).afterSched rest).issue k r).callers =
      (s.during k r rest fl window exp stale).callers := by
    refine (List.modify_modify_eq _ _ k s.callers).trans (congrArg (s.callers.modify k) ?_)
    funext x
    exact Caller.issue_holding (x := { x.issue r with flight := fl }) (x.issue_req r) r
  exact State.eq_of_fields rfl rfl rfl rfl rfl rfl rfl rfl rfl hcallers rfl rfl rfl rfl rfl

theorem State.during_caller (hk : k < s.callers.length) :
    (s.during k r sched fl window exp stale).caller k = { (s.caller k).issue r with flight := fl } := by
  simp [State.during, State.caller, hk]

theorem State.during_caller_other {j : Nat} (hj : j ≠ k) :
    (s.during k r sched fl window exp stale).caller j = s.caller j := by
  simp [State.during, State.caller, Ne.symm hj, List.getD]

theorem State.during_nextRequest (hk : k < s.callers.length) (hr : s.nextRequest k = some r) :
    (s.during k r sched fl window exp stale).nextRequest k = some r := by
  obtain ⟨hreq, -⟩ := issue_of_nextRequest hr
  simp only [State.nextRequest, State.during_caller hk, hreq]

/-- A turn of a caller inside the transaction `x` is the step of its phase. -/
theorem step_during {x : Tx} {i : Instr} (hk : k < s.callers.length) (hr : s.nextRequest k = some r)
    (hdec : decodeRequest r = .ok i) (hi : IsTransaction x.wr i) (hc : s.ctl = some c)
    (hvalid : c.Valid s.params) :
    step (s.during k r (.caller k :: rest) (.miim x) window exp stale) =
      .next (miimPhaseStep c x (s.during k r rest (.miim x) window exp stale)) := by
  have hlt : k < (s.during k r (.caller k :: rest) (.miim x) window exp stale).callers.length := by
    simpa [State.during] using hk
  have hin : (s.during k r rest (.miim x) window exp stale).Inside c x :=
    ⟨by simpa [State.during] using hk, congrArg Caller.flight (State.during_caller hk), hc, hvalid⟩
  rw [step_caller rfl hlt (State.during_nextRequest hk hr) hdec, State.during_turn]
  exact hin.exec_eq hi

theorem run_succ {s t : State} (n : Nat) (h : step s = .next t) : core.run (n + 1) s = core.run n t := by
  have hcore : core.step s = .next t := h
  simp only [Host.Core.run, hcore]

end WholeTransaction

section Undisturbed

variable {s : State} {k : Nat} {r : Request} {c : Ctl} {rest : List Agent} {i : Instr}
  {tgt sub : Byte} {wr : Bool} {dat : Half}

/-- The target and the sub-register a transaction captures from legal arguments (R84). -/
def txSub (sub : Byte) : Option BusAddr := if sub = 0xFF then none else some (sub.setWidth 5)

/-- The word the issuing RMW of the transaction leaves over the idle word `w` it also latched. -/
def issuedWord (L : CmdLayout) (w : Word) (tgt sub : Byte) (wr : Bool) (dat : Half) : Word :=
  mergeBits w (composeMask L w (tgt.setWidth 5) (txSub sub) wr)
    (composeValue L (tgt.setWidth 5) (txSub sub) wr dat)

/-- The first four turns of an undisturbed transaction: it is then in POLL, its command in MIIM_CMD. -/
theorem run_until_issued (hsched : s.sched = .caller k :: .caller k :: .caller k :: .caller k :: rest)
    (hk : k < s.callers.length) (hr : s.nextRequest k = some r)
    (hdec : decodeRequest r = .ok (if wr then .miimWrite tgt sub dat else .miimRead tgt sub))
    (hidle : (s.caller k).flight = .idle) (hc : s.ctl = some c) (hvalid : c.Valid s.params)
    (hfree : s.miimOwner = none) (ht : tgt.toNat < 32) (hs : sub.toNat < 32 ∨ sub = 0xFF)
    (hcmd : cmdBit c.lay.cmd (s.peek c.lay.miimCmd) = false) (n : Nat) :
    ∃ x : Tx, x.phase = .poll ∧ x.wr = wr ∧ x.tainted = false ∧
      core.run (n + 4) s = core.run n (s.during k r rest (.miim x)
        (s.poke c.lay.miimCmd
          (issuedWord c.lay.cmd (s.peek c.lay.miimCmd) tgt sub wr (if wr then dat else 0))).window
        s.exp none) := by
  have hi : IsTransaction wr (if wr then .miimWrite tgt sub dat else .miimRead tgt sub) := by
    cases wr <;> rfl
  let x₀ : Tx := {
    phase := .latch, tgt := tgt.setWidth 5, sub := txSub sub, wr, dat := if wr then dat else 0 }
  have h₁ : step s = .next (s.during k r (.caller k :: .caller k :: .caller k :: rest) (.miim x₀) s.window
      s.exp s.miimStale) := by
    let u := (s.afterSched (.caller k :: .caller k :: .caller k :: rest)).issue k r
    have hu : u.Idle c := by
      refine ⟨by simpa [u] using hk, ?_, hc, hvalid⟩
      exact (State.issue_flight _ k k r).trans hidle
    have hufree : u.miimOwner = none := hfree
    rw [step_caller hsched hk hr hdec]
    refine (exec_invocation hu tgt sub dat wr).trans (congrArg _ ?_)
    rw [miimInvoke_free ht hs _ _ hufree]
    refine State.eq_of_fields rfl rfl rfl rfl rfl rfl rfl rfl rfl ?_ rfl rfl rfl rfl rfl
    exact List.modify_modify_eq _ _ k s.callers
  let w := s.peek c.lay.miimCmd
  let x₁ : Tx := { x₀ with
    phase := .issueRd, cur := w, tainted := cmdBit c.lay.cmd w
    m := composeMask c.lay.cmd w x₀.tgt x₀.sub wr, v := composeValue c.lay.cmd x₀.tgt x₀.sub wr x₀.dat }
  have h₂ : step (s.during k r (.caller k :: .caller k :: .caller k :: rest) (.miim x₀) s.window s.exp
      s.miimStale) = .next (s.during k r (.caller k :: .caller k :: rest) (.miim x₁) s.window s.exp none) := by
    rw [step_during hk hr hdec hi hc hvalid, miimPhaseStep_latch rfl, miimLatch_eq]
    refine congrArg _ (Eq.trans ?_ (State.during_continueAs (fl := .miim x₀) s (.miim x₁)))
    have hstale : (if cmdBit c.lay.cmd w then s.miimStale else none) = none := by
      rw [if_neg (by rw [hcmd]; exact Bool.false_ne_true)]
    refine State.eq_of_fields rfl rfl rfl rfl rfl rfl rfl rfl rfl rfl hstale rfl rfl rfl rfl
  let x₂ : Tx := { x₁ with phase := .issueWr, old := w }
  have h₃ : step (s.during k r (.caller k :: .caller k :: rest) (.miim x₁) s.window s.exp none) =
      .next (s.during k r (.caller k :: rest) (.miim x₂) s.window s.exp none) := by
    rw [step_during hk hr hdec hi hc hvalid, miimPhaseStep_issueRd rfl]
    exact congrArg _ (State.during_continueAs s _)
  let word := issuedWord c.lay.cmd w tgt sub wr (if wr then dat else 0)
  let x₃ : Tx := { x₂ with phase := .poll, k := 0 }
  have h₄ : step (s.during k r (.caller k :: rest) (.miim x₂) s.window s.exp none) =
      .next (s.during k r rest (.miim x₃) (s.poke c.lay.miimCmd word).window s.exp none) := by
    rw [step_during hk hr hdec hi hc hvalid, miimPhaseStep_issueWr rfl,
      Ctl.Valid.miimIssueWrite_eq (s := s.during k r rest (.miim x₂) s.window s.exp none) hvalid]
    exact congrArg _ (State.during_continueAs (window := (s.poke c.lay.miimCmd word).window) s _)
  refine ⟨x₃, rfl, rfl, hcmd, ?_⟩
  rw [run_succ (n + 3) h₁, run_succ (n + 2) h₂, run_succ (n + 1) h₃, run_succ n h₄]

/-! ### The command that stands in MIIM_CMD then -/

theorem txSub_getD (hs : sub.toNat < 32 ∨ sub = 0xFF) (e : BusAddr) :
    (txSub sub).getD e = if sub.toNat < 32 then sub.setWidth 5 else e := by
  obtain h | rfl := hs
  · have hne : sub ≠ 0xFF := fun he => by rw [he] at h; exact absurd h (by decide)
    rw [txSub, if_neg hne, if_pos h]
    rfl
  · rfl

/-- The issued word over a word with its reserved bits 0 is the transaction's command (R88). -/
theorem decodeCommand_issuedWord {L : CmdLayout} (hL : cmdLayoutOk L = true) {w : Word}
    (hres : reservedBits L w = 0) (hs : sub.toNat < 32 ∨ sub = 0xFF) {phy reg : BusAddr}
    (hphy : phy = tgt.setWidth 5)
    (hreg : reg = if sub.toNat < 32 then sub.setWidth 5 else if phyField L w = phy then regField L w else 0) :
    decodeCommand L (issuedWord L w tgt sub wr dat) =
      .ok (if wr then .miimCmdWrite dat reg phy 0 else .miimCmdRead (dataField L w) reg phy 0) := by
  subst hphy
  rw [hreg, ← txSub_getD hs, issuedWord, decodeCommand, if_pos (cmdBit_issued hL ..), rwopBit_issued hL,
    phyField_issued hL, regField_issued hL, reservedBits_issued, hres]
  cases wr with
  | true => rw [dataField_issued hL _ _ _ _ _ _ rfl, if_pos rfl, if_pos rfl]
  | false => rw [dataField_issued_read hL _ _ _ _ _ _ rfl, if_neg Bool.false_ne_true, if_neg Bool.false_ne_true]

/-- While an untainted transaction holds the lock and no stale command is noted, the engine is clean. -/
theorem State.during_tainted {x : Tx} {window : Store Word} {sched : List Agent} (hk : k < s.callers.length)
    (hx : x.tainted = false) :
    (s.during k r sched (.miim x) window s.exp none).tainted = false := by
  have hholder : (s.during k r sched (.miim x) window s.exp none).holderTainted = false := by
    have hflight : ((s.during k r sched (.miim x) window s.exp none).caller k).flight = .miim x :=
      congrArg Caller.flight (State.during_caller hk)
    simp only [State.holderTainted, State.during] at hflight ⊢
    rw [hflight]
    exact hx
  rw [State.tainted, hholder]
  rfl

/-- The engine's turn is exec of the command in MIIM_CMD. -/
theorem step_engine_during {x : Tx} {window : Store Word} (hc : s.ctl = some c)
    (hdec : decodeCommand c.lay.cmd (window.read 0 c.lay.miimCmd) = .ok i) :
    step (s.during k r (.engine :: rest) (.miim x) window s.exp none) =
      exec i (s.during k r rest (.miim x) window s.exp none) := by
  refine step_engine rfl ?_
  have hctl : (s.during k r rest (.miim x) window s.exp none).engineCommand =
      s.ctl.bind fun c => (decodeCommand c.lay.cmd (window.read 0 c.lay.miimCmd)).instr? := rfl
  refine hctl.trans ?_
  rw [hc, Option.bind_some, hdec]
  rfl

/-- The engine executes a clean read command: DATA takes the expander register, CMD clears (R118). -/
theorem step_engine_read {x : Tx} {window : Store Word} {data : Half} {reg phy : BusAddr}
    (hk : k < s.callers.length) (hc : s.ctl = some c) (hx : x.tainted = false)
    (hdec : decodeCommand c.lay.cmd (window.read 0 c.lay.miimCmd) = .ok (.miimCmdRead data reg phy 0))
    (hvol : expKey phy reg ∉ s.params.expVolatile) :
    step (s.during k r (.engine :: rest) (.miim x) window s.exp none) =
      .next (s.during k r rest (.miim x) (window.write 0 c.lay.miimCmd (clearCmd c.lay.cmd
        (putData c.lay.cmd (window.read 0 c.lay.miimCmd) (s.exp.read 0 (expKey phy reg))))) s.exp none) := by
  have hexec := execMiimCmdRead_command (s := s.during k r rest (.miim x) window s.exp none) hc hdec
  rw [engineComplete_clean (State.during_tainted hk hx), engineRead, State.expRead, State.afterExpRead,
    if_neg (by exact hvol), if_neg (by exact hvol)] at hexec
  exact (step_engine_during hc hdec).trans hexec

/-- The engine executes a clean write command: the expander register takes DATA, CMD clears (R118). -/
theorem step_engine_write {x : Tx} {window : Store Word} {data : Half} {reg phy : BusAddr}
    (hk : k < s.callers.length) (hc : s.ctl = some c) (hx : x.tainted = false)
    (hdec : decodeCommand c.lay.cmd (window.read 0 c.lay.miimCmd) = .ok (.miimCmdWrite data reg phy 0)) :
    step (s.during k r (.engine :: rest) (.miim x) window s.exp none) =
      .next (s.during k r rest (.miim x)
        (window.write 0 c.lay.miimCmd (clearCmd c.lay.cmd (window.read 0 c.lay.miimCmd)))
        (s.expWrite phy reg data).exp none) := by
  have hexec := execMiimCmdWrite_command (s := s.during k r rest (.miim x) window s.exp none) hc hdec
  rw [engineComplete_clean (State.during_tainted hk hx), engineWrite] at hexec
  exact (step_engine_during hc hdec).trans hexec

/-! ### The poll that ends it -/

/-- The last turn: the poll finds CMD = 0 and the transaction returns. -/
theorem step_last_poll {x : Tx} {j : Instr} {window : Store Word} {exp : Store Half} (hk : k < s.callers.length)
    (hr : s.nextRequest k = some r) (hdec : decodeRequest r = .ok j) (hi : IsTransaction x.wr j)
    (hc : s.ctl = some c) (hvalid : c.Valid s.params) (hphase : x.phase = .poll) (hx : x.tainted = false)
    (hcmd : cmdBit c.lay.cmd (window.read 0 c.lay.miimCmd) = false) :
    step (s.during k r (.caller k :: rest) (.miim x) window exp none) =
      .next (((s.during k r rest (.miim x) window exp none).release .miim).respond
        (.ok (if x.wr then 0 else (dataField c.lay.cmd (window.read 0 c.lay.miimCmd)).setWidth 64))) := by
  have hpoll := miimPoll_completes (s := s.during k r rest (.miim x) window exp none) (c := c) (x := x) hcmd
  rw [step_during hk hr hdec hi hc hvalid, miimPhaseStep_poll hphase, hpoll]
  refine congrArg _ ?_
  cases hw : x.wr with
  | true => rw [miimComplete_write hw, if_pos rfl]
  | false => rw [miimComplete_read hw hx, if_neg Bool.false_ne_true]; rfl

/-- What is left when the transaction has returned: its caller has the response and is idle, no other
caller changed, and no field but the window, the expander, the stale command and whose turn it was. -/
theorem State.during_returned {x : Tx} {window : Store Word} {exp : Store Half} (hk : k < s.callers.length)
    (hfree : s.miimOwner = none) (rsp : Response) {t : State}
    (ht : t = ((s.during k r rest (.miim x) window exp none).release .miim).respond rsp) :
    t.caller k = { (s.issue k r).caller k with req := none, flight := .idle, rsp } ∧
      (∀ j, j ≠ k → t.caller j = s.caller j) ∧
      t = { s with
        window := t.window, exp := t.exp, callers := t.callers, cur := k, sched := rest, miimStale := none } := by
  have hlt : ((s.during k r rest (.miim x) window exp none).release .miim).cur <
      ((s.during k r rest (.miim x) window exp none).release .miim).callers.length := by
    simpa [State.during] using hk
  subst ht
  refine ⟨?_, fun j hj => ?_, ?_⟩
  · have hme : ((s.during k r rest (.miim x) window exp none).release .miim).me =
        { (s.caller k).issue r with flight := .miim x } :=
      State.during_caller (sched := rest) (window := window) (exp := exp) (stale := none) hk
    refine (State.setMe_me _ _ hlt).trans ?_
    rw [hme, State.issue_caller, if_pos ⟨rfl, hk⟩]
  · exact (State.setMe_caller_other _ _ hj).trans
      (State.during_caller_other (sched := rest) (window := window) (exp := exp) (stale := none) hj)
  · exact State.eq_of_fields rfl rfl rfl rfl rfl rfl rfl rfl hfree.symm rfl rfl rfl rfl rfl rfl

end Undisturbed

/-! PROOFS. Undisturbed transactions (R120, R121, R43). -/

/-- Settles O37: four turns of the caller, the engine's, and the poll that finds CMD = 0. -/
theorem undisturbedReadReturnsTheExpanderRegister : Obligations.UndisturbedReadReturnsTheExpanderRegister := by
  intro s c k rest r tgt sub hsched hk hr hdec hidle hc hvalid hfree ht hs L w phy reg hcmd hres hvol
  have hL := hvalid.cmd
  obtain ⟨x, hphase, hwr, hx, hrun⟩ := run_until_issued (wr := false) (dat := 0) hsched hk hr hdec hidle hc
    hvalid hfree ht hs hcmd 2
  let word := issuedWord L w tgt sub false 0
  let done := clearCmd L (putData L word (s.exp.read 0 (expKey phy reg)))
  let issued := s.poke c.lay.miimCmd word
  have hword : issued.window.read 0 c.lay.miimCmd = word := s.peek_poke_same _ _
  have hdone : (issued.poke c.lay.miimCmd done).window.read 0 c.lay.miimCmd = done :=
    issued.peek_poke_same _ _
  have hengine := step_engine_read (s := s) (r := r) (rest := .caller k :: rest) (window := issued.window)
    hk hc hx (by rw [hword]; exact decodeCommand_issuedWord hL hres hs rfl rfl) hvol
  rw [hword] at hengine
  have hpoll := step_last_poll (rest := rest) (window := (issued.poke c.lay.miimCmd done).window)
    (exp := s.exp) hk hr hdec (hwr ▸ rfl) hc hvalid hphase hx (by rw [hdone]; exact cmdBit_clearCmd _)
  rw [hdone, hwr, if_neg Bool.false_ne_true, dataField_clearCmd hL, dataField_putData hL] at hpoll
  obtain ⟨hme, hothers, hframe⟩ := State.during_returned (rest := rest) (x := x) (exp := s.exp)
    (window := (issued.poke c.lay.miimCmd done).window) hk hfree _ rfl
  refine ⟨_, hrun.trans ((run_succ 1 hengine).trans (run_succ 0 hpoll)), hme, hothers, hframe,
    fun o ho => ?_, ?_, ?_, ?_⟩
  · exact (issued.peek_poke_other _ ho).trans (s.peek_poke_other _ ho)
  · exact (congrArg (cmdBit L) hdone).trans (cmdBit_clearCmd _)
  · refine (congrArg (phyField L) hdone).trans ?_
    rw [phyField_clearCmd hL, phyField_putData hL]
    exact phyField_issued hL ..
  · refine (congrArg (regField L) hdone).trans ?_
    rw [regField_clearCmd hL, regField_putData hL]
    exact (regField_issued hL ..).trans (txSub_getD hs _)

/-- Settles O38: the same turns, with the expander written by the engine's. -/
theorem undisturbedWriteStoresInTheExpanderRegister :
    Obligations.UndisturbedWriteStoresInTheExpanderRegister := by
  intro s c k rest r tgt sub data hsched hk hr hdec hidle hc hvalid hfree ht hs L w phy reg hcmd hres
  have hL := hvalid.cmd
  obtain ⟨x, hphase, hwr, hx, hrun⟩ := run_until_issued (wr := true) (dat := data) hsched hk hr hdec hidle hc
    hvalid hfree ht hs hcmd 2
  let word := issuedWord L w tgt sub true data
  let done := clearCmd L word
  let issued := s.poke c.lay.miimCmd word
  have hword : issued.window.read 0 c.lay.miimCmd = word := s.peek_poke_same _ _
  have hdone : (issued.poke c.lay.miimCmd done).window.read 0 c.lay.miimCmd = done :=
    issued.peek_poke_same _ _
  have hengine := step_engine_write (s := s) (r := r) (rest := .caller k :: rest) (window := issued.window)
    (data := data) (reg := reg) (phy := phy) hk hc hx
    (by rw [hword]; exact decodeCommand_issuedWord hL hres hs rfl rfl)
  rw [hword] at hengine
  have hpoll := step_last_poll (rest := rest) (window := (issued.poke c.lay.miimCmd done).window)
    (exp := (s.expWrite phy reg data).exp) hk hr hdec (hwr ▸ rfl) hc hvalid hphase hx
    (by rw [hdone]; exact cmdBit_clearCmd _)
  rw [hwr, if_pos rfl] at hpoll
  obtain ⟨hme, hothers, hframe⟩ := State.during_returned (rest := rest) (x := x)
    (exp := (s.expWrite phy reg data).exp) (window := (issued.poke c.lay.miimCmd done).window) hk hfree _ rfl
  refine ⟨_, hrun.trans ((run_succ 1 hengine).trans (run_succ 0 hpoll)), hme, hothers, hframe,
    fun a b => s.expWrite_read phy reg a b data, fun o ho => ?_, ?_, ?_, ?_, ?_⟩
  · exact (issued.peek_poke_other _ ho).trans (s.peek_poke_other _ ho)
  · exact (congrArg (cmdBit L) hdone).trans (cmdBit_clearCmd _)
  · refine (congrArg (phyField L) hdone).trans ?_
    rw [phyField_clearCmd hL]
    exact phyField_issued hL ..
  · refine (congrArg (regField L) hdone).trans ?_
    rw [regField_clearCmd hL]
    exact (regField_issued hL ..).trans (txSub_getD hs _)
  · refine (congrArg (dataField L) hdone).trans ?_
    rw [dataField_clearCmd hL]
    exact dataField_issued hL _ _ _ _ _ _ rfl

end Sys2Proof.Machine

namespace Sys2Proof.Machine

/-! SUPPORT. Words put together bit by bit over a list, and one value in several planes of a word. -/

section Planes

/-- A bit of a word collected over a list, where each element may add it. -/
theorem getLsbD_foldl {n : Nat} {α : Type} {f : BitVec n → α → BitVec n} {b : Nat} {Q : α → Prop}
    (hf : ∀ acc a, (f acc a).getLsbD b = true ↔ acc.getLsbD b = true ∨ Q a) (l : List α) (acc : BitVec n) :
    (l.foldl f acc).getLsbD b = true ↔ acc.getLsbD b = true ∨ ∃ a ∈ l, Q a := by
  induction l generalizing acc with
  | nil => simp
  | cons a l ih =>
    rw [List.foldl_cons, ih, hf, List.exists_mem_cons_iff, or_assoc]

theorem getLsbD_or_iff {n : Nat} {x y : BitVec n} {b : Nat} :
    (x ||| y).getLsbD b = true ↔ x.getLsbD b = true ∨ y.getLsbD b = true := by
  rw [BitVec.getLsbD_or, Bool.or_eq_true]

/-- The bits of the fields of width `w` at the places `ls`. -/
def planesMask (ls : List Nat) (w : Nat) : Word := ls.foldl (fun acc l => acc ||| mask l w) 0

/-- The value `x` at each of the places `ls`. -/
def planesValue {n : Nat} (ls : List Nat) (x : BitVec n) : Word :=
  ls.foldl (fun acc l => acc ||| (x.setWidth 32 <<< l)) 0

theorem getLsbD_planesMask {ls : List Nat} {w b : Nat} :
    (planesMask ls w).getLsbD b = true ↔ ∃ l ∈ ls, (mask l w).getLsbD b = true := by
  rw [planesMask, getLsbD_foldl (Q := fun l => (mask l w).getLsbD b = true) fun _ _ => getLsbD_or_iff]
  simp

theorem getLsbD_planesValue {n : Nat} {ls : List Nat} {x : BitVec n} {b : Nat} :
    (planesValue ls x).getLsbD b = true ↔ ∃ l ∈ ls, (x.setWidth 32 <<< l : Word).getLsbD b = true := by
  rw [planesValue, getLsbD_foldl (Q := fun l => (x.setWidth 32 <<< l : Word).getLsbD b = true)
    fun _ _ => getLsbD_or_iff]
  simp

/-- A bit outside every plane is in no plane's mask. -/
theorem planesMask_outside {ls : List Nat} {w b : Nat} (h : ∀ l ∈ ls, ¬(l ≤ b ∧ b < l + w)) :
    (planesMask ls w).getLsbD b = false := by
  rw [Bool.eq_false_iff, ne_eq, getLsbD_planesMask]
  rintro ⟨l, hl, hb⟩
  exact h l hl ((getLsbD_mask_iff l w b).mp hb).2

/-- A value that fits its width has no bit beyond it. -/
theorem getLsbD_of_toNat_lt {n w j : Nat} {x : BitVec n} (hx : x.toNat < 2 ^ w) (hj : w ≤ j) :
    x.getLsbD j = false :=
  Nat.testBit_lt_two_pow (Nat.lt_of_lt_of_le hx (Nat.pow_le_pow_right (by decide) hj))

/-- A bit of a value put at `l` lies in the field there. -/
theorem placed_inside {n w l b : Nat} {x : BitVec n} (hx : x.toNat < 2 ^ w)
    (hb : (x.setWidth 32 <<< l : Word).getLsbD b = true) : l ≤ b ∧ b < l + w := by
  rw [BitVec.getLsbD_shiftLeft, BitVec.getLsbD_setWidth] at hb
  simp only [Bool.and_eq_true, Bool.not_eq_true', decide_eq_true_eq, decide_eq_false_iff_not] at hb
  obtain ⟨⟨-, hl⟩, -, hbit⟩ := hb
  refine ⟨by omega, ?_⟩
  by_contra hw
  rw [getLsbD_of_toNat_lt hx (by omega)] at hbit
  cases hbit

/-- A value written to planes that do not overlap stands in each of them. -/
theorem fld_mergeBits_planes {n w : Nat} {ls : List Nat} {x : BitVec n} (old : Word) (hx : x.toNat < 2 ^ w)
    (hfit : ∀ l ∈ ls, l + w ≤ 32) (hapart : ∀ l ∈ ls, ∀ l' ∈ ls, l = l' ∨ l + w ≤ l' ∨ l' + w ≤ l) {l : Nat}
    (hl : l ∈ ls) : fld (mergeBits old (planesMask ls w) (planesValue ls x)) l w = x.setWidth 32 := by
  have hfitl := hfit l hl
  refine fld_mergeBits (fun i hi => ?_) (fun i hi => ?_) (fun i hi => ?_)
  · exact getLsbD_planesMask.mpr ⟨l, hl, getLsbD_mask_inside (by omega) (by omega) (by omega)⟩
  · rw [Bool.eq_iff_iff, getLsbD_planesValue, BitVec.getLsbD_setWidth, decide_eq_true (by omega : i < 32),
      Bool.true_and]
    constructor
    · rintro ⟨l', hl', hbit⟩
      have hin := placed_inside hx hbit
      have heq : l = l' := by
        have := hapart l hl l' hl'
        omega
      rwa [← heq, getLsbD_placed x (by omega)] at hbit
    · intro hbit
      exact ⟨l, hl, by rwa [getLsbD_placed x (by omega)]⟩
  · rw [BitVec.getLsbD_setWidth, getLsbD_of_toNat_lt hx hi, Bool.and_false]

/-- A field away from the mask is as it was. -/
theorem fld_mergeBits_outside {old m v : Word} {l w : Nat} (h : ∀ i < w, m.getLsbD (l + i) = false) :
    fld (mergeBits old m v) l w = fld old l w := by
  apply BitVec.eq_of_getLsbD_eq
  intro i _
  rw [getLsbD_fld, getLsbD_fld, getLsbD_mergeBits]
  by_cases hi : i < w
  · rw [h i hi, if_neg Bool.false_ne_true]
  · simp [hi]

/-- Fields are equal if their bits are. -/
theorem fld_congr {u v : Word} {l w : Nat} (h : ∀ b, l ≤ b → b < l + w → u.getLsbD b = v.getLsbD b) :
    fld u l w = fld v l w := by
  apply BitVec.eq_of_getLsbD_eq
  intro i _
  rw [getLsbD_fld, getLsbD_fld]
  by_cases hi : i < w
  · rw [h (l + i) (by omega) (by omega)]
  · simp [hi]

end Planes

/-! SUPPORT. The mode fields (R91, R92, R143). -/

section ModeFields

variable {P : Params} {c : Ctl} {s i : Nat}

/-- The width of a mode field. -/
def Ctl.modeWidth (c : Ctl) : Nat :=
  match c.family with
  | .A => c.modeFl
  | .B => Config.modeFlB

/-- The places of the copies of a mode field in its register. -/
def Ctl.modeLsbs (c : Ctl) (s i : Nat) : List Nat := (c.modeLoc s i).map (·.lsb)

/-- Every copy lies in the register of the set and has the family's width. -/
theorem mem_modeLoc {f : FieldLoc} (h : f ∈ c.modeLoc s i) :
    f.off = c.modeReg s ∧ f.width = c.modeWidth ∧ f.lsb ∈ c.modeLsbs s i := by
  have hlsb : f.lsb ∈ c.modeLsbs s i := List.mem_map_of_mem h
  unfold Ctl.modeLoc at h
  unfold Ctl.modeReg Ctl.modeWidth
  cases hfam : c.family <;> simp only [hfam, List.mem_cons, List.not_mem_nil, or_false] at h ⊢
  · obtain rfl | rfl := h <;> exact ⟨rfl, rfl, hlsb⟩
  · subst h
    exact ⟨rfl, rfl, hlsb⟩

theorem exists_modeLoc {l : Nat} (h : l ∈ c.modeLsbs s i) : ∃ f ∈ c.modeLoc s i, f.lsb = l :=
  List.mem_map.mp h

theorem modeMask_eq (c : Ctl) (s i : Nat) : c.modeMask s i = planesMask (c.modeLsbs s i) c.modeWidth := by
  unfold Ctl.modeMask Ctl.modeLsbs Ctl.modeLoc Ctl.modeWidth
  cases c.family <;> rfl

theorem modeValue_eq (c : Ctl) (s i : Nat) (mode : Byte) :
    c.modeValue s i mode = planesValue (c.modeLsbs s i) mode := by
  unfold Ctl.modeValue Ctl.modeLsbs Ctl.modeLoc
  cases c.family <;> rfl

/-- The copies of LED index `i` on Family A. -/
theorem mem_modeLsbs_A {l : Nat} (hf : c.family = .A) :
    l ∈ c.modeLsbs s i ↔ l = c.modeFl * i ∨ l = c.lay.dupOffA + c.modeFl * i := by
  simp [Ctl.modeLsbs, Ctl.modeLoc, hf]

/-- The one field of LED index `i` on Family B. -/
theorem mem_modeLsbs_B {l : Nat} (hf : c.family = .B) :
    l ∈ c.modeLsbs s i ↔ l = 16 * (s % 2) + 5 * i := by
  simp [Ctl.modeLsbs, Ctl.modeLoc, hf, Config.modeFlB]

theorem modeWidth_A (hf : c.family = .A) : c.modeWidth = c.modeFl := by rw [Ctl.modeWidth, hf]

theorem modeWidth_B (hf : c.family = .B) : c.modeWidth = 5 := by rw [Ctl.modeWidth, hf]; rfl

variable (h : c.Valid P)
include h

/-- The copies fit in the register. -/
theorem Ctl.Valid.modeLsbs_fit (hi : i < c.ledCount) {l : Nat} (hl : l ∈ c.modeLsbs s i) :
    l + c.modeWidth ≤ 32 := by
  cases hf : c.family with
  | A =>
    obtain ⟨hlow, hhigh, -⟩ := h.modeA hf
    have hfield : c.modeFl * (i + 1) ≤ c.modeFl * c.ledCount := Nat.mul_le_mul_left _ hi
    rw [Nat.mul_succ] at hfield
    rw [modeWidth_A hf]
    obtain rfl | rfl := (mem_modeLsbs_A hf).mp hl <;> omega
  | B =>
    have hled := h.counts.2.2.1
    rw [modeWidth_B hf]
    rw [mem_modeLsbs_B hf] at hl
    omega

/-- A legal mode fits in its field (R7). -/
theorem Ctl.Valid.mode_fits {mode : Byte} (hm : mode.toNat ≤ c.lay.modeMax) : mode.toNat < 2 ^ c.modeWidth := by
  cases hf : c.family with
  | A => rw [modeWidth_A hf]; exact Nat.lt_of_le_of_lt hm (h.modeA hf).2.2
  | B => rw [modeWidth_B hf]; exact Nat.lt_of_le_of_lt hm (h.modeB hf)

/-- The copies of one field do not overlap. -/
theorem Ctl.Valid.modeLsbs_copies (hi : i < c.ledCount) {l l' : Nat} (hl : l ∈ c.modeLsbs s i)
    (hl' : l' ∈ c.modeLsbs s i) : l = l' ∨ l + c.modeWidth ≤ l' ∨ l' + c.modeWidth ≤ l := by
  cases hf : c.family with
  | A =>
    obtain ⟨hlow, -, -⟩ := h.modeA hf
    have hfield : c.modeFl * (i + 1) ≤ c.modeFl * c.ledCount := Nat.mul_le_mul_left _ hi
    rw [Nat.mul_succ] at hfield
    rw [modeWidth_A hf]
    obtain rfl | rfl := (mem_modeLsbs_A hf).mp hl <;> obtain rfl | rfl := (mem_modeLsbs_A hf).mp hl' <;> omega
  | B =>
    rw [mem_modeLsbs_B hf] at hl hl'
    exact .inl (hl.trans hl'.symm)

/-- Family B's two mode registers are two (R7). -/
theorem Ctl.Valid.modeB0_ne_modeB1 (hf : c.family = .B) : c.lay.modeB0 ≠ c.lay.modeB1 := by
  have hn := h.led_nodup
  simp only [Ctl.ledRegs, List.append_assoc] at hn
  have hmode := (List.nodup_append.mp hn).1
  simpa [Ctl.modeRegs, hf] using hmode

/-- Fields of different LED indices, or on Family B of different sets in one register, do not overlap. -/
theorem Ctl.Valid.modeLsbs_apart {s' j : Nat} (hi : i < c.ledCount) (hj : j < c.ledCount)
    (hs : s ≤ c.psetMax) (hs' : s' ≤ c.psetMax) (hreg : c.modeReg s = c.modeReg s')
    (hne : i ≠ j ∨ c.family = .B ∧ s ≠ s') {l l' : Nat} (hl : l ∈ c.modeLsbs s i) (hl' : l' ∈ c.modeLsbs s' j) :
    l + c.modeWidth ≤ l' ∨ l' + c.modeWidth ≤ l := by
  cases hf : c.family with
  | A =>
    have hij : i ≠ j := hne.resolve_right fun hB => by rw [hf] at hB; cases hB.1
    obtain ⟨hlow, -, -⟩ := h.modeA hf
    have hbelow {a b : Nat} (hab : a < b) : c.modeFl * a + c.modeFl ≤ c.modeFl * b := by
      rw [← Nat.mul_succ]
      exact Nat.mul_le_mul_left _ hab
    have hilast := hbelow hi
    have hjlast := hbelow hj
    have horder : c.modeFl * i + c.modeFl ≤ c.modeFl * j ∨ c.modeFl * j + c.modeFl ≤ c.modeFl * i :=
      (Nat.lt_or_gt_of_ne hij).imp hbelow hbelow
    rw [modeWidth_A hf]
    obtain rfl | rfl := (mem_modeLsbs_A hf).mp hl <;> obtain rfl | rfl := (mem_modeLsbs_A hf).mp hl' <;> omega
  | B =>
    have hled := h.counts.2.2.1
    have hset := h.psetMax_le
    have hB := h.modeB0_ne_modeB1 hf
    have hhalf : s / 2 = 0 ↔ s' / 2 = 0 := by
      simp only [Ctl.modeReg, hf] at hreg
      by_cases h0 : s / 2 = 0 <;> by_cases h0' : s' / 2 = 0
      · exact iff_of_true h0 h0'
      · rw [if_pos h0, if_neg h0'] at hreg
        exact absurd hreg hB
      · rw [if_neg h0, if_pos h0'] at hreg
        exact absurd hreg.symm hB
      · exact iff_of_false h0 h0'
    rw [modeWidth_B hf]
    rw [mem_modeLsbs_B hf] at hl hl'
    have hne' : i ≠ j ∨ s ≠ s' := hne.imp_right And.right
    omega

end ModeFields

/-! SUPPORT. The mode operations of a caller that can run (R143, R144). -/

section ModeOperations

variable {s : State} {c : Ctl} {pset led mode : Byte}

/-- PL_SET_LED_MODE with an error only reports it. -/
theorem execPlSetMode_error (h : s.Ready c .portled) {e : Response}
    (herr : setModeError s.params c pset led mode = some e) :
    exec (.plSetMode pset led mode) s = .next (s.respond e) :=
  congrArg _ (h.start_respond (by simp only [State.acquire_params, herr]))

/-- A legal one is one RMW of the set's register. -/
theorem execPlSetMode_legal (h : s.Ready c .portled) (herr : setModeError s.params c pset led mode = none) :
    exec (.plSetMode pset led mode) s = .next ((s.rmw c (c.modeReg pset.toNat)
      (c.modeMask pset.toNat led.toNat) (c.modeValue pset.toNat led.toNat mode)).respond (.ok 0)) :=
  congrArg _ (h.start_eq (by simp only [State.acquire_params, herr])
    ((respond_ignoresLocks _).comp (rmw_ignoresLocks c _ _ _)))

theorem setModeError_legal {P : Params} (hp : pset.toNat ≤ c.psetMax) (hl : led.toNat < c.ledCount)
    (hm : mode.toNat ≤ c.lay.modeMax) (h10 : c.family = .A → mode.toNat ≠ P.mode10G) :
    setModeError P c pset led mode = none := by
  rw [setModeError, if_neg fun hA => h10 hA.1 hA.2, if_neg (Nat.not_lt.mpr hp), if_neg (Nat.not_le.mpr hl),
    if_neg (Nat.not_lt.mpr hm)]

/-- The state a legal mode write leaves: the merge in the set's register. -/
def State.modeSet (s : State) (c : Ctl) (pset led mode : Byte) : State :=
  s.poke (c.modeReg pset.toNat) (mergeBits (s.peek (c.modeReg pset.toNat))
    (planesMask (c.modeLsbs pset.toNat led.toNat) c.modeWidth)
    (planesValue (c.modeLsbs pset.toNat led.toNat) mode))

theorem State.modeSet_onlyMemories (s : State) (c : Ctl) (pset led mode : Byte) :
    OnlyMemories s (s.modeSet c pset led mode) :=
  s.poke_onlyMemories _ _

/-- A legal mode write, in full. -/
theorem execPlSetMode_eq (h : s.Ready c .portled) (hp : pset.toNat ≤ c.psetMax) (hl : led.toNat < c.ledCount)
    (hm : mode.toNat ≤ c.lay.modeMax) (h10 : c.family = .A → mode.toNat ≠ s.params.mode10G) :
    exec (.plSetMode pset led mode) s = .next ((s.modeSet c pset led mode).respond (.ok 0)) := by
  rw [execPlSetMode_legal h (setModeError_legal hp hl hm h10), h.1.2.2.2.rmw_led (c.modeReg_mem _),
    modeMask_eq, modeValue_eq]
  rfl

theorem State.modeSet_fld {P : Params} (hv : c.Valid P) (hl : led.toNat < c.ledCount)
    (hm : mode.toNat ≤ c.lay.modeMax) {f : FieldLoc} (hf : f ∈ c.modeLoc pset.toNat led.toNat) :
    fld ((s.modeSet c pset led mode).peek f.off) f.lsb f.width = mode.setWidth 32 := by
  obtain ⟨hoff, hwidth, hlsb⟩ := mem_modeLoc hf
  rw [State.modeSet, hoff, hwidth, s.peek_poke_same]
  exact fld_mergeBits_planes _ (hv.mode_fits hm) (fun _ => hv.modeLsbs_fit hl)
    (fun _ hl₁ _ hl₂ => hv.modeLsbs_copies hl hl₁ hl₂) hlsb

/-- A mode write keeps every bit outside its fields (R146). -/
theorem State.modeSet_outside {o b : Nat}
    (hb : ∀ f ∈ c.modeLoc pset.toNat led.toNat, ¬(o = f.off ∧ f.lsb ≤ b ∧ b < f.lsb + f.width)) :
    ((s.modeSet c pset led mode).peek o).getLsbD b = (s.peek o).getLsbD b := by
  by_cases ho : o = c.modeReg pset.toNat
  · subst ho
    rw [State.modeSet, s.peek_poke_same, getLsbD_mergeBits, planesMask_outside, if_neg Bool.false_ne_true]
    intro l hl
    obtain ⟨f, hf, rfl⟩ := exists_modeLoc hl
    obtain ⟨hoff, hwidth, -⟩ := mem_modeLoc hf
    rw [← hwidth]
    exact fun hin => hb f hf ⟨hoff.symm, hin⟩
  · rw [State.modeSet, s.peek_poke_other _ ho]

/-- After an answer an idle caller is idle again, and an operation under the same lock can run. -/
theorem State.Ready.after_answer {d : Domain} (h : s.Ready c d) {u : State} (hu : OnlyMemories s u)
    (r : Response) : (u.respond r).Ready c d := by
  obtain ⟨⟨hlt, hidle, hc, hvalid⟩, hfree⟩ := h
  have hlt' : u.cur < u.callers.length := by rw [hu.cur, hu.callers]; exact hlt
  refine ⟨⟨?_, ?_, hu.ctl.trans hc, ?_⟩, ?_⟩
  · simpa using hlt'
  · exact congrArg Caller.flight (u.setMe_me _ hlt')
  · rw [State.respond_params, hu.params]
    exact hvalid
  · rw [(respond_ignoresLocks r).owner, hu.owner, hfree]

/-- And so it is for another idle caller. -/
theorem State.Ready.after_answer_of {d : Domain} (h : s.Ready c d) {u : State} (hu : OnlyMemories s u)
    (r : Response) {k : Nat} (hk : k < s.callers.length) (hidle : (s.caller k).flight = .idle) :
    State.Ready { u.respond r with cur := k } c d := by
  obtain ⟨⟨hlt, -, hc, hvalid⟩, hfree⟩ := h.after_answer hu r
  refine ⟨⟨by simpa [hu.callers] using hk, ?_, hc, hvalid⟩, ?_⟩
  · exact (respond_flight h.1.2.1 hu r k).trans hidle
  · cases d <;> exact hfree

/-- PL_GET_LED_MODE with an error only reports it. -/
theorem execPlGetMode_error (h : s.Ready c .portled) {e : Response} (herr : getModeError c pset led = some e) :
    exec (.plGetMode pset led) s = .next (s.respond e) :=
  congrArg _ (h.start_respond (by simp only [herr]))

/-- A legal one responds with the field. -/
theorem execPlGetMode_legal (h : s.Ready c .portled) (herr : getModeError c pset led = none) {f : FieldLoc}
    (hf : c.modeReadLoc pset.toNat led.toNat = f) (hoff : f.off ∈ c.ledRegs) :
    exec (.plGetMode pset led) s =
      .next (s.respond (.ok ((fld (s.peek f.off) f.lsb f.width).setWidth 64))) := by
  have hv := h.1.2.2.2
  have hreg := Ctl.isReg_of_domain (hv.domainOf_led hoff)
  refine congrArg _ (h.start_respond ?_)
  simp only [herr, hf, State.afterRead_plain _ c hreg (hv.notLoad_led hoff),
    State.readValue_plain _ c hreg (hv.notLoad_led hoff), State.acquire_peek]

end ModeOperations

/-! PROOFS. The mode operations (R143 to R146, R192). -/

/-- Settles O43: `modeSet`. -/
theorem setLedModeWritesItsFields : Obligations.SetLedModeWritesItsFields := by
  intro s c pset led mode h hp hl hm h10
  exact ⟨_, execPlSetMode_eq h hp hl hm h10, returned_respond h.1.1 (s.modeSet_onlyMemories c _ _ _) _, rfl,
    fun f hf => s.modeSet_fld h.1.2.2.2 hl hm hf, fun o b hb => s.modeSet_outside hb⟩

/-- Settles O44: the checks in their order. -/
theorem setLedModeErrorsComeInOrder : Obligations.SetLedModeErrorsComeInOrder := by
  intro s c pset led mode e h hcase
  have herr : setModeError s.params c pset led mode = some e := by
    unfold setModeError
    obtain ⟨hA, h10, rfl⟩ | ⟨hno, ⟨hp, rfl⟩ | ⟨hp, hrange, rfl⟩⟩ := hcase
    · rw [if_pos ⟨hA, h10⟩]
    · rw [if_neg hno, if_pos hp]
    · rw [if_neg hno, if_neg (Nat.not_lt.mpr hp)]
      by_cases hl : c.ledCount ≤ led.toNat
      · rw [if_pos hl]
      · rw [if_neg hl, if_pos (hrange.resolve_left hl)]
  exact ⟨_, execPlSetMode_error h herr, returned_respond h.1.1 (.refl s) _, rfl⟩

/-- Settles O45: the checks in their order, and the field of the first copy. -/
theorem getLedModeReturnsTheField : Obligations.GetLedModeReturnsTheField := by
  intro s c pset led h
  have answers {e : Response} (he : exec (.plGetMode pset led) s = .next (s.respond e)) {e' : Response}
      (heq : e = e') : ∃ t e, exec (.plGetMode pset led) s = .next t ∧ Returned s t e ∧
        t = { s with callers := t.callers } ∧ e = e' :=
    ⟨_, e, he, returned_respond h.1.1 (.refl s) _, rfl, heq⟩
  by_cases hp : c.psetMax < pset.toNat
  · exact answers (execPlGetMode_error h (if_pos hp)) (if_pos hp).symm
  by_cases hl : c.ledCount ≤ led.toNat
  · refine answers (execPlGetMode_error h (e := .error .invalidArgument) ?_) ?_
    · rw [getModeError, if_neg hp, if_pos hl]
    · rw [if_neg hp, if_pos hl]
  have herr : getModeError c pset led = none := by rw [getModeError, if_neg hp, if_neg hl]
  have hreg := c.modeReg_mem pset.toNat
  cases hf : c.family with
  | A =>
    rw [Ctl.modeReg, hf] at hreg
    refine answers (execPlGetMode_legal h herr (f := ⟨c.lay.modeA, c.modeFl * led.toNat, c.modeFl⟩) ?_ hreg) ?_
    · simp only [Ctl.modeReadLoc, Ctl.modeLoc, hf, List.headD_cons]
    · rw [if_neg hp, if_neg hl]
  | B =>
    have hhalf : pset.toNat / 2 = 0 ↔ pset.toNat < 2 := by omega
    simp only [Ctl.modeReg, hf, hhalf] at hreg
    refine answers (execPlGetMode_legal h herr (f := ⟨if pset.toNat < 2 then c.lay.modeB0 else c.lay.modeB1,
      16 * (pset.toNat % 2) + 5 * led.toNat, 5⟩) ?_ hreg) ?_
    · simp only [Ctl.modeReadLoc, Ctl.modeLoc, hf, hhalf, List.headD_cons, Config.modeFlB]
    · rw [if_neg hp, if_neg hl]

/-- Settles O46: the second write's fields are other bits than the first one's, which it keeps. -/
theorem twoModeWritesBothSurvive : Obligations.TwoModeWritesBothSurvive := by
  intro s t u c k p₁ l₁ m₁ p₂ l₂ m₂ h hk hidle hp₁ hl₁ hm₁ hp₂ hl₂ hm₂ h10 ht hu
  have hv := h.1.2.2.2
  rw [execPlSetMode_eq h hp₁ hl₁ hm₁ fun hA => (h10 hA).1] at ht
  injection ht with ht
  subst ht
  have h' := h.after_answer_of (s.modeSet_onlyMemories c p₁ l₁ m₁) (.ok 0) hk hidle
  obtain ⟨s', hs', hparams, hfirst⟩ : ∃ s' : State,
      { (s.modeSet c p₁ l₁ m₁).respond (.ok 0) with cur := k } = s' ∧ s'.params = s.params ∧
        ∀ o, s'.peek o = (s.modeSet c p₁ l₁ m₁).peek o := ⟨_, rfl, rfl, fun _ => rfl⟩
  rw [hs'] at h' hu
  rw [execPlSetMode_eq h' hp₂ hl₂ hm₂ fun hA => hparams ▸ (h10 hA).2] at hu
  injection hu with hu
  subst hu
  refine ⟨fun hA hne f hf => ?_, fun f hf => (State.respond_peek ..).symm ▸ State.modeSet_fld hv hl₂ hm₂ hf⟩
  rw [State.respond_peek, ← s.modeSet_fld hv hl₁ hm₁ hf, ← hfirst]
  refine fld_congr fun b hb hb' => State.modeSet_outside fun g hg hin => ?_
  obtain ⟨hoff, hgl, hgw⟩ := hin
  obtain ⟨hfoff, hfwidth, hflsb⟩ := mem_modeLoc hf
  obtain ⟨hgoff, hgwidth, hglsb⟩ := mem_modeLoc hg
  have hdiff : l₁.toNat ≠ l₂.toNat ∨ c.family = .B ∧ p₁.toNat ≠ p₂.toNat := by
    by_cases hl : l₁ = l₂
    · refine .inr ⟨?_, fun hp => hne (by rw [hl, BitVec.eq_of_toNat_eq hp])⟩
      cases hfam : c.family with
      | A => exact absurd hl (hA hfam)
      | B => rfl
    · exact .inl fun he => hl (BitVec.eq_of_toNat_eq he)
  have hapart := hv.modeLsbs_apart hl₁ hl₂ hp₁ hp₂ (by rw [← hfoff, ← hgoff, hoff]) hdiff hflsb hglsb
  omega

end Sys2Proof.Machine

namespace Sys2Proof.Machine

/-! SUPPORT. A run of merges in place, each in a register of its own (R141, R164). -/

section MergeRuns

/-- Nothing but the window differs. -/
def OnlyWindow (s u : State) : Prop := u = { s with window := u.window }

theorem OnlyWindow.trans {s t u : State} (h : OnlyWindow s t) (h' : OnlyWindow t u) : OnlyWindow s u :=
  Eq.trans h' (congrArg (fun x : State => { x with window := u.window }) h)

/-- `f` merges `v` under `m` into the register at `o`, and touches no other register and nothing else. -/
def MergesAt (f : State → State) (o : Nat) (m v : Word) : Prop :=
  ∀ s, OnlyWindow s (f s) ∧
    ∀ o', (f s).peek o' = if o' = o then mergeBits (s.peek o) m v else s.peek o'

theorem mergesAt_poke (o : Nat) (m v : Word) :
    MergesAt (fun s => s.poke o (mergeBits (s.peek o) m v)) o m v :=
  fun s => ⟨rfl, fun o' => s.peek_poke o o' _⟩

/-- Where the mask is empty, doing nothing is such a merge. -/
theorem mergesAt_of_zero (o : Nat) (v : Word) : MergesAt (fun s => s) o 0 v := fun s => by
  refine ⟨rfl, fun o' => ?_⟩
  rw [mergeBits_zero_mask]
  split
  · subst_vars
    rfl
  · rfl

/-- A run of merges at distinct registers is each of them at its register. -/
theorem foldl_mergesAt {f : State → Nat → State} {reg : Nat → Nat} {m v : Nat → Word} {n : Nat}
    (hf : ∀ r < n, MergesAt (fun s => f s r) (reg r) (m r) (v r))
    (hinj : ∀ q r, reg q = reg r → q = r) (s : State) :
    OnlyWindow s ((List.range n).foldl f s) ∧
      (∀ r < n, ((List.range n).foldl f s).peek (reg r) = mergeBits (s.peek (reg r)) (m r) (v r)) ∧
      ∀ o, (∀ r < n, o ≠ reg r) → ((List.range n).foldl f s).peek o = s.peek o := by
  induction n with
  | zero => exact ⟨rfl, fun _ hr => absurd hr (Nat.not_lt_zero _), fun _ _ => rfl⟩
  | succ n ih =>
    obtain ⟨hframe, hmerged, hother⟩ := ih fun r hr => hf r (Nat.lt_succ_of_lt hr)
    rw [List.range_succ, List.foldl_append, List.foldl_cons, List.foldl_nil]
    generalize (List.range n).foldl f s = u at hframe hmerged hother
    obtain ⟨hlast, hpeek⟩ := hf n (Nat.lt_succ_self n) u
    refine ⟨hframe.trans hlast, fun r hr => ?_, fun o ho => ?_⟩
    · rw [hpeek]
      by_cases hrn : r = n
      · rw [if_pos (congrArg reg hrn), hrn, hother]
        exact fun q hq he => absurd (hinj _ _ he) (Nat.ne_of_gt hq)
      · rw [if_neg fun he => hrn (hinj _ _ he), hmerged r (by omega)]
    · rw [hpeek, if_neg (ho n (Nat.lt_succ_self n)), hother o fun r hr => ho r (Nat.lt_succ_of_lt hr)]

end MergeRuns

/-! SUPPORT. The selectors of a plane (R93, R96, R141, R142). -/

section Selectors

variable {P : Params} {c : Ctl} {s : State} {m : Media} {pm : PortMask} {pset : Byte} {pc r p b : Nat}

/-- The ports of a register are those below PORT_COUNT that it holds. -/
theorem mem_portsOf {ppr : Nat} (hppr : 0 < ppr) : p ∈ portsOf ppr pc r ↔ p < pc ∧ p / ppr = r := by
  simp only [portsOf, List.mem_filter, List.mem_map, List.mem_range, decide_eq_true_eq]
  constructor
  · rintro ⟨⟨j, hj, rfl⟩, hlt⟩
    exact ⟨hlt, by rw [Nat.mul_add_div hppr, Nat.div_eq_of_lt hj, Nat.add_zero]⟩
  · rintro ⟨hlt, rfl⟩
    exact ⟨⟨p % ppr, Nat.mod_lt _ hppr, Nat.div_add_mod p ppr⟩, hlt⟩

/-- The places of the selectors that one RMW of a register writes. -/
def selLsbs (pm : PortMask) (pc r : Nat) : List Nat :=
  ((portsOf Config.selPpr pc r).filter (portBit pm)).map selBit

theorem mem_selLsbs {l : Nat} :
    l ∈ selLsbs pm pc r ↔ ∃ p, p < pc ∧ p / 16 = r ∧ portBit pm p = true ∧ selBit p = l := by
  simp only [selLsbs, List.mem_map, List.mem_filter, Config.selPpr, mem_portsOf (show 0 < 16 by decide), and_assoc]

theorem foldl_ite_eq_foldl_filter {α β : Type} (q : α → Bool) (g : β → α → β) (l : List α) (acc : β) :
    l.foldl (fun acc p => if q p then g acc p else acc) acc = (l.filter q).foldl g acc := by
  rw [List.foldl_filter]

theorem selMask_eq (pm : PortMask) (pc r : Nat) : selMask pm pc r = planesMask (selLsbs pm pc r) 2 := by
  rw [selMask, foldl_ite_eq_foldl_filter, planesMask, selLsbs, List.foldl_map]
  rfl

theorem selValue_eq (pm : PortMask) (pc r : Nat) (pset : Byte) :
    selValue pm pc r pset = planesValue (selLsbs pm pc r) pset := by
  rw [selValue, foldl_ite_eq_foldl_filter, planesValue, selLsbs, List.foldl_map]

theorem selBit_eq (p : Nat) : selBit p = 2 * (p % 16) := rfl

/-- After a merge of the named selectors the selector of `p` is the set if it is named, and as it was if
not (R141). -/
theorem fld_selectors (old : Word) (hset : pset.toNat ≤ 3) (hp : p < pc) :
    fld (mergeBits old (selMask pm pc (p / 16)) (selValue pm pc (p / 16) pset)) (selBit p) 2 =
      if portBit pm p then pset.setWidth 32 else fld old (selBit p) 2 := by
  rw [selMask_eq, selValue_eq]
  have hplace {l : Nat} (hl : l ∈ selLsbs pm pc (p / 16)) : ∃ j < 16, l = 2 * j := by
    obtain ⟨q, -, -, -, rfl⟩ := mem_selLsbs.mp hl
    exact ⟨q % 16, Nat.mod_lt _ (by decide), rfl⟩
  split
  · refine fld_mergeBits_planes (w := 2) old (by omega) (fun l hl => ?_) (fun l hl l' hl' => ?_) ?_
    · obtain ⟨j, hj, rfl⟩ := hplace hl
      omega
    · obtain ⟨j, hj, rfl⟩ := hplace hl
      obtain ⟨j', hj', rfl⟩ := hplace hl'
      omega
    · exact mem_selLsbs.mpr ⟨p, hp, rfl, ‹_›, rfl⟩
  · rename_i hbit
    refine fld_mergeBits_outside fun i hi => planesMask_outside fun l hl => ?_
    obtain ⟨q, -, hq, hqbit, rfl⟩ := mem_selLsbs.mp hl
    have hqp : q ≠ p := fun he => hbit (he ▸ hqbit)
    rw [selBit_eq, selBit_eq]
    omega

/-- A bit of the register past the last port is in no named selector. -/
theorem selMask_unused (h : pc ≤ 16 * r + b / 2) : (selMask pm pc r).getLsbD b = false := by
  rw [selMask_eq]
  refine planesMask_outside fun l hl => ?_
  obtain ⟨q, hq, rfl, -, rfl⟩ := mem_selLsbs.mp hl
  rw [selBit_eq]
  omega

theorem setSelReg_mergesAt (hv : c.Valid P) (hsel : c.lay.hasPsetSel = true) (m : Media) (pm : PortMask)
    (pset : Byte) (hr : r < c.nSel) :
    MergesAt (fun s => setSelReg c m pm pset s r) (c.selReg m r) (selMask pm c.portCount r)
      (selValue pm c.portCount r pset) := by
  unfold setSelReg
  split
  · rename_i h0
    rw [h0]
    exact mergesAt_of_zero _ _
  · simp only [hv.rmw_led (Ctl.selReg_mem hsel m hr)]
    exact mergesAt_poke _ _ _

/-- The state R141's loop leaves. -/
def State.psetSet (s : State) (c : Ctl) (m : Media) (pm : PortMask) (pset : Byte) : State :=
  (List.range c.nSel).foldl (setSelReg c m pm pset) s

theorem State.psetSet_ignoresLocks (c : Ctl) (m : Media) (pm : PortMask) (pset : Byte) :
    IgnoresLocks fun s => s.psetSet c m pm pset :=
  IgnoresLocks.foldl (fun r => by
    unfold setSelReg
    split
    · exact ⟨fun _ _ => rfl, fun _ _ => rfl⟩
    · exact rmw_ignoresLocks c _ _ _) _

theorem psetChecks_legal {media : Byte} (hsel : c.lay.hasPsetSel = true) (hset : pset.toNat ≤ c.psetMax)
    (hm : mediaOf media = some m) (s : State) (body : Media → State) :
    psetChecks c pset media s body = body m := by
  simp only [psetChecks, hsel, hset, hm, if_true]

/-- A legal PL_SET_PSET_MEMBERSHIP is R141's loop on the valid ports of the mask. -/
theorem execPlSetPset_legal {media : Byte} (h : s.Ready c .portled) (hsel : c.lay.hasPsetSel = true)
    (hset : pset.toNat ≤ c.psetMax) (hm : mediaOf media = some m) (pmask : PortMask) :
    exec (.plSetPset pset pmask media) s =
      .next ((s.psetSet c m (pmask &&& c.validMask) pset).respond (.ok 0)) :=
  congrArg _ (h.start_eq (psetChecks_legal hsel hset hm _ _)
    ((respond_ignoresLocks _).comp (State.psetSet_ignoresLocks c m _ pset)))

theorem State.psetSet_onlyMemories (s : State) (c : Ctl) (m : Media) (pm : PortMask) (pset : Byte) :
    OnlyMemories s (s.psetSet c m pm pset) :=
  OnlyMemories.foldl (setSelReg_onlyMemories c m pm pset) _ s

theorem psetSet_merges (hv : c.Valid P) (hsel : c.lay.hasPsetSel = true) (s : State) (m : Media) (pm : PortMask)
    (pset : Byte) :
    OnlyWindow s (s.psetSet c m pm pset) ∧
      (∀ r < c.nSel, (s.psetSet c m pm pset).peek (c.selReg m r) =
        mergeBits (s.peek (c.selReg m r)) (selMask pm c.portCount r) (selValue pm c.portCount r pset)) ∧
      ∀ o, (∀ r < c.nSel, o ≠ c.selReg m r) → (s.psetSet c m pm pset).peek o = s.peek o :=
  foldl_mergesAt (fun _ hr => setSelReg_mergesAt hv hsel m pm pset hr) (fun _ _ => Ctl.selReg_inj) s

/-- The selector of each port after the loop (R141). -/
theorem psetSet_selector (hv : c.Valid P) (hsel : c.lay.hasPsetSel = true) (hset : pset.toNat ≤ c.psetMax)
    (s : State) (m : Media) (pmask : PortMask) (hp : p < c.portCount) :
    fld ((s.psetSet c m (pmask &&& c.validMask) pset).peek (c.selLoc m p).off) (c.selLoc m p).lsb 2 =
      if pmask.getLsbD p ∧ c.validMask.getLsbD p then pset.setWidth 32
      else fld (s.peek (c.selLoc m p).off) (c.selLoc m p).lsb 2 := by
  obtain ⟨-, hmerged, -⟩ := psetSet_merges hv hsel s m (pmask &&& c.validMask) pset
  have hr : p / 16 < c.nSel := lt_ceilDiv (by decide) hp
  have hbit : portBit (pmask &&& c.validMask) p = true ↔ pmask.getLsbD p ∧ c.validMask.getLsbD p := by
    rw [portBit, BitVec.getLsbD_and, Bool.and_eq_true]
  refine (congrArg (fld · (selBit p) 2) (hmerged (p / 16) hr)).trans ?_
  rw [fld_selectors _ (Nat.le_trans hset hv.psetMax_le) hp]
  simp only [hbit]
  rfl

/-! ### Reading the selectors -/

/-- The ports that one register adds to the result (R142). -/
theorem getLsbD_selMembers {valid acc : PortMask} {w : Word} (hpc : pc ≤ 64) :
    (selMembers valid pc r w pset acc).getLsbD p = true ↔ acc.getLsbD p = true ∨
      (p < pc ∧ p / 16 = r ∧ valid.getLsbD p = true ∧ fld w (selBit p) 2 = pset.setWidth 32) := by
  have hone {q : Nat} : ((1 : PortMask) <<< q).getLsbD p = true ↔ p < 64 ∧ p = q := by
    rw [BitVec.getLsbD_shiftLeft]
    simp
    omega
  rw [selMembers, getLsbD_foldl (Q := fun q => (portBit valid q = true ∧
    fld w (selBit q) 2 = pset.setWidth 32) ∧ p < 64 ∧ p = q)]
  · refine or_congr_right ⟨?_, ?_⟩
    · rintro ⟨q, hq, ⟨hv, hf⟩, -, rfl⟩
      obtain ⟨hlt, hdiv⟩ := (mem_portsOf (by decide)).mp hq
      exact ⟨hlt, hdiv, hv, hf⟩
    · rintro ⟨hlt, hdiv, hv, hf⟩
      exact ⟨p, (mem_portsOf (by decide)).mpr ⟨hlt, hdiv⟩, ⟨hv, hf⟩, by omega, rfl⟩
  · intro acc q
    split
    · rename_i h
      rw [Bool.and_eq_true, beq_iff_eq] at h
      rw [getLsbD_or_iff, hone]
      exact or_congr_right ⟨fun hp => ⟨h, hp⟩, And.right⟩
    · rename_i h
      rw [Bool.and_eq_true, beq_iff_eq] at h
      exact ⟨.inl, fun hp => hp.resolve_right fun hq => h hq.1⟩

/-- R142's loop reads registers, so it leaves the state and collects their members. -/
theorem foldl_getSelReg (hv : c.Valid P) (hsel : c.lay.hasPsetSel = true) (m : Media) (pset : Byte) (s : State)
    {l : List Nat} (hl : ∀ r ∈ l, r < c.nSel) (acc : PortMask) :
    l.foldl (getSelReg c m pset) (s, acc) =
      (s, l.foldl (fun acc r => selMembers c.validMask c.portCount r (s.peek (c.selReg m r)) pset acc) acc) := by
  induction l generalizing acc with
  | nil => rfl
  | cons r l ih =>
    have hmem := Ctl.selReg_mem hsel m (hl r List.mem_cons_self)
    have hreg := Ctl.isReg_of_domain (hv.domainOf_led hmem)
    rw [List.foldl_cons, List.foldl_cons, getSelReg, State.afterRead_plain s c hreg (hv.notLoad_led hmem),
      State.readValue_plain s c hreg (hv.notLoad_led hmem), ih fun q hq => hl q (List.mem_cons_of_mem _ hq)]

/-- The ports whose selector in the plane is the set. -/
def State.psetMembers (s : State) (c : Ctl) (m : Media) (pset : Byte) : PortMask :=
  (List.range c.nSel).foldl
    (fun acc r => selMembers c.validMask c.portCount r (s.peek (c.selReg m r)) pset acc) 0

theorem getLsbD_psetMembers (hpc : c.portCount ≤ 64) (s : State) (m : Media) (pset : Byte) (p : Nat) :
    (s.psetMembers c m pset).getLsbD p = true ↔ p < c.portCount ∧ c.validMask.getLsbD p = true ∧
      fld (s.peek (c.selLoc m p).off) (c.selLoc m p).lsb 2 = pset.setWidth 32 := by
  rw [State.psetMembers, getLsbD_foldl (Q := fun r => p < c.portCount ∧ p / 16 = r ∧
    c.validMask.getLsbD p = true ∧ fld (s.peek (c.selReg m r)) (selBit p) 2 = pset.setWidth 32)
    fun acc r => getLsbD_selMembers hpc]
  constructor
  · rintro (h0 | ⟨r, -, hp, rfl, hv, hf⟩)
    · simp at h0
    · exact ⟨hp, hv, hf⟩
  · rintro ⟨hp, hv, hf⟩
    exact .inr ⟨p / 16, List.mem_range.mpr (lt_ceilDiv (by decide) hp), hp, rfl, hv, hf⟩

/-- A legal PL_GET_PSET_MEMBERSHIP responds with them. -/
theorem execPlGetPset_legal {media : Byte} (h : s.Ready c .portled) (hsel : c.lay.hasPsetSel = true)
    (hset : pset.toNat ≤ c.psetMax) (hm : mediaOf media = some m) :
    exec (.plGetPset pset media) s = .next (s.respond (.ok (s.psetMembers c m pset))) := by
  refine congrArg _ (h.start_respond ((psetChecks_legal hsel hset hm _ _).trans ?_))
  rw [foldl_getSelReg h.1.2.2.2 hsel m pset _ (fun r hr => List.mem_range.mp hr)]
  simp only [State.acquire_peek, State.psetMembers]

/-- What the checks the two operations share report, in their order (R85, R192). -/
theorem psetChecks_error {media : Byte} {e : Response}
    (he : c.lay.hasPsetSel = false ∧ e = .error .unsupportedOperation ∨
      c.lay.hasPsetSel = true ∧ c.psetMax < pset.toNat ∧ e = .range c.psetMax ∨
      c.lay.hasPsetSel = true ∧ pset.toNat ≤ c.psetMax ∧ 2 ≤ media.toNat ∧ e = .error .invalidArgument)
    (s : State) (body : Media → State) : psetChecks c pset media s body = s.respond e := by
  obtain ⟨hsel, rfl⟩ | ⟨hsel, hset, rfl⟩ | ⟨hsel, hset, hmedia, rfl⟩ := he
  · simp only [psetChecks, hsel, Bool.false_eq_true, if_false]
  · simp only [psetChecks, hsel, if_true, if_neg (Nat.not_le.mpr hset)]
  · have hnone : mediaOf media = none := by
      have h0 : media ≠ 0 := fun he => by rw [he] at hmedia; exact absurd hmedia (by decide)
      have h1 : media ≠ 1 := fun he => by rw [he] at hmedia; exact absurd hmedia (by decide)
      rw [mediaOf, if_neg h0, if_neg h1]
    simp only [psetChecks, hsel, hset, hnone, if_true]

end Selectors

/-! PROOFS. The membership operations (R141, R142, R145, R192). -/

/-- Settles O40: R141's loop merges each selector register in place. -/
theorem setPsetWritesTheNamedSelectors : Obligations.SetPsetWritesTheNamedSelectors := by
  intro s c pset pmask media m h hsel hset hm
  have hv := h.1.2.2.2
  obtain ⟨hwindow, hmerged, hother⟩ := psetSet_merges hv hsel s m (pmask &&& c.validMask) pset
  refine ⟨_, execPlSetPset_legal h hsel hset hm pmask, returned_respond h.1.1 (s.psetSet_onlyMemories c m _ _) _,
    ?_, fun p hp => psetSet_selector hv hsel hset s m pmask hp, fun r hr b hb => ?_, hother⟩
  · exact congrArg (fun u : State => { u with
      callers := ((s.psetSet c m (pmask &&& c.validMask) pset).respond (.ok 0)).callers }) hwindow
  · rw [State.respond_peek, hmerged r hr, getLsbD_mergeBits, selMask_unused hb, if_neg Bool.false_ne_true]

/-- Settles O41: R142's loop collects the members register by register. -/
theorem getPsetReturnsTheMembers : Obligations.GetPsetReturnsTheMembers := by
  intro s c pset media m h hsel hset hm
  exact ⟨_, _, execPlGetPset_legal h hsel hset hm, returned_respond h.1.1 (.refl s) _, rfl,
    getLsbD_psetMembers (Nat.le_trans h.1.2.2.2.counts.2.1 (by decide)) s m pset⟩

/-- Settles O42: both operations make the same checks. -/
theorem membershipErrorsComeInOrder : Obligations.MembershipErrorsComeInOrder := by
  intro s c pset media pmask i e h hi he
  refine ⟨s.respond e, ?_, returned_respond h.1.1 (.refl s) _, rfl⟩
  obtain rfl | rfl := hi
  · exact congrArg _ (h.start_respond (psetChecks_error he _ _))
  · exact congrArg _ (h.start_respond (psetChecks_error he _ _))

/-- Settles O60: the selectors after the second loop, over those after the first. -/
theorem twoMembershipWritesBothSurvive : Obligations.TwoMembershipWritesBothSurvive := by
  intro s t u c k q₁ q₂ media pmask₁ pmask₂ m h hk hidle hsel hset₁ hset₂ hm ht hu p hp
  have hv := h.1.2.2.2
  rw [execPlSetPset_legal h hsel hset₁ hm] at ht
  injection ht with ht
  subst ht
  have h' := h.after_answer_of (s.psetSet_onlyMemories c m (pmask₁ &&& c.validMask) q₁) (.ok 0) hk hidle
  obtain ⟨s', hs', hfirst⟩ : ∃ s' : State,
      { (s.psetSet c m (pmask₁ &&& c.validMask) q₁).respond (.ok 0) with cur := k } = s' ∧
        ∀ o, s'.peek o = (s.psetSet c m (pmask₁ &&& c.validMask) q₁).peek o := ⟨_, rfl, fun _ => rfl⟩
  rw [hs'] at h' hu
  rw [execPlSetPset_legal h' hsel hset₂ hm] at hu
  injection hu with hu
  subst hu
  rw [State.respond_peek, psetSet_selector hv hsel hset₂ s' m pmask₂ hp, hfirst,
    psetSet_selector hv hsel hset₁ s m pmask₁ hp]

end Sys2Proof.Machine

namespace Sys2Proof.Machine

/-! SUPPORT. The enable bits (R35, R95, R163). -/

section EnableBits

variable {P : Params} {s : State} {c : Ctl} {port led : Byte}

theorem State.enabled_eq (s : State) (c : Ctl) (p i : Nat) :
    s.enabled c p i = (s.peek (c.enaLoc p i).off).getLsbD (c.enaLoc p i).bit :=
  fld_one_eq _ _

theorem one_shiftLeft_eq_mask (b : Nat) : (1 : Word) <<< b = mask b 1 := rfl

/-- The write of an enable bit is a merge in place. -/
theorem Ctl.Valid.writeEnable_eq (h : c.Valid P) (hp : port.toNat < c.portCount) (s : State) (led : Byte)
    (on : Bool) :
    s.writeEnable c port led on = s.poke (c.enaLoc port.toNat led.toNat).off
      (mergeBits (s.peek (c.enaLoc port.toNat led.toNat).off) (mask (c.enaLoc port.toNat led.toNat).bit 1)
        ((if on then (1 : Word) else 0) <<< (c.enaLoc port.toNat led.toNat).bit)) := by
  rw [State.writeEnable, h.rmw_led (h.enaLoc_mem _ hp), one_shiftLeft_eq_mask]

/-- After it that bit is as written, and every other enable bit as it was. -/
theorem Ctl.Valid.writeEnable_enabled (h : c.Valid P) (hp : port.toNat < c.portCount)
    (hl : led.toNat < c.ledCount) (s : State) (on : Bool) (q j : Nat) (hj : j < c.ledCount) :
    (s.writeEnable c port led on).enabled c q j =
      if q = port.toNat ∧ j = led.toNat then on else s.enabled c q j := by
  have hbit := h.enaBit_lt port.toNat hl
  have hin : (mask (c.enaBit port.toNat led.toNat) 1).getLsbD (c.enaBit port.toNat led.toNat) = true :=
    getLsbD_mask_inside hbit (Nat.le_refl _) (Nat.lt_succ_self _)
  rw [State.enabled_eq, State.enabled_eq, h.writeEnable_eq hp, State.peek_poke]
  by_cases hsame : q = port.toNat ∧ j = led.toNat
  · obtain ⟨rfl, rfl⟩ := hsame
    rw [if_pos (And.intro rfl rfl), if_pos (rfl : (c.enaLoc _ _).off = _), getLsbD_mergeBits]
    refine (if_pos hin).trans ?_
    cases on <;> simp [Ctl.enaLoc, hbit]
  · rw [if_neg hsame]
    split
    · rename_i hoff
      rw [hoff, getLsbD_mergeBits, getLsbD_mask_outside, if_neg Bool.false_ne_true]
      have hdiff : c.enaBit q j ≠ c.enaBit port.toNat led.toNat := fun he =>
        hsame (h.enaBit_inj hj hl (Ctl.enaReg_inj hoff) he)
      exact Nat.lt_or_gt_of_ne hdiff
    · rfl

/-- It changes no other bit of any register. -/
theorem Ctl.Valid.writeEnable_onlyBits (h : c.Valid P) (hp : port.toNat < c.portCount) (s : State) (led : Byte)
    (on : Bool) :
    OnlyBits s (s.writeEnable c port led on) (c.enaLoc port.toNat led.toNat).off
      (mask (c.enaLoc port.toNat led.toNat).bit 1) := by
  rw [h.writeEnable_eq hp]
  exact onlyBits_poke_merge s _ _ _ (.ok 0)

theorem writeEnable_ignoresLocks (c : Ctl) (port led : Byte) (on : Bool) :
    IgnoresLocks fun s => s.writeEnable c port led on :=
  rmw_ignoresLocks c _ _ _

theorem State.writeEnable_onlyMemories (s : State) (c : Ctl) (port led : Byte) (on : Bool) :
    OnlyMemories s (s.writeEnable c port led on) :=
  s.rmw_onlyMemories c _ _ _

theorem Ctl.inRange_iff (c : Ctl) (port led : Byte) :
    c.inRange port led = true ↔ port.toNat < c.portCount ∧ led.toNat < c.ledCount := by
  simp only [Ctl.inRange, Bool.and_eq_true, decide_eq_true_eq]

/-- PL_REGISTER_USER_LED in range is the write of one enable bit (R163). -/
theorem execPlRegisterUserLed_legal (h : s.Ready c .portled) (hin : c.inRange port led = true) (flag : Bool) :
    exec (.plRegisterUserLed port led flag) s = .next ((s.writeEnable c port led flag).respond (.ok 0)) :=
  congrArg _ (h.start_eq (if_pos hin) ((respond_ignoresLocks _).comp (writeEnable_ignoresLocks c port led flag)))

theorem execPlRegisterUserLed_error (h : s.Ready c .portled) (hin : ¬c.inRange port led = true) (flag : Bool) :
    exec (.plRegisterUserLed port led flag) s = .next (s.respond (.error .invalidArgument)) :=
  congrArg _ (h.start_respond (if_neg hin))

end EnableBits

/-- Settles O48. -/
theorem registerUserLedWritesTheEnableBit : Obligations.RegisterUserLedWritesTheEnableBit := by
  intro s c port led flag h hp hl
  have hv := h.1.2.2.2
  refine ⟨_, execPlRegisterUserLed_legal h ((c.inRange_iff port led).mpr ⟨hp, hl⟩) flag,
    returned_respond h.1.1 (s.writeEnable_onlyMemories c _ _ _) _, ?_, ?_, hv.writeEnable_onlyBits hp s led flag⟩
  · rw [hv.writeEnable_eq hp]
    rfl
  · exact (hv.writeEnable_enabled hp hl s flag _ _ hl).trans (if_pos ⟨rfl, rfl⟩)

/-! SUPPORT. The registry (R39, R182, R183). -/

section Registry

variable {P : Params} {s : State} {c : Ctl} {port led : Byte}

theorem bindKey_inj {p i q j : Byte} : bindKey p i = bindKey q j ↔ p = q ∧ i = j := by
  unfold bindKey
  constructor
  · intro h
    have := i.isLt
    have := j.isLt
    exact ⟨BitVec.eq_of_toNat_eq (by omega), BitVec.eq_of_toNat_eq (by omega)⟩
  · rintro ⟨rfl, rfl⟩
    rfl

theorem State.setBinding_binding (s : State) (port led : Byte) (b : BindMode) (p i : Byte) :
    (s.setBinding port led b).binding p i = if p = port ∧ i = led then b else s.binding p i := by
  rw [State.binding, State.setBinding_bind, Store.read_write]
  simp only [bindKey_inj]
  rfl

theorem State.writeEnable_binding (s : State) (c : Ctl) (port led : Byte) (on : Bool) (p i : Byte) :
    (s.writeEnable c port led on).binding p i = s.binding p i := by
  rw [State.binding, State.writeEnable, State.rmw_bind]
  rfl

/-- What a user binding, or the end of one, does: the enable bit, then the registry's entry. -/
def State.bindUser (s : State) (c : Ctl) (port led : Byte) (on : Bool) (b : BindMode) : State :=
  (s.writeEnable c port led on).setBinding port led b

theorem State.bindUser_onlyMemories (s : State) (c : Ctl) (port led : Byte) (on : Bool) (b : BindMode) :
    OnlyMemories s (s.bindUser c port led on b) :=
  (s.writeEnable_onlyMemories c port led on).trans (State.setBinding_onlyMemories _ port led b)

theorem State.bindUser_binding (s : State) (c : Ctl) (port led : Byte) (on : Bool) (b : BindMode) (p i : Byte) :
    (s.bindUser c port led on b).binding p i = if p = port ∧ i = led then b else s.binding p i := by
  rw [State.bindUser, State.setBinding_binding, State.writeEnable_binding]

theorem Ctl.Valid.bindUser_enabled (h : c.Valid P) (hp : port.toNat < c.portCount) (hl : led.toNat < c.ledCount)
    (s : State) (on : Bool) (b : BindMode) (q j : Nat) (hj : j < c.ledCount) :
    (s.bindUser c port led on b).enabled c q j =
      if q = port.toNat ∧ j = led.toNat then on else s.enabled c q j :=
  h.writeEnable_enabled hp hl s on q j hj

theorem bindUser_ignoresLocks (c : Ctl) (port led : Byte) (on : Bool) (b : BindMode) :
    IgnoresLocks fun s => s.bindUser c port led on b :=
  (setBinding_ignoresLocks port led b).comp (writeEnable_ignoresLocks c port led on)

/-- REG_BIND of an unbound pair (R182). -/
theorem execRegBind_user (h : s.Ready c .portled) (hok : c.bindable port led = true)
    (hb : s.binding port led = .none) :
    exec (.regBind port led true) s = .next ((s.bindUser c port led true .user).respond (.ok 0)) := by
  refine congrArg _ (h.start_eq ?_ ((respond_ignoresLocks _).comp (bindUser_ignoresLocks c port led true .user)))
  rw [if_pos hok, if_pos (by rw [State.acquire_binding, hb]), if_pos rfl]
  rfl

theorem execRegBind_asic (h : s.Ready c .portled) (hok : c.bindable port led = true)
    (hb : s.binding port led = .none) :
    exec (.regBind port led false) s = .next ((s.setBinding port led .asic).respond (.ok 0)) := by
  refine congrArg _ (h.start_eq ?_ ((respond_ignoresLocks _).comp (setBinding_ignoresLocks port led .asic)))
  rw [if_pos hok, if_pos (by rw [State.acquire_binding, hb]), if_neg Bool.false_ne_true]

theorem execRegBind_error (h : s.Ready c .portled) (hok : ¬c.bindable port led = true) (asUser : Bool) :
    exec (.regBind port led asUser) s = .next (s.respond (.error .invalidArgument)) :=
  congrArg _ (h.start_respond (if_neg hok))

theorem execRegBind_warned (h : s.Ready c .portled) (hok : c.bindable port led = true)
    (hb : s.binding port led ≠ .none) (asUser : Bool) :
    exec (.regBind port led asUser) s = .next (s.respond .warned) := by
  refine congrArg _ (h.start_respond ?_)
  rw [if_pos hok, if_neg (by rwa [State.acquire_binding])]

/-- REG_UNBIND of a bound pair (R183). -/
theorem execRegUnbind_user (h : s.Ready c .portled) (hok : c.bindable port led = true)
    (hb : s.binding port led = .user) :
    exec (.regUnbind port led) s = .next ((s.bindUser c port led false .none).respond (.ok 0)) := by
  refine congrArg _ (h.start_eq ?_ ((respond_ignoresLocks _).comp (bindUser_ignoresLocks c port led false .none)))
  simp only [if_pos hok, State.acquire_binding, hb]
  rfl

theorem execRegUnbind_asic (h : s.Ready c .portled) (hok : c.bindable port led = true)
    (hb : s.binding port led = .asic) :
    exec (.regUnbind port led) s = .next ((s.setBinding port led .none).respond (.ok 0)) := by
  refine congrArg _ (h.start_eq ?_ ((respond_ignoresLocks _).comp (setBinding_ignoresLocks port led .none)))
  simp only [if_pos hok, State.acquire_binding, hb]

theorem execRegUnbind_error (h : s.Ready c .portled) (hok : ¬c.bindable port led = true) :
    exec (.regUnbind port led) s = .next (s.respond (.error .invalidArgument)) :=
  congrArg _ (h.start_respond (if_neg hok))

theorem execRegUnbind_warned (h : s.Ready c .portled) (hok : c.bindable port led = true)
    (hb : s.binding port led = .none) :
    exec (.regUnbind port led) s = .next (s.respond .warned) := by
  refine congrArg _ (h.start_respond ?_)
  simp only [if_pos hok, State.acquire_binding, hb]

end Registry

/-! PROOFS. The registry (R182 to R185). -/

/-- Settles O53: a user binding is `bindUser`, an ASIC one `setBinding`. -/
theorem bindRegistersThePair : Obligations.BindRegistersThePair := by
  intro s c port led asUser h hp hl hvp hb
  have hv := h.1.2.2.2
  have hok := (c.bindable_iff port led).mpr ⟨hp, hl, hvp⟩
  cases asUser with
  | true =>
    refine ⟨_, execRegBind_user h hok hb, returned_respond h.1.1 (s.bindUser_onlyMemories c _ _ _ _) _, ?_,
      fun p i => s.bindUser_binding c port led true .user p i, ?_, hv.writeEnable_onlyBits hp s led true⟩
    · rw [State.bindUser, hv.writeEnable_eq hp]
      rfl
    · exact (hv.bindUser_enabled hp hl s true .user _ _ hl).trans (if_pos ⟨rfl, rfl⟩)
  | false =>
    exact ⟨_, execRegBind_asic h hok hb, returned_respond h.1.1 (s.setBinding_onlyMemories _ _ _) _, rfl,
      fun p i => s.setBinding_binding port led .asic p i, rfl⟩

/-- Settles O54, by the mode of the binding. -/
theorem unbindReleasesThePair : Obligations.UnbindReleasesThePair := by
  intro s c port led h hp hl hvp hb
  have hv := h.1.2.2.2
  have hok := (c.bindable_iff port led).mpr ⟨hp, hl, hvp⟩
  cases hmode : s.binding port led with
  | none => exact absurd hmode hb
  | asic =>
    exact ⟨_, execRegUnbind_asic h hok hmode, returned_respond h.1.1 (s.setBinding_onlyMemories _ _ _) _, rfl,
      fun p i => s.setBinding_binding port led .none p i, rfl⟩
  | user =>
    refine ⟨_, execRegUnbind_user h hok hmode, returned_respond h.1.1 (s.bindUser_onlyMemories c _ _ _ _) _, ?_,
      fun p i => s.bindUser_binding c port led false .none p i, ?_, hv.writeEnable_onlyBits hp s led false⟩
    · rw [State.bindUser, hv.writeEnable_eq hp]
      rfl
    · exact (hv.bindUser_enabled hp hl s false .none _ _ hl).trans (if_pos ⟨rfl, rfl⟩)

/-- Settles O56: both operations make the check first. -/
theorem registryErrorsChangeNothing : Obligations.RegistryErrorsChangeNothing := by
  intro s c port led asUser i h hbad hi
  have hno : ¬c.bindable port led = true := by
    rw [c.bindable_iff]
    rintro ⟨hp, hl, hvp⟩
    obtain hp' | hl' | hvp' := hbad
    · exact absurd hp (Nat.not_lt.mpr hp')
    · exact absurd hl (Nat.not_lt.mpr hl')
    · rw [hvp] at hvp'
      cases hvp'
  refine ⟨s.respond (.error .invalidArgument), ?_, returned_respond h.1.1 (.refl s) _, rfl⟩
  obtain rfl | rfl := hi
  · exact execRegBind_error h hno asUser
  · exact execRegUnbind_error h hno

/-- Settles O57: after a user binding the unbinding clears the bit, after an ASIC one it leaves it. -/
theorem bindThenUnbindRestoresTheEnableBit : Obligations.BindThenUnbindRestoresTheEnableBit := by
  intro s t u c port led asUser h hp hl hvp hb ht hu
  have hv := h.1.2.2.2
  have hok := (c.bindable_iff port led).mpr ⟨hp, hl, hvp⟩
  cases asUser with
  | true =>
    rw [execRegBind_user h hok hb] at ht
    injection ht with ht
    have hready := h.after_answer (s.bindUser_onlyMemories c port led true .user) (.ok 0)
    have hbound : t.binding port led = .user := by
      rw [← ht]
      exact (s.bindUser_binding c port led true .user port led).trans (if_pos ⟨rfl, rfl⟩)
    rw [ht] at hready
    rw [execRegUnbind_user hready hok hbound] at hu
    injection hu with hu
    subst hu
    have hoff : ((t.bindUser c port led false .none).respond (.ok 0)).enabled c port.toNat led.toNat = false :=
      (hv.bindUser_enabled hp hl t false .none _ _ hl).trans (if_pos ⟨rfl, rfl⟩)
    refine ⟨(t.bindUser_binding c port led false .none port led).trans (if_pos ⟨rfl, rfl⟩), fun hcase => ?_,
      fun _ => hoff⟩
    rw [hoff, hcase.resolve_left nofun]
  | false =>
    rw [execRegBind_asic h hok hb] at ht
    injection ht with ht
    have hready := h.after_answer (s.setBinding_onlyMemories port led .asic) (.ok 0)
    have hbound : t.binding port led = .asic := by
      rw [← ht]
      exact (s.setBinding_binding port led .asic port led).trans (if_pos ⟨rfl, rfl⟩)
    rw [ht] at hready
    rw [execRegUnbind_asic hready hok hbound] at hu
    injection hu with hu
    subst hu
    refine ⟨(t.setBinding_binding port led .none port led).trans (if_pos ⟨rfl, rfl⟩), fun _ => ?_, nofun⟩
    rw [← ht]
    rfl

end Sys2Proof.Machine

namespace Sys2Proof.Machine

/-! SUPPORT. The commit (R165). -/

section Commit

variable {P : Params} {c : Ctl} {s u : State}

/-- The commit writes no bit but LOAD. -/
theorem Ctl.Valid.commit_getLsbD (h : c.Valid P) (u : State) {o b : Nat}
    (hb : ∀ l ∈ c.lay.load, ¬(o = l.off ∧ b = l.bit)) :
    ((u.commit c).peek o).getLsbD b = (u.peek o).getLsbD b := by
  cases hl : c.lay.load with
  | none => rw [u.commit_none c hl]
  | some l =>
    by_cases ho : o = l.off
    · have hbit : b ≠ l.bit := fun he => hb l hl ⟨ho, he⟩
      have hengages : c.engagesLoad l.off (mask l.bit 1) = true := by
        simp [Ctl.engagesLoad, hl, h.load_fits l hl]
      simp only [State.commit, hl]
      rw [ho, State.rmw_engaged u c _ hengages, State.writeReg_peek_same _ c _ (h.load_isReg hl), getLsbD_mergeBits,
        getLsbD_mask_outside (by omega), if_neg Bool.false_ne_true]
    · have hload : c.isLoad o = false := by
        simp [Ctl.isLoad, hl, Ne.symm ho]
      rw [u.commit_peek_other c hload]

/-- On the load family it moves every port's register to its latch. -/
theorem Ctl.Valid.commit_swLatch (h : c.Valid P) (u : State) (p : Nat) :
    (u.commit c).swLatch.read 0 p =
      if c.lay.load.isSome ∧ p < c.portCount then (u.commit c).peek (c.swReg p) else u.swLatch.read 0 p := by
  cases hl : c.lay.load with
  | none => rw [u.commit_none c hl, if_neg fun hp => nomatch hp.1]
  | some l =>
    have hfits := h.load_fits l hl
    have hengages : c.engagesLoad l.off (mask l.bit 1) = true := by
      simp [Ctl.engagesLoad, hl, hfits]
    have hstrobe : (mergeBits (u.peek l.off) (mask l.bit 1) ((1 : Word) <<< l.bit)).getLsbD l.bit = true := by
      rw [getLsbD_mergeBits, getLsbD_mask_inside hfits (Nat.le_refl _) (Nat.lt_succ_self _), if_pos rfl,
        one_shiftLeft_eq_mask, getLsbD_mask_inside hfits (Nat.le_refl _) (Nat.lt_succ_self _)]
    have hlatch : (u.commit c).swLatch.read 0 p =
        if p < c.portCount then u.peek (c.swReg p) else u.swLatch.read 0 p := by
      simp only [State.commit, hl]
      rw [State.rmw_engaged u c _ hengages, h.writeReg_swLatch]
      simp only [show (∃ l' ∈ c.lay.load, l'.off = l.off ∧ (mergeBits (u.peek l.off) (mask l.bit 1)
        ((1 : Word) <<< l.bit)).getLsbD l'.bit = true) from ⟨l, hl, rfl, hstrobe⟩, true_and]
    rw [hlatch]
    simp only [Option.isSome_some, true_and]
    split
    · rename_i hp
      rw [u.commit_peek_other c (h.notLoad_led (Ctl.swReg_mem hp))]
    · rfl

/-- What the answer after a commit leaves alone. -/
theorem Ctl.Valid.commit_respond_eq (h : c.Valid P) (hu : OnlyWindow s u) (r : Response) :
    (u.commit c).respond r = { s with
      window := ((u.commit c).respond r).window
      swLatch := ((u.commit c).respond r).swLatch
      callers := ((u.commit c).respond r).callers } := by
  have hcommit := u.commit_eq c fun l hl => ⟨h.load_fits l hl, h.load_isReg hl⟩
  rw [hu] at hcommit ⊢
  rw [hcommit]
  rfl

/-- The latches after it, where nothing before it changed them. -/
theorem Ctl.Valid.commit_respond_swLatch (h : c.Valid P) (hu : OnlyWindow s u) (r : Response) (p : Nat) :
    ((u.commit c).respond r).swLatch.read 0 p =
      if c.lay.load.isSome ∧ p < c.portCount then ((u.commit c).respond r).peek (c.swReg p)
      else s.swLatch.read 0 p := by
  have hlatch : u.swLatch = s.swLatch := by rw [hu]
  rw [← hlatch]
  exact h.commit_swLatch u p

theorem OnlyWindow.onlyMemories (h : OnlyWindow s u) : OnlyMemories s u := by
  rw [h]
  exact ⟨rfl, rfl, rfl, rfl, rfl, rfl, rfl, rfl, rfl, rfl⟩

/-- The answer after a commit ends the caller's request. -/
theorem OnlyWindow.returned_commit (hu : OnlyWindow s u) (hlt : s.cur < s.callers.length) (c : Ctl) (r : Response) :
    Returned s ((u.commit c).respond r) r :=
  returned_respond hlt (hu.onlyMemories.trans (u.commit_onlyMemories c)) r

/-- After the commit the LEDs of a port show its register (R37). -/
theorem Ctl.Valid.commit_shownWord (h : c.Valid P) (u : State) {p : Nat} (hp : p < c.portCount) :
    (u.commit c).shownWord c p = u.peek (c.swReg p) := by
  rw [State.shownWord, h.commit_swLatch, u.commit_peek_other c (h.notLoad_led (Ctl.swReg_mem hp))]
  split <;> simp_all

end Commit

/-! SUPPORT. The software-LED fields (R94, R162). -/

section SoftwareLeds

variable {P : Params} {s : State} {c : Ctl} {port led mode : Byte}

theorem Ctl.mem_swLsbs {i l : Nat} :
    l ∈ c.swLsbs i ↔ l = 3 * i ∨ c.lay.load.isSome = true ∧ l = c.lay.swMirrorOff + 3 * i := by
  unfold Ctl.swLsbs
  split <;> simp_all [Config.swFl]

theorem Ctl.mem_swLoc {p i : Nat} {f : FieldLoc} :
    f ∈ c.swLoc p i ↔ ∃ l ∈ c.swLsbs i, { off := c.swReg p, lsb := l, width := 3 } = f := by
  rw [Ctl.swLoc, List.mem_map]
  rfl

theorem Ctl.swMask_eq (i : Nat) : c.swMask i = planesMask (c.swLsbs i) 3 := rfl

theorem Ctl.swValue_eq (i : Nat) (raw : BitVec 3) : c.swValue i raw = planesValue (c.swLsbs i) raw := rfl

/-- The planes of an LED index lie inside the register, and apart. -/
theorem Ctl.Valid.swLsbs_fit (h : c.Valid P) {i l : Nat} (hi : i < c.ledCount) (hl : l ∈ c.swLsbs i) : l + 3 ≤ 32 := by
  have := h.sw
  obtain rfl | ⟨-, rfl⟩ := Ctl.mem_swLsbs.mp hl <;> omega

theorem Ctl.Valid.swLsbs_apart (h : c.Valid P) {i l l' : Nat} (hi : i < c.ledCount) (hl : l ∈ c.swLsbs i)
    (hl' : l' ∈ c.swLsbs i) : l = l' ∨ l + 3 ≤ l' ∨ l' + 3 ≤ l := by
  have := h.sw
  obtain rfl | ⟨-, rfl⟩ := Ctl.mem_swLsbs.mp hl <;> obtain rfl | ⟨-, rfl⟩ := Ctl.mem_swLsbs.mp hl' <;> omega

theorem execPlSetUserMode_error (h : s.Ready c .portled)
    (hbad : ¬c.inRange port led = true ∨ swRaw c.lay mode = none) :
    exec (.plSetUserMode port led mode) s = .next (s.respond (.error .invalidArgument)) := by
  refine congrArg _ (h.start_respond ?_)
  by_cases hin : c.inRange port led = true
  · simp only [if_pos hin, hbad.resolve_left (not_not_intro hin)]
  · rw [if_neg hin]

/-- The RMW of PL_SET_USER_MODE (R162). -/
def State.rawSet (s : State) (c : Ctl) (port led : Byte) (raw : BitVec 3) : State :=
  s.rmw c (c.swReg port.toNat) (c.swMask led.toNat) (c.swValue led.toNat raw)

theorem Ctl.Valid.rawSet_eq (h : c.Valid P) (hp : port.toNat < c.portCount) (s : State) (led : Byte) (raw : BitVec 3) :
    s.rawSet c port led raw = s.poke (c.swReg port.toNat)
      (mergeBits (s.peek (c.swReg port.toNat)) (planesMask (c.swLsbs led.toNat) 3)
        (planesValue (c.swLsbs led.toNat) raw)) :=
  h.rmw_led (Ctl.swReg_mem hp) s _ _

theorem execPlSetUserMode_legal (h : s.Ready c .portled) (hin : c.inRange port led = true) {raw : BitVec 3}
    (hraw : swRaw c.lay mode = some raw) :
    exec (.plSetUserMode port led mode) s = .next (((s.rawSet c port led raw).commit c).respond (.ok 0)) := by
  refine congrArg _ (h.start_eq ?_ ((respond_ignoresLocks _).comp
    ((commit_ignoresLocks c).comp (rmw_ignoresLocks c _ _ _))))
  simp only [if_pos hin, hraw]

end SoftwareLeds

/-! PROOFS. The software-LED operations (R162, R163, R165, R167). -/

/-- Settles O49. -/
theorem userLedErrorsChangeNothing : Obligations.UserLedErrorsChangeNothing := by
  intro s c port led mode flag i h hcase
  have hno (hbad : c.portCount ≤ port.toNat ∨ c.ledCount ≤ led.toNat) : ¬c.inRange port led = true := fun hin => by
    obtain ⟨hp, hl⟩ := (c.inRange_iff port led).mp hin
    omega
  refine ⟨s.respond (.error .invalidArgument), ?_, returned_respond h.1.1 (.refl s) _, rfl⟩
  obtain ⟨hbad, rfl | rfl⟩ | ⟨hmode, rfl⟩ := hcase
  · exact execPlSetUserMode_error h (.inl (hno hbad))
  · exact execPlRegisterUserLed_error h (hno hbad) flag
  · refine execPlSetUserMode_error h (.inr ?_)
    rw [swRaw]
    obtain hbig | hnone := hmode
    · exact if_neg (Nat.not_le.mpr hbig)
    · rw [hnone, ite_self]

/-- Settles O47: the merge of the raw code into the planes, then the commit. -/
theorem setUserModeWritesAndCommits : Obligations.SetUserModeWritesAndCommits := by
  intro s c port led mode raw h hp hl hraw
  have hv := h.1.2.2.2
  have hmem := Ctl.swReg_mem hp
  have heq := hv.rawSet_eq hp s led raw
  have hwin : OnlyWindow s (s.rawSet c port led raw) := by
    rw [heq]
    rfl
  have hfld {l : Nat} (hlsb : l ∈ c.swLsbs led.toNat) :
      fld ((s.rawSet c port led raw).peek (c.swReg port.toNat)) l 3 = raw.setWidth 32 := by
    rw [heq, State.peek_poke_same]
    exact fld_mergeBits_planes _ raw.isLt (fun _ => hv.swLsbs_fit hl) (fun _ hl₁ _ => hv.swLsbs_apart hl hl₁) hlsb
  refine ⟨_, execPlSetUserMode_legal h ((c.inRange_iff port led).mpr ⟨hp, hl⟩) hraw,
    hwin.returned_commit h.1.1 c _, hv.commit_respond_eq hwin _, fun f hf => ?_, fun o b hb hload => ?_,
    hv.commit_respond_swLatch hwin _, ?_⟩
  · obtain ⟨l, hlsb, rfl⟩ := Ctl.mem_swLoc.mp hf
    rw [State.respond_peek, State.commit_peek_other _ c (hv.notLoad_led hmem)]
    exact hfld hlsb
  · rw [State.respond_peek, hv.commit_getLsbD _ hload, heq, State.peek_poke]
    split
    · rename_i ho
      rw [getLsbD_mergeBits, planesMask_outside, if_neg Bool.false_ne_true, ho]
      exact fun l hlsb hin => hb _ (Ctl.mem_swLoc.mpr ⟨l, hlsb, rfl⟩) ⟨ho, hin⟩
    · rfl
  · have hena := hv.enaLoc_mem led.toNat hp
    have hne : (c.enaLoc port.toNat led.toNat).off ≠ c.swReg port.toNat :=
      (hv.swReg_ne_enaReg hp (lt_ceilDiv hv.ena.2.1 hp)).symm
    have hsource : ((s.rawSet c port led raw).commit c).enabled c port.toNat led.toNat =
        s.enabled c port.toNat led.toNat := by
      rw [State.enabled_eq, State.enabled_eq, State.commit_peek_other _ c (hv.notLoad_led hena), heq,
        State.peek_poke_other s _ hne]
    have hpattern : (fld (((s.rawSet c port led raw).commit c).shownWord c port.toNat) (3 * led.toNat) 3).setWidth 3 =
        raw := by
      rw [hv.commit_shownWord _ hp, hfld (Ctl.mem_swLsbs.mpr (.inl rfl))]
      exact BitVec.setWidth_setWidth_of_le raw (by decide)
    exact Prod.ext (congrArg (fun b => if b = true then LedSource.user else .asic) hsource) hpattern

end Sys2Proof.Machine

namespace Sys2Proof.Machine

/-! SUPPORT. The two loops of PL_INIT_ALL (R164). -/

section Cleared

variable {P : Params} {s : State} {c : Ctl} {o b r p i : Nat} {m : Word}

theorem getLsbD_zero_word (b : Nat) : (0 : Word).getLsbD b = false := BitVec.getLsbD_zero

theorem Ctl.getLsbD_swMaskAll :
    c.swMaskAll.getLsbD b = true ↔ ∃ i < c.ledCount, ∃ l ∈ c.swLsbs i, b < 32 ∧ l ≤ b ∧ b < l + 3 := by
  rw [Ctl.swMaskAll, getLsbD_foldl (Q := fun i => (c.swMask i).getLsbD b = true) fun _ _ => getLsbD_or_iff]
  simp only [getLsbD_zero_word, Bool.false_eq_true, false_or, List.mem_range, Ctl.swMask_eq, getLsbD_planesMask,
    getLsbD_mask_iff]

theorem Ctl.Valid.getLsbD_enaMaskAll (h : c.Valid P) :
    (c.enaMaskAll r).getLsbD b = true ↔
      ∃ p, p < c.portCount ∧ p / c.lay.enaPpr = r ∧ ∃ i < c.ledCount, b = c.enaBit p i := by
  have hports (acc : Word) (p : Nat) :
      ((List.range c.ledCount).foldl (fun acc i => acc ||| ((1 : Word) <<< c.enaBit p i)) acc).getLsbD b = true ↔
        acc.getLsbD b = true ∨ ∃ i < c.ledCount, b = c.enaBit p i := by
    simp only [one_shiftLeft_eq_mask]
    rw [getLsbD_foldl (Q := fun i => (mask (c.enaBit p i) 1).getLsbD b = true) fun _ _ => getLsbD_or_iff]
    refine or_congr_right (exists_congr fun i => ?_)
    rw [List.mem_range, getLsbD_mask_iff]
    have hlt := h.enaBit_lt p (i := i)
    constructor
    · rintro ⟨hi, -, hle, hbit⟩
      exact ⟨hi, by omega⟩
    · rintro ⟨hi, rfl⟩
      exact ⟨hi, hlt hi, Nat.le_refl _, Nat.lt_succ_self _⟩
  rw [Ctl.enaMaskAll, getLsbD_foldl hports]
  simp only [getLsbD_zero_word, Bool.false_eq_true, false_or, mem_portsOf h.ena.2.1, and_assoc]

theorem Ctl.Valid.clearBits_mergesAt (h : c.Valid P) (ho : o ∈ c.ledRegs) (m : Word) :
    MergesAt (fun s => clearBits c o m s) o m 0 := by
  unfold clearBits
  split
  · rename_i h0
    rw [h0]
    exact mergesAt_of_zero _ _
  · simp only [h.rmw_led ho]
    exact mergesAt_poke _ _ _

theorem clearBits_ignoresLocks (c : Ctl) (o : Nat) (m : Word) : IgnoresLocks fun s => clearBits c o m s := by
  unfold clearBits
  split
  · exact ⟨fun _ _ => rfl, fun _ _ => rfl⟩
  · exact rmw_ignoresLocks c _ _ _

/-- The state the two loops leave. -/
def State.cleared (s : State) (c : Ctl) : State := clearEnables c (clearLeds c s)

theorem State.cleared_ignoresLocks (c : Ctl) : IgnoresLocks fun s => s.cleared c :=
  IgnoresLocks.comp (g := clearEnables c) (f := clearLeds c)
    (IgnoresLocks.foldl (fun _ => clearBits_ignoresLocks c _ _) _)
    (IgnoresLocks.foldl (fun _ => clearBits_ignoresLocks c _ _) _)

/-- The loops clear the fields of each software-LED register and of each enable register, and leave
every other register. -/
theorem Ctl.Valid.cleared_spec (h : c.Valid P) (s : State) :
    OnlyWindow s (s.cleared c) ∧
      (∀ p < c.portCount,
        (s.cleared c).peek (c.swReg p) = mergeBits (s.peek (c.swReg p)) c.swMaskAll 0) ∧
      (∀ r < c.nEna,
        (s.cleared c).peek (c.enaReg r) = mergeBits (s.peek (c.enaReg r)) (c.enaMaskAll r) 0) ∧
      ∀ o, (∀ p < c.portCount, o ≠ c.swReg p) → (∀ r < c.nEna, o ≠ c.enaReg r) →
        (s.cleared c).peek o = s.peek o := by
  obtain ⟨hleds, hsw, hnotSw⟩ := foldl_mergesAt (f := fun s p => clearBits c (c.swReg p) c.swMaskAll s)
    (n := c.portCount) (m := fun _ => c.swMaskAll) (v := fun _ => 0)
    (fun p hp => h.clearBits_mergesAt (Ctl.swReg_mem hp) _) (fun _ _ => Ctl.swReg_inj) s
  obtain ⟨henas, hena, hnotEna⟩ := foldl_mergesAt (f := fun s r => clearBits c (c.enaReg r) (c.enaMaskAll r) s)
    (n := c.nEna) (m := c.enaMaskAll) (v := fun _ => 0)
    (fun r hr => h.clearBits_mergesAt (Ctl.enaReg_mem hr) _) (fun _ _ => Ctl.enaReg_inj) (clearLeds c s)
  refine ⟨hleds.trans henas, fun p hp => ?_, fun r hr => ?_, fun o ho ho' => ?_⟩
  · exact (hnotEna _ fun r hr => h.swReg_ne_enaReg hp hr).trans (hsw p hp)
  · have hsame : (clearLeds c s).peek (c.enaReg r) = s.peek (c.enaReg r) :=
      hnotSw _ fun p hp => (h.swReg_ne_enaReg hp hr).symm
    exact (hena r hr).trans (by rw [hsame])
  · exact (hnotEna o ho').trans (hnotSw o ho)

theorem Ctl.Valid.cleared_onlyWindow (h : c.Valid P) (s : State) : OnlyWindow s (s.cleared c) :=
  (h.cleared_spec s).1

theorem Ctl.Valid.cleared_enabled (h : c.Valid P) (s : State) (hp : p < c.portCount) (hi : i < c.ledCount) :
    (s.cleared c).enabled c p i = false := by
  obtain ⟨-, -, hena, -⟩ := h.cleared_spec s
  have hpeek : (s.cleared c).peek (c.enaLoc p i).off = _ := hena _ (lt_ceilDiv h.ena.2.1 hp)
  rw [State.enabled_eq, hpeek, getLsbD_mergeBits, if_pos, getLsbD_zero_word]
  exact h.getLsbD_enaMaskAll.mpr ⟨p, hp, rfl, i, hi, rfl⟩

theorem Ctl.Valid.cleared_sw (h : c.Valid P) (s : State) (hp : p < c.portCount) (hi : i < c.ledCount) {l : Nat}
    (hl : l ∈ c.swLsbs i) : fld ((s.cleared c).peek (c.swReg p)) l 3 = 0 := by
  obtain ⟨-, hsw, -, -⟩ := h.cleared_spec s
  have hfit := h.swLsbs_fit hi hl
  rw [hsw p hp]
  refine fld_mergeBits (fun j hj => ?_) (fun j _ => ?_) fun j _ => getLsbD_zero_word j
  · exact Ctl.getLsbD_swMaskAll.mpr ⟨i, hi, l, hl, by omega, by omega, by omega⟩
  · rw [getLsbD_zero_word, getLsbD_zero_word]

/-- Every bit that is no LED's stays. -/
theorem Ctl.Valid.cleared_getLsbD (h : c.Valid P) (s : State)
    (hena : ∀ p < c.portCount, ∀ i < c.ledCount, ¬(o = c.enaReg (p / c.lay.enaPpr) ∧ b = c.enaBit p i))
    (hsw : ∀ p < c.portCount, ∀ i < c.ledCount, ∀ l ∈ c.swLsbs i, ¬(o = c.swReg p ∧ l ≤ b ∧ b < l + 3)) :
    ((s.cleared c).peek o).getLsbD b = (s.peek o).getLsbD b := by
  obtain ⟨-, hsws, henas, hother⟩ := h.cleared_spec s
  by_cases hoSw : ∃ p < c.portCount, o = c.swReg p
  · obtain ⟨p, hp, rfl⟩ := hoSw
    rw [hsws p hp, getLsbD_mergeBits, if_neg]
    intro hbit
    obtain ⟨i, hi, l, hl, -, hin⟩ := Ctl.getLsbD_swMaskAll.mp hbit
    exact hsw p hp i hi l hl ⟨rfl, hin⟩
  by_cases hoEna : ∃ r < c.nEna, o = c.enaReg r
  · obtain ⟨r, hr, rfl⟩ := hoEna
    rw [henas r hr, getLsbD_mergeBits, if_neg]
    intro hbit
    obtain ⟨p, hp, rfl, i, hi, hin⟩ := h.getLsbD_enaMaskAll.mp hbit
    exact hena p hp i hi ⟨rfl, hin⟩
  · rw [hother o (fun p hp he => hoSw ⟨p, hp, he⟩) fun r hr he => hoEna ⟨r, hr, he⟩]

theorem execPlInitAll_eq (h : s.Ready c .portled) :
    exec .plInitAll s = .next (((s.cleared c).commit c).respond (.ok 0)) :=
  congrArg _ (h.start_eq rfl ((respond_ignoresLocks _).comp
    ((commit_ignoresLocks c).comp (State.cleared_ignoresLocks c))))

/-- After the commit too, no LED in range is enabled. -/
theorem Ctl.Valid.cleared_commit_enabled (h : c.Valid P) (s : State) (hp : p < c.portCount) (hi : i < c.ledCount) :
    ((s.cleared c).commit c).enabled c p i = false := by
  rw [State.enabled_eq, State.commit_peek_other _ c (h.notLoad_led (h.enaLoc_mem i hp)), ← State.enabled_eq,
    h.cleared_enabled s hp hi]

end Cleared

/-! PROOFS. PL_INIT_ALL, and the registry's consistency (R164, R185). -/

/-- Settles O50: the two loops clear every field, the commit writes LOAD and the latches. -/
theorem initAllClearsEveryLed : Obligations.InitAllClearsEveryLed := by
  intro s c h
  have hv := h.1.2.2.2
  have hwin := hv.cleared_onlyWindow s
  refine ⟨_, execPlInitAll_eq h, hwin.returned_commit h.1.1 c _, hv.commit_respond_eq hwin _,
    fun p hp i hi => ⟨hv.cleared_commit_enabled s hp hi, fun f hf => ?_⟩, fun o b hb hload => ?_,
    hv.commit_respond_swLatch hwin _⟩
  · obtain ⟨l, hlsb, rfl⟩ := Ctl.mem_swLoc.mp hf
    rw [State.respond_peek, State.commit_peek_other _ c (hv.notLoad_led (Ctl.swReg_mem hp))]
    exact hv.cleared_sw s hp hi hlsb
  · rw [State.respond_peek, hv.commit_getLsbD _ hload]
    exact hv.cleared_getLsbD s (fun p hp i hi => (hb p hp i hi).1)
      fun p hp i hi l hlsb => (hb p hp i hi).2 _ (Ctl.mem_swLoc.mpr ⟨l, hlsb, rfl⟩)

end Sys2Proof.Machine

namespace Sys2Proof.Machine

/-! SUPPORT. What keeps bindings and enable bits consistent (R185). -/

section Consistency

variable {P : Params} {s : State} {c : Ctl} {port led : Byte} {b : BindMode}

/-- Both halves of R185 pass from `s` to `t`. -/
def KeepsConsistency (s t : State) (c : Ctl) : Prop :=
  (s.RegistryConsistent c → t.RegistryConsistent c) ∧ (s.EnabledOnlyUser c → t.EnabledOnlyUser c)

/-- An answer changes neither binding nor enable bit. -/
theorem keepsConsistency_respond (s : State) (c : Ctl) (r : Response) : KeepsConsistency s (s.respond r) c :=
  ⟨id, id⟩

/-- A change of both together, where the bit is 1 exactly for a user binding. -/
theorem Ctl.Valid.bindUser_keepsConsistency (h : c.Valid P) (hp : port.toNat < c.portCount)
    (hl : led.toNat < c.ledCount) (s : State) {on : Bool} (hon : b = .user ↔ on = true) :
    KeepsConsistency s (s.bindUser c port led on b) c := by
  have hena {p i : Byte} (hr : c.inRange p i = true) :
      (s.bindUser c port led on b).enabled c p.toNat i.toNat =
        if p = port ∧ i = led then on else s.enabled c p.toNat i.toNat := by
    rw [h.bindUser_enabled hp hl s on b _ _ ((c.inRange_iff p i).mp hr).2]
    simp only [BitVec.toNat_inj]
  constructor
  · intro hs p i hr hb
    rw [s.bindUser_binding] at hb
    rw [hena hr]
    split
    · rw [if_pos ‹_›] at hb
      exact hon.mp hb
    · rw [if_neg ‹_›] at hb
      exact hs p i hr hb
  · intro hs p i hr he
    rw [hena hr] at he
    rw [s.bindUser_binding]
    split
    · rw [if_pos ‹_›] at he
      exact hon.mpr he
    · rw [if_neg ‹_›] at he
      exact hs p i hr he

/-- A change of a binding alone, where neither the old nor the new one is a user binding. -/
theorem setBinding_keepsConsistency (c : Ctl) (hold : s.binding port led ≠ .user) (hnew : b ≠ .user) :
    KeepsConsistency s (s.setBinding port led b) c := by
  constructor
  · intro hs p i hr hb
    rw [s.setBinding_binding] at hb
    split at hb
    · exact absurd hb hnew
    · exact hs p i hr hb
  · intro hs p i hr he
    have hb : s.binding p i = .user := hs p i hr he
    rw [s.setBinding_binding, if_neg, hb]
    rintro ⟨rfl, rfl⟩
    exact hold hb

/-- REG_BIND keeps the registry consistent, whatever it returns. -/
theorem execRegBind_keepsConsistency (h : s.Ready c .portled) (port led : Byte) (asUser : Bool) :
    ∃ t, exec (.regBind port led asUser) s = .next t ∧ KeepsConsistency s t c := by
  by_cases hok : c.bindable port led = true
  · by_cases hb : s.binding port led = .none
    · obtain ⟨hp, hl, -⟩ := (c.bindable_iff port led).mp hok
      cases asUser with
      | true =>
        exact ⟨_, execRegBind_user h hok hb, h.1.2.2.2.bindUser_keepsConsistency hp hl s (iff_of_true rfl rfl)⟩
      | false =>
        exact ⟨_, execRegBind_asic h hok hb, setBinding_keepsConsistency (b := .asic) c (by rw [hb]; decide) nofun⟩
    · exact ⟨_, execRegBind_warned h hok hb asUser, keepsConsistency_respond s c _⟩
  · exact ⟨_, execRegBind_error h hok asUser, keepsConsistency_respond s c _⟩

/-- And so does REG_UNBIND. -/
theorem execRegUnbind_keepsConsistency (h : s.Ready c .portled) (port led : Byte) :
    ∃ t, exec (.regUnbind port led) s = .next t ∧ KeepsConsistency s t c := by
  by_cases hok : c.bindable port led = true
  · obtain ⟨hp, hl, -⟩ := (c.bindable_iff port led).mp hok
    cases hb : s.binding port led with
    | none => exact ⟨_, execRegUnbind_warned h hok hb, keepsConsistency_respond s c _⟩
    | asic =>
      exact ⟨_, execRegUnbind_asic h hok hb, setBinding_keepsConsistency (b := .none) c (by rw [hb]; decide) nofun⟩
    | user =>
      exact ⟨_, execRegUnbind_user h hok hb,
        h.1.2.2.2.bindUser_keepsConsistency (b := .none) (on := false) hp hl s (iff_of_false nofun nofun)⟩
  · exact ⟨_, execRegUnbind_error h hok, keepsConsistency_respond s c _⟩

/-- PL_INIT_ALL changes no binding. -/
theorem Ctl.Valid.cleared_commit_binding (h : c.Valid P) (s : State) (p i : Byte) :
    ((s.cleared c).commit c).binding p i = s.binding p i := by
  rw [State.binding, State.commit_bind, h.cleared_onlyWindow s]
  rfl

end Consistency

/-- Settles O58: REG_BIND and REG_UNBIND keep both halves; after PL_INIT_ALL no LED is enabled. -/
theorem registryOperationsKeepUserBindingsEnabled : Obligations.RegistryOperationsKeepUserBindingsEnabled := by
  intro s t c i h hi ht
  have hv := h.1.2.2.2
  have ofKept (hnot : i ≠ .plInitAll) (hkept : ∃ t, exec i s = .next t ∧ KeepsConsistency s t c) :
      (s.RegistryConsistent c → t.RegistryConsistent c) ∧
        (s.EnabledOnlyUser c ∨ i = .plInitAll → t.EnabledOnlyUser c) := by
    obtain ⟨t', ht', huser, honly⟩ := hkept
    rw [ht] at ht'
    injection ht' with ht'
    subst ht'
    exact ⟨huser, fun hs => honly (hs.resolve_right hnot)⟩
  obtain ⟨port, led, asUser, rfl⟩ | ⟨port, led, rfl⟩ | ⟨rfl, hnone⟩ := hi
  · exact ofKept nofun (execRegBind_keepsConsistency h port led asUser)
  · exact ofKept nofun (execRegUnbind_keepsConsistency h port led)
  · rw [execPlInitAll_eq h] at ht
    injection ht with ht
    subst ht
    constructor
    · intro _ p j _ hb
      have hbind := (hv.cleared_commit_binding s p j).trans (hnone p j)
      cases hbind.symm.trans hb
    · intro _ p j hr he
      obtain ⟨hp, hj⟩ := (c.inRange_iff p j).mp hr
      cases (hv.cleared_commit_enabled s hp hj).symm.trans he

/-! SUPPORT. The ways a construction does not take effect (R180). -/

section NotConstructed

variable {P : Params} {s : State} {compat : List Byte} {nports nleds : Byte} {vmask : PortMask} {f : Family}

theorem execCtlConstruct_second (hidle : s.me.flight = .idle) (hctl : s.ctl ≠ none) :
    execCtlConstruct compat nports nleds vmask s = .next s.refuse := by
  simp only [execCtlConstruct, hidle, if_pos (Option.isSome_iff_ne_none.mpr hctl)]

theorem execCtlConstruct_unsupported (hidle : s.me.flight = .idle) (hctl : s.ctl = none)
    (hf : compatLookup s.params compat = none ∨ compatLookup s.params compat = some .placeholder) :
    execCtlConstruct compat nports nleds vmask s = .next (s.respond (.error .unsupportedFamily)) := by
  obtain hf | hf := hf <;>
    simp only [execCtlConstruct, hidle, hctl, hf, Option.isSome_none, Bool.false_eq_true, if_false]

theorem execCtlConstruct_broken (hidle : s.me.flight = .idle) (hctl : s.ctl = none)
    (hf : compatLookup s.params compat = some (.family f))
    (hok : (newCtl s.params f nports nleds vmask).ok s.params = false) :
    execCtlConstruct compat nports nleds vmask s = .next s.refuse := by
  simp only [execCtlConstruct, hidle, hctl, hf, hok, Option.isSome_none, Bool.false_eq_true, if_false]

/-- A configuration that breaks a constraint of R7 does not pass the model's check. -/
theorem newCtl_not_ok
    (hbad : nports.toNat < 3 ∨ 52 < nports.toNat ∨ 3 < nleds.toNat ∨
      ¬SatisfiesR7 P (newCtl P f nports nleds vmask) ∨ (newCtl P f nports nleds vmask).ok P = false) :
    (newCtl P f nports nleds vmask).ok P = false := by
  by_contra hok
  have hr7 := (newCtl_valid (Bool.not_eq_false _ ▸ hok)).satisfiesR7
  obtain ⟨⟨hlow, hhigh⟩, hleds, -⟩ := id hr7
  change 3 ≤ nports.toNat at hlow
  change nports.toNat ≤ 52 at hhigh
  change nleds.toNat ≤ 3 at hleds
  obtain h | h | h | h | h := hbad
  · omega
  · omega
  · omega
  · exact h hr7
  · exact hok h

end NotConstructed

/-- Settles O52. -/
theorem constructRefusesAndReportsInOrder : Obligations.ConstructRefusesAndReportsInOrder := by
  intro s compat nports nleds vmask hlt hidle
  exact ⟨fun hctl => ⟨_, execCtlConstruct_second hidle hctl, refuse_frame hlt⟩,
    fun hctl hf => ⟨_, execCtlConstruct_unsupported hidle hctl hf, returned_respond hlt (.refl s) _, rfl⟩,
    fun f hctl hf hbad => ⟨_, execCtlConstruct_broken hidle hctl hf (newCtl_not_ok hbad), refuse_frame hlt⟩⟩

end Sys2Proof.Machine
